-- ==== Sys2Proof/Word.lean ====
section
/-! DEFINITION. The word types of the block (spec/00_scope.md R11): a byte and a 16-bit packed colour. -/

namespace Sys2Proof

/-- "A byte is an unsigned 8-bit value 0..255" (00 R11). -/
abbrev Byte := BitVec 8

/-- A packed colour or an address parameter before it is split into two bytes (42 R140, 20 R42). -/
abbrev Word16 := BitVec 16

end Sys2Proof
end

