-- ==== Sys2Proof/Config.lean ====
section
/-! DEFINITION. What an implementation fixes (spec/00_scope.md R8): the shapes of the parameters. Their stated values
are in Machine/Defaults.lean. The free values of the model stand here too. -/

namespace Sys2Proof

/-- The level a pin can be driven to (00 R14: `lvl ∈ {LOW, HIGH}`). -/
inductive Level where
  | low
  | high
  deriving DecidableEq, Repr

/-- The closed catalogue of controller commands (30 R64, 92 D35). -/
inductive Command where
  | swreset | slpin | slpout | noron | invoff | invon | dispon | caset | raset | ramwr | madctl | colmod
  | frmctr1 | frmctr2 | frmctr3 | invctr | pwctr1 | pwctr2 | pwctr3 | pwctr4 | pwctr5 | vmctr1 | gmctrp1 | gmctrn1
  deriving DecidableEq, Repr

/-- The operations of the host port (30 R61). -/
inductive HostOp where
  | connect | initializePanel | sendCommand | sendData | sleep | setBacklight | setWindow | displayImage | display
  | powersave | halt | rgb565
  deriving DecidableEq, Repr

/-- A panel geometry, four unsigned bytes (00 R9): visible width and height, left and top offset. -/
structure Geometry where
  w    : Byte
  h    : Byte
  offL : Byte
  offT : Byte
  deriving DecidableEq, Repr

/-- The parameter `OPC` of 00 R8: one opcode byte for each command of the catalogue. -/
structure Opcodes where
  swreset : Byte
  slpin : Byte
  slpout : Byte
  noron : Byte
  invoff : Byte
  invon : Byte
  dispon : Byte
  caset : Byte
  raset : Byte
  ramwr : Byte
  madctl : Byte
  colmod : Byte
  frmctr1 : Byte
  frmctr2 : Byte
  frmctr3 : Byte
  invctr : Byte
  pwctr1 : Byte
  pwctr2 : Byte
  pwctr3 : Byte
  pwctr4 : Byte
  pwctr5 : Byte
  vmctr1 : Byte
  gmctrp1 : Byte
  gmctrn1 : Byte
  deriving DecidableEq, Repr

/-- The parameter `INIT_BYTES` of 00 R8: the fixed parameter bytes of each unit, as many as 30 R64 counts. -/
structure InitBytes where
  madctl : Byte
  colmod : Byte
  frmctr1 : Vector Byte 3
  frmctr2 : Vector Byte 3
  frmctr3 : Vector Byte 6
  invctr : Byte
  pwctr1 : Vector Byte 3
  pwctr2 : Vector Byte 2
  pwctr3 : Vector Byte 2
  pwctr4 : Vector Byte 2
  pwctr5 : Vector Byte 2
  vmctr1 : Byte
  gmctrp1 : Vector Byte 16
  gmctrn1 : Vector Byte 16
  deriving DecidableEq, Repr

/-- The parameters of 00 R8 that are this spec's own choice or general knowledge, "the model must take it as an
argument": State carries one such record, and no instruction writes it. -/
structure Params where
  spiClockHz  : Nat
  spiMode     : Nat
  spiWordBits : Nat
  invert      : Bool
  blOnLevel   : Level
  opc         : Opcodes
  initBytes   : InitBytes
  pwrCmds     : Vector Command 5
  deriving DecidableEq, Repr

/-- A pixel of the caller's image: four 8-bit channels as stored (20 R44, 92 D13). -/
structure Pixel where
  r : Byte
  g : Byte
  b : Byte
  a : Byte
  deriving DecidableEq, Repr, Inhabited

/-- What `Open` can answer (00 R14). -/
inductive OpenAnswer where
  | ok
  | connectionError
  deriving DecidableEq, Repr, Inhabited

/-- What `SetPin` can answer (00 R14, 60 R171). -/
inductive PinAnswer where
  | ok
  | ioError
  deriving DecidableEq, Repr, Inhabited

/-- What `Transact` can answer (00 R14): "It may also never come" (60 R173). -/
inductive TxAnswer where
  | ok
  | ioError
  | never
  deriving DecidableEq, Repr, Inhabited

/-! FREE VALUES (assumption 3): "The answer is a draw from that port's oracle, under no law" (00 R14; 93 I9). The answer of
a port call that State has no scripted answer for, by the number of such calls before it. -/

/-- A free answer of `Open`. -/
opaque Config.openAnswer : Nat → OpenAnswer

/-- A free answer of the DC pin. -/
opaque Config.dcAnswer : Nat → PinAnswer

/-- A free answer of the BL pin. -/
opaque Config.blAnswer : Nat → PinAnswer

/-- A free answer of the transport; never is among its values. -/
opaque Config.txAnswer : Nat → TxAnswer

/-- FREE VALUE (assumption 16): the pixel of an image whose buffer holds none at an image coordinate. No image the
decoder accepts is of this kind (20 R44: `ImgAt` is called only inside the image's bounds). -/
opaque Config.absentPixel : Int → Int → Pixel

end Sys2Proof
end

