-- ==== Sys2Proof/Syntax.lean ====
section
/-! DEFINITION. The instructions of the block, one constructor for each row of spec/opcode_table.json: the twelve host
operations of 30 R61 and the twenty-four catalogue commands of 30 R64. Beside them, what a host puts on the port. -/

namespace Sys2Proof

/-- The identity of a GPIO pin handed to connect. Only its presence matters to the block (10 R21, assumption 18). -/
abbrev PinId := Nat

/-- A caller's image (20 R44): the bounds `[minX, maxX) × [minY, maxY)` in its own coordinates and its pixels row by
row, top row first. -/
structure Image where
  minX   : Int
  minY   : Int
  maxX   : Int
  maxY   : Int
  pixels : List Pixel
  deriving DecidableEq, Repr

/-- One instruction. The first twelve are the operations of the host port; the others are the units of the catalogue,
each with the parameter bytes 30 R64 counts for it. -/
inductive Instr where
  | connect (sel : PinId) (rst bl : Option PinId) (geom : Option Geometry)
  | initializePanel
  | sendCommand (bs : List Byte)
  | sendData (bs : List Byte)
  | sleep
  | setBacklight (enabled : Bool)
  | setWindow (x0 y0 x1 y1 : Int)
  | displayImage (x y : Int) (img : Image)
  | display (raw : List Byte)
  | powersave
  | halt
  | rgb565 (r g b a : Byte)
  | swreset
  | slpin
  | slpout
  | noron
  | invoff
  | invon
  | dispon
  | caset (x0 x1 : Byte)
  | raset (y0 y1 : Byte)
  | ramwr
  | madctl (v : Byte)
  | colmod (v : Byte)
  | frmctr1 (ps : Vector Byte 3)
  | frmctr2 (ps : Vector Byte 3)
  | frmctr3 (ps : Vector Byte 6)
  | invctr (v : Byte)
  | pwctr1 (ps : Vector Byte 3)
  | pwctr2 (ps : Vector Byte 2)
  | pwctr3 (ps : Vector Byte 2)
  | pwctr4 (ps : Vector Byte 2)
  | pwctr5 (ps : Vector Byte 2)
  | vmctr1 (v : Byte)
  | gmctrp1 (ps : Vector Byte 16)
  | gmctrn1 (ps : Vector Byte 16)
  deriving DecidableEq, Repr

/-- An operand of a host call, of the kinds 30 R61 names. -/
inductive Arg where
  | int (v : Int)
  | byte (v : Byte)
  | flag (v : Bool)
  | bytes (bs : List Byte)
  | pin (p : PinId)
  | optPin (p : Option PinId)
  | optGeometry (g : Option Geometry)
  | image (img : Image)
  deriving DecidableEq, Repr

/-- A call on the host port: an operation code and its operands (30 R61, R69; assumption 6). -/
structure HostCall where
  code : Byte
  args : List Arg
  deriving DecidableEq, Repr

/-- What waits to be served: a host call, or the bus image of one unit on the model's unit port (assumption 7): an
opcode byte and the unit's parameter bytes. -/
inductive Request where
  | call (c : HostCall)
  | unit (opcode : Byte) (params : List Byte)
  deriving DecidableEq, Repr

end Sys2Proof
end

