-- ==== Sys2Proof/Machine/Defaults.lean ====
section
/-! DEFINITION. The values of the parameters of spec/00_scope.md R8: the figures the source fixes as constants, and the
stated defaults of the parameters a model takes as an argument. -/

namespace Sys2Proof.Machine

/-- `NATIVE_COLS` (00 R8). -/
def nativeCols : Nat := 132

/-- `NATIVE_ROWS` (00 R8). -/
def nativeRows : Nat := 162

/-- `GEOM_DEFAULT` (00 R8, R9): an 80 by 160 visible area at offsets 26 and 1. -/
def geomDefault : Geometry := ⟨80, 160, 26, 1⟩

/-- `CHUNK`, in bytes (00 R8, 40 R106). -/
def chunkSize : Nat := 4096

/-- `T_SWRESET_MS` (00 R8, 70 R191). -/
def tSwresetMs : Nat := 150

/-- `T_SLPOUT_MS` (00 R8, 70 R191). -/
def tSlpoutMs : Nat := 500

/-- `T_NORON_MS` (00 R8, 70 R191). -/
def tNoronMs : Nat := 100

/-- `T_DISPON_MS` (00 R8, 70 R191). -/
def tDisponMs : Nat := 100

/-- The default `OPC` (30 R64). PRESUMED, assumption 11: general knowledge, not in the source. -/
def opcodesDefault : Opcodes where
  swreset := 0x01
  slpin := 0x10
  slpout := 0x11
  noron := 0x13
  invoff := 0x20
  invon := 0x21
  dispon := 0x29
  caset := 0x2A
  raset := 0x2B
  ramwr := 0x2C
  madctl := 0x36
  colmod := 0x3A
  frmctr1 := 0xB1
  frmctr2 := 0xB2
  frmctr3 := 0xB3
  invctr := 0xB4
  pwctr1 := 0xC0
  pwctr2 := 0xC1
  pwctr3 := 0xC2
  pwctr4 := 0xC3
  pwctr5 := 0xC4
  vmctr1 := 0xC5
  gmctrp1 := 0xE0
  gmctrn1 := 0xE1

/-- The default `INIT_BYTES` (40 R102, 30 R80 to R93). PRESUMED, assumption 12: general knowledge, not in the source. -/
def initBytesDefault : InitBytes where
  madctl := 0xC8
  colmod := 0x05
  frmctr1 := #v[0x01, 0x2C, 0x2D]
  frmctr2 := #v[0x01, 0x2C, 0x2D]
  frmctr3 := #v[0x01, 0x2C, 0x2D, 0x01, 0x2C, 0x2D]
  invctr := 0x07
  pwctr1 := #v[0xA2, 0x02, 0x84]
  pwctr2 := #v[0x0A, 0x00]
  pwctr3 := #v[0x0A, 0x00]
  pwctr4 := #v[0x8A, 0x2A]
  pwctr5 := #v[0x8A, 0xEE]
  vmctr1 := 0x0E
  gmctrp1 := #v[0x02, 0x1C, 0x07, 0x12, 0x37, 0x32, 0x29, 0x2D, 0x29, 0x25, 0x2B, 0x39, 0x00, 0x01, 0x03, 0x10]
  gmctrn1 := #v[0x03, 0x1D, 0x07, 0x06, 0x2E, 0x2C, 0x29, 0x2D, 0x2E, 0x2E, 0x37, 0x3F, 0x00, 0x00, 0x02, 0x10]

/-- The default `PWR_CMDS` (00 R8). PRESUMED, assumption 13: general knowledge, not in the source. -/
def pwrCmdsDefault : Vector Command 5 := #v[.pwctr1, .pwctr2, .pwctr4, .pwctr5, .vmctr1]

/-- The stated defaults of 00 R8. `INVERT` false (92 D22), `BL_ON_LEVEL` HIGH (92 D16), the SPI figures of 92 D23. -/
def paramsDefault : Params where
  spiClockHz := 4000000
  spiMode := 0
  spiWordBits := 8
  invert := false
  blOnLevel := .high
  opc := opcodesDefault
  initBytes := initBytesDefault
  pwrCmds := pwrCmdsDefault

/-- The commands of the catalogue in the order of 30 R64. -/
def allCommands : List Command :=
  [.swreset, .slpin, .slpout, .noron, .invoff, .invon, .dispon, .caset, .raset, .ramwr, .madctl, .colmod,
   .frmctr1, .frmctr2, .frmctr3, .invctr, .pwctr1, .pwctr2, .pwctr3, .pwctr4, .pwctr5, .vmctr1, .gmctrp1, .gmctrn1]

/-- The operations of the host port in the order of 30 R61. -/
def allHostOps : List HostOp :=
  [.connect, .initializePanel, .sendCommand, .sendData, .sleep, .setBacklight, .setWindow, .displayImage, .display,
   .powersave, .halt, .rgb565]

/-- `OPC[c]` (30 R64): the opcode byte of a command. -/
def opcodeOf (o : Opcodes) (c : Command) : Byte :=
  match c with
  | .swreset => o.swreset
  | .slpin => o.slpin
  | .slpout => o.slpout
  | .noron => o.noron
  | .invoff => o.invoff
  | .invon => o.invon
  | .dispon => o.dispon
  | .caset => o.caset
  | .raset => o.raset
  | .ramwr => o.ramwr
  | .madctl => o.madctl
  | .colmod => o.colmod
  | .frmctr1 => o.frmctr1
  | .frmctr2 => o.frmctr2
  | .frmctr3 => o.frmctr3
  | .invctr => o.invctr
  | .pwctr1 => o.pwctr1
  | .pwctr2 => o.pwctr2
  | .pwctr3 => o.pwctr3
  | .pwctr4 => o.pwctr4
  | .pwctr5 => o.pwctr5
  | .vmctr1 => o.vmctr1
  | .gmctrp1 => o.gmctrp1
  | .gmctrn1 => o.gmctrn1

/-- The host operation code of an operation (30 R61, 92 D30). -/
def hostCode (op : HostOp) : Byte :=
  match op with
  | .connect => 0x01
  | .initializePanel => 0x02
  | .sendCommand => 0x03
  | .sendData => 0x04
  | .sleep => 0x05
  | .setBacklight => 0x06
  | .setWindow => 0x07
  | .displayImage => 0x08
  | .display => 0x09
  | .powersave => 0x0A
  | .halt => 0x0B
  | .rgb565 => 0x0C

/-- The number of parameter bytes of a command (30 R64, R63). -/
def paramCount (c : Command) : Nat :=
  match c with
  | .swreset => 0
  | .slpin => 0
  | .slpout => 0
  | .noron => 0
  | .invoff => 0
  | .invon => 0
  | .dispon => 0
  | .caset => 4
  | .raset => 4
  | .ramwr => 0
  | .madctl => 1
  | .colmod => 1
  | .frmctr1 => 3
  | .frmctr2 => 3
  | .frmctr3 => 6
  | .invctr => 1
  | .pwctr1 => 3
  | .pwctr2 => 2
  | .pwctr3 => 2
  | .pwctr4 => 2
  | .pwctr5 => 2
  | .vmctr1 => 1
  | .gmctrp1 => 16
  | .gmctrn1 => 16

/-- The settle delay of a command's unit, in milliseconds, at least (30 R70 to R93: four commands have one). -/
def settleDelay (c : Command) : Option Nat :=
  match c with
  | .swreset => some tSwresetMs
  | .slpout => some tSlpoutMs
  | .noron => some tNoronMs
  | .dispon => some tDisponMs
  | _ => none

end Sys2Proof.Machine
end

