-- ==== Sys2Proof/WellFormed.lean ====
section
/-! DEFINITION. Well-formed instructions. The types carry every length 30 R64 fixes, so one check is left: the pixel
buffer of an image holds one pixel for every coordinate inside its bounds (20 R44). -/

namespace Sys2Proof

/-- The number of columns of an image's bounds; none if the bounds are reversed. -/
def Image.width (img : Image) : Nat := (img.maxX - img.minX).toNat

/-- The number of rows of an image's bounds; none if the bounds are reversed. -/
def Image.height (img : Image) : Nat := (img.maxY - img.minY).toNat

/-- The buffer is the whole rectangle of the bounds (20 R44, 92 D12). -/
def Image.wellFormed (img : Image) : Bool := img.pixels.length == img.width * img.height

/-- An instruction the decoder may answer. -/
def Instr.wellFormed (i : Instr) : Bool :=
  match i with
  | .displayImage _ _ img => img.wellFormed
  | _ => true

end Sys2Proof
end

