-- ==== Sys2Proof/Decode.lean ====
section
/-! DEFINITION. The decoder of what waits on the block's port, total and rejecting by name, and after it the encoder
written from the same tables (30 R61 for host calls, 30 R60 to R65 for units). The opcode bytes are the parameter `OPC`
(30 R64), so both take it as an argument. -/

namespace Sys2Proof

open Sys2Proof.Machine

/-- Why a request is no instruction. -/
inductive DecodeError where
  /-- 30 R61, R67 (b): an operation code outside the table. -/
  | unknownOp (code : Byte)
  /-- Assumption 6: operands that are not the ones 30 R61 lists for the code, or an image without its pixels. -/
  | badOperands (code : Byte)
  /-- Assumption 7: an opcode byte outside the catalogue (30 R64), on the unit port. -/
  | unknownCommand (opcode : Byte)
  /-- Assumption 7: parameter bytes that are not the command's (30 R63, R64, R65), on the unit port. -/
  | badParameters (opcode : Byte)
  deriving DecidableEq, Repr

/-- The operation of a host code (30 R61). -/
def hostOpOf (code : Byte) : Option HostOp := allHostOps.find? (fun op => hostCode op == code)

/-- The command of an opcode byte (30 R64). -/
def commandOf (o : Opcodes) (opcode : Byte) : Option Command := allCommands.find? (fun c => opcodeOf o c == opcode)

/-- The operands of a host operation (30 R61). -/
def decodeArgs (op : HostOp) (args : List Arg) : Option Instr :=
  match op, args with
  | .connect, [.pin sel, .optPin rst, .optPin bl, .optGeometry g] => some (.connect sel rst bl g)
  | .initializePanel, [] => some .initializePanel
  | .sendCommand, [.bytes bs] => some (.sendCommand bs)
  | .sendData, [.bytes bs] => some (.sendData bs)
  | .sleep, [] => some .sleep
  | .setBacklight, [.flag v] => some (.setBacklight v)
  | .setWindow, [.int x0, .int y0, .int x1, .int y1] => some (.setWindow x0 y0 x1 y1)
  | .displayImage, [.int x, .int y, .image img] => if img.wellFormed then some (.displayImage x y img) else none
  | .display, [.bytes raw] => some (.display raw)
  | .powersave, [] => some .powersave
  | .halt, [] => some .halt
  | .rgb565, [.byte r, .byte g, .byte b, .byte a] => some (.rgb565 r g b a)
  | _, _ => none

/-- A byte list of exactly `n` bytes, as the `n` bytes it is. -/
def exactBytes (n : Nat) (bs : List Byte) : Option (Vector Byte n) :=
  if h : bs.length = n then some ⟨bs.toArray, by simpa using h⟩ else none

/-- A command without parameters takes none. -/
def decodeNone (i : Instr) (ps : List Byte) : Option Instr := if ps = [] then some i else none

/-- A command with one parameter byte. -/
def decodeOne (f : Byte → Instr) (ps : List Byte) : Option Instr :=
  match ps with
  | [v] => some (f v)
  | _ => none

/-- The two address bytes of CASET or RASET: "high byte always 0" (30 R65). -/
def decodeAddress (f : Byte → Byte → Instr) (ps : List Byte) : Option Instr :=
  match ps with
  | [h0, a0, h1, a1] => if h0 = 0 ∧ h1 = 0 then some (f a0 a1) else none
  | _ => none

/-- The parameters of a unit, as many as 30 R64 counts for its command. -/
def decodeParams (c : Command) (ps : List Byte) : Option Instr :=
  match c with
  | .swreset => decodeNone .swreset ps
  | .slpin => decodeNone .slpin ps
  | .slpout => decodeNone .slpout ps
  | .noron => decodeNone .noron ps
  | .invoff => decodeNone .invoff ps
  | .invon => decodeNone .invon ps
  | .dispon => decodeNone .dispon ps
  | .caset => decodeAddress .caset ps
  | .raset => decodeAddress .raset ps
  | .ramwr => decodeNone .ramwr ps
  | .madctl => decodeOne .madctl ps
  | .colmod => decodeOne .colmod ps
  | .frmctr1 => (exactBytes 3 ps).map .frmctr1
  | .frmctr2 => (exactBytes 3 ps).map .frmctr2
  | .frmctr3 => (exactBytes 6 ps).map .frmctr3
  | .invctr => decodeOne .invctr ps
  | .pwctr1 => (exactBytes 3 ps).map .pwctr1
  | .pwctr2 => (exactBytes 2 ps).map .pwctr2
  | .pwctr3 => (exactBytes 2 ps).map .pwctr3
  | .pwctr4 => (exactBytes 2 ps).map .pwctr4
  | .pwctr5 => (exactBytes 2 ps).map .pwctr5
  | .vmctr1 => decodeOne .vmctr1 ps
  | .gmctrp1 => (exactBytes 16 ps).map .gmctrp1
  | .gmctrn1 => (exactBytes 16 ps).map .gmctrn1

/-- The instruction a request stands for, or why it is none. -/
def decode (o : Opcodes) (req : Request) : Except DecodeError Instr :=
  match req with
  | .call c =>
    match hostOpOf c.code with
    | none => .error (.unknownOp c.code)
    | some op =>
      match decodeArgs op c.args with
      | none => .error (.badOperands c.code)
      | some i => .ok i
  | .unit opcode ps =>
    match commandOf o opcode with
    | none => .error (.unknownCommand opcode)
    | some c =>
      match decodeParams c ps with
      | none => .error (.badParameters opcode)
      | some i => .ok i

/-- A host call of an operation (30 R61). -/
def hostRequest (op : HostOp) (args : List Arg) : Request := .call ⟨hostCode op, args⟩

/-- The bus image of a unit: its opcode, then its parameter bytes (30 R60). -/
def unitRequest (o : Opcodes) (c : Command) (ps : List Byte) : Request := .unit (opcodeOf o c) ps

/-- The request that stands for an instruction (30 R60, R61, R64, R65). -/
def encode (o : Opcodes) (i : Instr) : Request :=
  match i with
  | .connect sel rst bl g => hostRequest .connect [.pin sel, .optPin rst, .optPin bl, .optGeometry g]
  | .initializePanel => hostRequest .initializePanel []
  | .sendCommand bs => hostRequest .sendCommand [.bytes bs]
  | .sendData bs => hostRequest .sendData [.bytes bs]
  | .sleep => hostRequest .sleep []
  | .setBacklight v => hostRequest .setBacklight [.flag v]
  | .setWindow x0 y0 x1 y1 => hostRequest .setWindow [.int x0, .int y0, .int x1, .int y1]
  | .displayImage x y img => hostRequest .displayImage [.int x, .int y, .image img]
  | .display raw => hostRequest .display [.bytes raw]
  | .powersave => hostRequest .powersave []
  | .halt => hostRequest .halt []
  | .rgb565 r g b a => hostRequest .rgb565 [.byte r, .byte g, .byte b, .byte a]
  | .swreset => unitRequest o .swreset []
  | .slpin => unitRequest o .slpin []
  | .slpout => unitRequest o .slpout []
  | .noron => unitRequest o .noron []
  | .invoff => unitRequest o .invoff []
  | .invon => unitRequest o .invon []
  | .dispon => unitRequest o .dispon []
  | .caset x0 x1 => unitRequest o .caset [0, x0, 0, x1]
  | .raset y0 y1 => unitRequest o .raset [0, y0, 0, y1]
  | .ramwr => unitRequest o .ramwr []
  | .madctl v => unitRequest o .madctl [v]
  | .colmod v => unitRequest o .colmod [v]
  | .frmctr1 ps => unitRequest o .frmctr1 ps.toList
  | .frmctr2 ps => unitRequest o .frmctr2 ps.toList
  | .frmctr3 ps => unitRequest o .frmctr3 ps.toList
  | .invctr v => unitRequest o .invctr [v]
  | .pwctr1 ps => unitRequest o .pwctr1 ps.toList
  | .pwctr2 ps => unitRequest o .pwctr2 ps.toList
  | .pwctr3 ps => unitRequest o .pwctr3 ps.toList
  | .pwctr4 ps => unitRequest o .pwctr4 ps.toList
  | .pwctr5 ps => unitRequest o .pwctr5 ps.toList
  | .vmctr1 v => unitRequest o .vmctr1 [v]
  | .gmctrp1 ps => unitRequest o .gmctrp1 ps.toList
  | .gmctrn1 ps => unitRequest o .gmctrn1 ps.toList

/-- `OPC` names every command by a byte of its own. The default does (30 R64); a parameter need not. -/
abbrev Opcodes.distinct (o : Opcodes) : Prop := (allCommands.map (opcodeOf o)).Nodup

/-- The operands of zeros of a host operation, for a word that has its code only: numbers 0, pins and geometry absent,
a byte sequence of one zero byte, an image of no pixel. -/
def zeroArgs (op : HostOp) : List Arg :=
  match op with
  | .connect => [.pin 0, .optPin none, .optPin none, .optGeometry none]
  | .initializePanel => []
  | .sendCommand => [.bytes [0]]
  | .sendData => [.bytes [0]]
  | .sleep => []
  | .setBacklight => [.flag false]
  | .setWindow => [.int 0, .int 0, .int 0, .int 0]
  | .displayImage => [.int 0, .int 0, .image ⟨0, 0, 0, 0, []⟩]
  | .display => [.bytes [0]]
  | .powersave => []
  | .halt => []
  | .rgb565 => [.byte 0, .byte 0, .byte 0, .byte 0]

/-- Byte `k` of a number whose byte 0 is the least significant. -/
def byteAt (w k : Nat) : Byte := BitVec.ofNat 8 (w / 2 ^ (8 * k))

/-- The request a table word stands for: a host call with operands of zeros where its first byte is a host code
(30 R61), else a unit whose parameter bytes are the word's next bytes. Byte 0x01 is both connect's code and SWRESET's
opcode: it reads as connect (assumption 8). -/
def tableRequest (nbits w : Nat) : Request :=
  let v := w % 2 ^ nbits
  match hostOpOf (byteAt v 0) with
  | some op => hostRequest op (zeroArgs op)
  | none =>
    match commandOf opcodesDefault (byteAt v 0) with
    | some c => .unit (byteAt v 0) ((List.range (paramCount c)).map (fun k => byteAt v (k + 1)))
    | none => .unit (byteAt v 0) []

/-- The instruction the decoder reads from a word numbered as spec/opcode_table.json numbers it. -/
def decodeTableWord (nbits w : Nat) : Option Instr :=
  match decode opcodesDefault (tableRequest nbits w) with
  | .ok i => some i
  | .error _ => none

end Sys2Proof
end

