-- ==== Sys2Proof/Machine/State.lean ====
section
/-! DEFINITION. The state of the block as plain data (spec/10_state.md R21 to R31), the events and answers of its ports
(spec/00_scope.md R14, R16), its errors (spec/60_exceptions.md R160, R161), and the state after reset. -/

namespace Sys2Proof.Machine

/-- What is known of a line: the last level the block drove, or UNKNOWN (10 R23 to R25). -/
inductive LineLevel where
  | low
  | high
  | unknown
  deriving DecidableEq, Repr

/-- The transport connection register `conn` (10 R26). -/
inductive Conn where
  | closed
  | opened (clk mode bits : Nat)
  deriving DecidableEq, Repr

/-- The configuration registers (10 R21), written by connect only. -/
structure Cfg where
  w      : Byte
  h      : Byte
  offL   : Byte
  offT   : Byte
  hasRst : Bool
  hasBl  : Bool
  invert : Bool
  deriving DecidableEq, Repr

/-- The sequencer position `seq.step` (10 R22): IDLE, or the index of the unit that initialize is emitting. -/
inductive SeqStep where
  | idle
  | emitting (k : Fin 20)
  deriving DecidableEq, Repr

/-- The pins the block drives (00 R14). RST is never driven (10 R25), so there is no event for it. -/
inductive Pin where
  | dc
  | bl
  deriving DecidableEq, Repr

/-- The event kinds of the trace (00 R16). A `tx` is tagged with the value of `reg.DC` when it was issued (10 R23). -/
inductive Event where
  | openPort (clk mode bits : Nat)
  | pin (p : Pin) (lvl : Level)
  | tx (dc : LineLevel) (bytes : List Byte)
  | delay (ms : Nat)
  deriving DecidableEq, Repr

/-- The answer an event received (00 R14). `never` stands in the trace of a stalled transaction only (60 R173). -/
inductive Answer where
  | ok
  | ioError
  | connectionError
  | never
  deriving DecidableEq, Repr

/-- One line of the trace: an event "followed by the answer it received" (00 R16). -/
structure Entry where
  event  : Event
  answer : Answer
  deriving DecidableEq, Repr

/-- The oracle argument of 93 I9 (assumption 3): the answers known for the next calls of each port, oldest first, and how
many calls have been answered past the end of their list. Such a call draws the free answer of that number. -/
structure Oracle where
  opens      : List OpenAnswer
  dc         : List PinAnswer
  bl         : List PinAnswer
  tx         : List TxAnswer
  unscripted : Nat
  deriving DecidableEq, Repr

/-- The info an IoError records (60 R161): the select line's write, or the transaction whose first byte has this offset
in the send's byte sequence. -/
inductive IoCause where
  | dcPin
  | tx (offset : Nat)
  deriving DecidableEq, Repr

/-- The error kinds the block returns, with their info (60 R160, R161). -/
inductive BlockError where
  | connectionError
  | ioError (cause : IoCause)
  | protocolError (step : Fin 20) (cause : IoCause)
  deriving DecidableEq, Repr

/-- What an operation returns to the host port (30 R61). -/
inductive Result where
  | ok
  | error (e : BlockError)
  | colour (v : Word16)
  deriving DecidableEq, Repr

/-- The state of the block. `params`, `port` and `oracle` are the model's own (assumptions 15, 2 and 3); `trace` and
`results` are the observation of 00 R16; the rest are the registers of 10 R31. -/
structure State where
  params  : Params
  conn    : Conn
  cfg     : Cfg
  dc      : LineLevel
  bl      : LineLevel
  rst     : LineLevel
  seqStep : SeqStep
  port    : List Request
  oracle  : Oracle
  trace   : List Entry
  results : List Result
  deriving DecidableEq, Repr

/-- Why the block stops without a next state. -/
inductive Fault where
  /-- Raised by every operation that sends, when a `Transact` never answers: "a run in which the block has no further
  step (stuck)" (60 R173, 93 I6). It carries the state the block is stuck in. Safe (assumption 4). -/
  | stalled (stuck : State)
  deriving DecidableEq, Repr

/-- The refusal mark of 60 R165 ("the model has no meaning for the call", 00 R15): it ends the run (assumption 5). -/
inductive Refusal where
  /-- Raised by an arm of exec whose instruction has no meaning yet. Safe. -/
  | notModelled (mnemonic : String)
  /-- `GEOMETRY_INVALID`, raised by connect: the geometry breaks 00 R9. Safe. -/
  | geometryInvalid
  /-- `ALREADY_CONNECTED`, raised by connect when `conn` is not CLOSED (10 R26). Safe. -/
  | alreadyConnected
  /-- `NOT_CONNECTED`, raised by every operation but connect and rgb565 when `conn` is CLOSED (10 R26). Safe. -/
  | notConnected
  /-- `EMPTY_COMMAND`, raised by send_command for no byte (40 R105). Safe. -/
  | emptyCommand
  /-- `WINDOW_RANGE`, raised by set_window for an offset coordinate outside 0..255 (41 R120). Safe. -/
  | windowRange
  /-- `UNKNOWN_OP`, raised by step for an operation code outside 30 R61. Safe. -/
  | unknownOp (code : Byte)
  /-- Raised by step for operands that are not the code's (assumption 6). Safe. -/
  | badOperands (code : Byte)
  /-- Raised by step for a unit whose opcode is outside the catalogue (assumption 7). Safe. -/
  | unknownCommand (opcode : Byte)
  /-- Raised by step for a unit whose parameter bytes are not its command's (assumption 7). Safe. -/
  | badParameters (opcode : Byte)
  deriving DecidableEq, Repr

/-- Right after reset, which for this block is a successful connect (70 R180): the values of 10 R31, with the default
geometry, a backlight pin and no reset pin (assumption 1), nothing waiting and no answer scripted, so that every port's
answer is free. -/
def State.reset : State where
  params := paramsDefault
  conn := .opened 4000000 0 8
  cfg := ⟨80, 160, 26, 1, false, true, false⟩
  dc := .unknown
  bl := .unknown
  rst := .unknown
  seqStep := .idle
  port := []
  oracle := ⟨[], [], [], [], 0⟩
  trace := [⟨.openPort 4000000 0 8, .ok⟩]
  results := [.ok]

/-- Before connect (10 R31): `conn` is CLOSED "and no other register exists"; the model's values in the fields of the
registers that do not exist yet are in assumption 17. -/
def State.beforeConnect : State where
  params := paramsDefault
  conn := .closed
  cfg := ⟨0, 0, 0, 0, false, false, false⟩
  dc := .unknown
  bl := .unknown
  rst := .unknown
  seqStep := .idle
  port := []
  oracle := ⟨[], [], [], [], 0⟩
  trace := []
  results := []

end Sys2Proof.Machine
end

