-- ==== Sys2Proof/Machine/Ops.lean ====
section
/-! DEFINITION. The port primitives of spec/00_scope.md R14, the control notation of R15 (`try`, `raise`, `refuse`), the
error abort of spec/60_exceptions.md R166 to R168, and fetching the next request. -/

namespace Sys2Proof.Machine

/-- The line level of a driven level. -/
def lineOf (lvl : Level) : LineLevel :=
  match lvl with
  | .low => .low
  | .high => .high

/-- Each primitive "appends one event to the trace", with the answer it received (00 R14, R16). -/
def State.log (e : Event) (a : Answer) (s : State) : State := { s with trace := s.trace ++ [⟨e, a⟩] }

/-- The line register of a pin is written (00 R14). -/
def State.setLine (p : Pin) (l : LineLevel) (s : State) : State :=
  match p with
  | .dc => { s with dc := l }
  | .bl => { s with bl := l }

/-! One oracle answer for each port call (00 R14, 93 I9; assumption 3): the first scripted answer, or the free answer of
the next number. -/

/-- The next answer of `Open`. -/
def Oracle.nextOpen (o : Oracle) : OpenAnswer := o.opens.headD (Config.openAnswer o.unscripted)

/-- The oracle with that answer drawn. -/
def Oracle.takeOpen (o : Oracle) : Oracle :=
  match o.opens with
  | [] => { o with unscripted := o.unscripted + 1 }
  | _ :: rest => { o with opens := rest }

/-- The next answer of the DC pin. -/
def Oracle.nextDc (o : Oracle) : PinAnswer := o.dc.headD (Config.dcAnswer o.unscripted)

/-- The oracle with that answer drawn. -/
def Oracle.takeDc (o : Oracle) : Oracle :=
  match o.dc with
  | [] => { o with unscripted := o.unscripted + 1 }
  | _ :: rest => { o with dc := rest }

/-- The next answer of the BL pin. -/
def Oracle.nextBl (o : Oracle) : PinAnswer := o.bl.headD (Config.blAnswer o.unscripted)

/-- The oracle with that answer drawn. -/
def Oracle.takeBl (o : Oracle) : Oracle :=
  match o.bl with
  | [] => { o with unscripted := o.unscripted + 1 }
  | _ :: rest => { o with bl := rest }

/-- The next answer of the transport. -/
def Oracle.nextTx (o : Oracle) : TxAnswer := o.tx.headD (Config.txAnswer o.unscripted)

/-- The oracle with that answer drawn. -/
def Oracle.takeTx (o : Oracle) : Oracle :=
  match o.tx with
  | [] => { o with unscripted := o.unscripted + 1 }
  | _ :: rest => { o with tx := rest }

/-- A pin port's draw: the answer, and the state with that answer drawn. -/
def drawPin (p : Pin) (s : State) : PinAnswer × State :=
  match p with
  | .dc => (s.oracle.nextDc, { s with oracle := s.oracle.takeDc })
  | .bl => (s.oracle.nextBl, { s with oracle := s.oracle.takeBl })

/-- `SetPin(p, lvl)` (00 R14): "On ok, reg.p <- lvl. On IoError, reg.p <- UNKNOWN." -/
def setPin (p : Pin) (lvl : Level) (s : State) : PinAnswer × State :=
  match drawPin p s with
  | (.ok, s1) => (.ok, (s1.setLine p (lineOf lvl)).log (.pin p lvl) .ok)
  | (.ioError, s1) => (.ioError, (s1.setLine p .unknown).log (.pin p lvl) .ioError)

/-- The trace's answer for a transport answer. -/
def answerOfTx (a : TxAnswer) : Answer :=
  match a with
  | .ok => .ok
  | .ioError => .ioError
  | .never => .never

/-- `Transact(bs)` (00 R14): one `Tx` tagged with the level of DC (10 R23). -/
def transact (bs : List Byte) (s : State) : TxAnswer × State :=
  let a := s.oracle.nextTx
  (a, ({ s with oracle := s.oracle.takeTx }).log (.tx s.dc bs) (answerOfTx a))

/-- `Delay(ms)` (00 R14): "It always completes and has no failure." -/
def delay (ms : Nat) (s : State) : State := s.log (.delay ms) .ok

/-- `Open(clk, mode, bits)` (00 R14). -/
def openTransport (clk mode bits : Nat) (s : State) : OpenAnswer × State :=
  match s.oracle.nextOpen with
  | .ok =>
    (.ok, ({ s with oracle := s.oracle.takeOpen }).log (.openPort clk mode bits) .ok)
  | .connectionError =>
    (.connectionError,
      ({ s with oracle := s.oracle.takeOpen }).log (.openPort clk mode bits) .connectionError)

/-- How far an operation has come (00 R15): its lines so far completed; an error was raised in this state; a transaction
never answered (60 R173); the call is refused. -/
inductive Run where
  | done (s : State)
  | failed (e : BlockError) (s : State)
  | stalled (s : State)
  | refused (r : Refusal)
  deriving DecidableEq, Repr

/-- `try` (00 R15): go on with the next line only where the lines so far completed. -/
def Run.andThen (r : Run) (k : State → Run) : Run :=
  match r with
  | .done s => k s
  | .failed e s => .failed e s
  | .stalled s => .stalled s
  | .refused q => .refused q

/-- An operation returns `ok` or a value to the host port. -/
def State.complete (r : Result) (s : State) : State := { s with results := s.results ++ [r] }

/-- TAKING AN ERROR (60 R166, R167), the block's exception entry: "Nothing is saved and nothing is rolled back"; the
sequencer is IDLE and the error is returned on the host port. There is no return from it (60 R168): the block is idle
and takes the next call. -/
def State.raiseError (e : BlockError) (s : State) : State :=
  { s with seqStep := .idle, results := s.results ++ [.error e] }

/-- The end of an operation: `return ok`, the error taken, the stuck state, or the refusal. -/
def Run.finish (r : Run) : Host.Outcome State Fault Refusal :=
  match r with
  | .done s => .next (s.complete .ok)
  | .failed e s => .next (s.raiseError e)
  | .stalled s => .fault (.stalled s)
  | .refused q => .refused q

/-- Every operation but connect and rgb565 needs `conn = OPEN`, "otherwise it is refused NOT_CONNECTED" (10 R26). The
check comes before the operation's own (assumption 10). -/
def whenConnected (op : State → Run) (s : State) : Run :=
  match s.conn with
  | .closed => .refused .notConnected
  | .opened _ _ _ => op s

/-- The code of an error kind (60 R161). -/
def BlockError.code (e : BlockError) : Nat :=
  match e with
  | .connectionError => 1
  | .ioError _ => 2
  | .protocolError _ _ => 3

/-- The refusal of a request that is no instruction. -/
def refusalOf (e : DecodeError) : Refusal :=
  match e with
  | .unknownOp c => .unknownOp c
  | .badOperands c => .badOperands c
  | .unknownCommand b => .unknownCommand b
  | .badParameters b => .badParameters b

/-- What fetching finds: no call waits, a call that is refused, or an instruction and the state with its call taken. -/
inductive Fetched where
  | nothing
  | refused (r : Refusal)
  | instr (i : Instr) (s : State)
  deriving DecidableEq, Repr

/-- The next request on the port (00 R19: in the order the host issues them). -/
def fetch (s : State) : Fetched :=
  match s.port with
  | [] => .nothing
  | req :: rest =>
    match decode s.params.opc req with
    | .error e => .refused (refusalOf e)
    | .ok i => .instr i { s with port := rest }

/-- Put a request where the next step fetches. -/
def State.placeRequest (req : Request) (s : State) : State := { s with port := req :: s.port.tail }

end Sys2Proof.Machine
end

