-- ==== Sys2Proof/Machine/Operands.lean ====
section
/-! DEFINITION. Operand forms: colour packing (spec/42_color.md), big-endian pairs and address parameters
(spec/20_memory.md R42, spec/30_encoding.md R65, R66), chunks (30 R60, 20 R46), geometry and window checks (00 R9, 41 R120),
clipping and the pixel stream (41 R122, R123), and the initialisation table (40 R102 to R104). -/

namespace Sys2Proof.Machine

/-- The colour packer (42 R140): alpha is ignored. The form on 16-bit channels that 42 R141 allows gives the same. -/
def packRgb565 (r g b _a : Byte) : Word16 :=
  (((r &&& 0xF8).setWidth 16) <<< 8) ||| (((g &&& 0xFC).setWidth 16) <<< 3) ||| ((b.setWidth 16) >>> 3)

/-- `be16(v)`: "the two-byte sequence [v[15:8], v[7:0]]" (00 R11, 20 R42). -/
def be16 (v : Word16) : List Byte := [v.extractLsb' 8 8, v.extractLsb' 0 8]

/-- `lo8(v)`: v mod 256 (00 R11). -/
def lo8 (v : Int) : Byte := BitVec.ofInt 8 v

/-- The bus image of a pixel (30 R66, 42 R142). -/
def pixelBytes (p : Pixel) : List Byte := be16 (packRgb565 p.r p.g p.b p.a)

/-- Address-parameter assembly (30 R65): two big-endian pairs whose high byte is 0. -/
def addressParams (a0 a1 : Int) : List Byte := [0, lo8 a0, 0, lo8 a1]

/-- Data chunk `k`: the bytes from `k*CHUNK`, at most CHUNK of them (30 R60). -/
def chunk (k : Nat) (bs : List Byte) : List Byte := (bs.drop (k * chunkSize)).take chunkSize

/-- `ceil(n / CHUNK)` (20 R46). -/
def chunkCount (n : Nat) : Nat := (n + (chunkSize - 1)) / chunkSize

/-- The chunks of a payload, in order (20 R46, 40 R106). -/
def chunks (bs : List Byte) : List (List Byte) := (List.range (chunkCount bs.length)).map (fun k => chunk k bs)

/-- A well-formed geometry (00 R9). -/
def geometryOk (g : Geometry) : Bool :=
  decide (1 ≤ g.w.toNat ∧ 1 ≤ g.h.toNat ∧ g.offL.toNat + g.w.toNat ≤ nativeCols ∧ g.offT.toNat + g.h.toNat ≤ nativeRows)

/-- The check of 41 R120: `0 ≤ v ≤ 255`. -/
def inByteRange (v : Int) : Bool := decide (0 ≤ v ∧ v ≤ 255)

/-- A byte register as an integer (00 R13). -/
def byteInt (b : Byte) : Int := (b.toNat : Int)

/-- The native column of a visible column (20 R41). -/
def nativeCol (c : Cfg) (x : Int) : Int := x + byteInt c.offL

/-- The native row of a visible row (20 R41). -/
def nativeRow (c : Cfg) (y : Int) : Int := y + byteInt c.offT

/-- A clip, half-open (41 R122). -/
structure Clip where
  cx0 : Int
  cy0 : Int
  cx1 : Int
  cy1 : Int
  deriving DecidableEq, Repr

/-- `clip(x, y, img)` (41 R122): the placed bounds cut to the visible rectangle. -/
def clipOf (c : Cfg) (x y : Int) (img : Image) : Clip where
  cx0 := max (img.minX + x) 0
  cy0 := max (img.minY + y) 0
  cx1 := min (img.maxX + x) (byteInt c.w)
  cy1 := min (img.maxY + y) (byteInt c.h)

/-- "It is empty iff `cx0 ≥ cx1` or `cy0 ≥ cy1`" (41 R122). -/
def Clip.empty (k : Clip) : Bool := decide (k.cx1 ≤ k.cx0 ∨ k.cy1 ≤ k.cy0)

/-- The clipped width `cw` (41 R121). -/
def Clip.cw (k : Clip) : Nat := (k.cx1 - k.cx0).toNat

/-- The clipped height `ch` (41 R121). -/
def Clip.ch (k : Clip) : Nat := (k.cy1 - k.cy0).toNat

/-- `ImgAt(img, ix, iy)` (00 R14, 20 R44): the pixel at an image coordinate. The buffer is read row by row; where an
ill-formed image holds no such pixel the value is free (assumption 16). -/
def imgAt (img : Image) (ix iy : Int) : Pixel :=
  (img.pixels[(iy - img.minY).toNat * img.width + (ix - img.minX).toNat]?).getD (Config.absentPixel ix iy)

/-- One column of the stream: visible column `px`, rows ascending (41 R121, R123). -/
def columnBytes (x y : Int) (img : Image) (px cy0 : Int) (ch : Nat) : List Byte :=
  (List.range ch).flatMap (fun (j : Nat) => pixelBytes (imgAt img (px - x) (cy0 + (j : Int) - y)))

/-- The pixel stream of a clip: "outer loop over x, inner loop over y" (41 R121, R123). -/
def pixelStream (x y : Int) (img : Image) (k : Clip) : List Byte :=
  (List.range k.cw).flatMap (fun (i : Nat) => columnBytes x y img (k.cx0 + (i : Int)) k.cy0 k.ch)

/-- A command-and-payload unit (00 R17, 30 R62). -/
structure CmdUnit where
  cmd    : Command
  params : List Byte
  delay  : Option Nat
  deriving DecidableEq, Repr

/-- The parameter bytes initialize sends with a command: the fixed bytes of `INIT_BYTES` (40 R102), and for the two
address sets the visible area (40 R103). DESIGN CHOICE (assumption 28): CASET and RASET send those same bytes where
`PWR_CMDS` names one of them for a step 6 to 10, for which the spec gives no `INIT_BYTES`. -/
def initParams (p : Params) (c : Cfg) (cmd : Command) : List Byte :=
  match cmd with
  | .swreset => []
  | .slpin => []
  | .slpout => []
  | .noron => []
  | .invoff => []
  | .invon => []
  | .dispon => []
  | .caset => addressParams (byteInt c.offL) (byteInt c.offL + byteInt c.w - 1)
  | .raset => addressParams (byteInt c.offT) (byteInt c.offT + byteInt c.h - 1)
  | .ramwr => []
  | .madctl => [p.initBytes.madctl]
  | .colmod => [p.initBytes.colmod]
  | .frmctr1 => p.initBytes.frmctr1.toList
  | .frmctr2 => p.initBytes.frmctr2.toList
  | .frmctr3 => p.initBytes.frmctr3.toList
  | .invctr => [p.initBytes.invctr]
  | .pwctr1 => p.initBytes.pwctr1.toList
  | .pwctr2 => p.initBytes.pwctr2.toList
  | .pwctr3 => p.initBytes.pwctr3.toList
  | .pwctr4 => p.initBytes.pwctr4.toList
  | .pwctr5 => p.initBytes.pwctr5.toList
  | .vmctr1 => [p.initBytes.vmctr1]
  | .gmctrp1 => p.initBytes.gmctrp1.toList
  | .gmctrn1 => p.initBytes.gmctrn1.toList

/-- The commands of the twenty steps, in order (40 R102), with step 11 chosen by `cfg.invert` (40 R104). -/
def initCommands (p : Params) (c : Cfg) : List Command :=
  [.swreset, .slpout, .frmctr1, .frmctr2, .frmctr3, .invctr] ++ p.pwrCmds.toList ++
    [if c.invert then .invon else .invoff, .madctl, .colmod, .caset, .raset, .gmctrp1, .gmctrn1, .noron, .dispon]

/-- "Steps 0, 1, 18 and 19 carry the only delays" (40 R102). -/
def initDelay (k : Nat) : Option Nat :=
  match k with
  | 0 => some tSwresetMs
  | 1 => some tSlpoutMs
  | 18 => some tNoronMs
  | 19 => some tDisponMs
  | _ => none

/-- The initialisation table `INIT` (40 R102). -/
def initTable (p : Params) (c : Cfg) : List CmdUnit :=
  (initCommands p c).mapIdx (fun k cmd => ⟨cmd, initParams p c cmd, initDelay k⟩)

end Sys2Proof.Machine
end

