-- ==== Sys2Proof/Machine/Protocol.lean ====
section
/-! DEFINITION. The Register Protocol Layer (spec/40_protocol.md R100 to R109): the send primitives as shared operations,
and the meanings of connect, initialize, send_command, send_data, sleep and set_backlight. -/

namespace Sys2Proof.Machine

/-- One transaction of a send, at a byte offset: its failure is `IoError(TX, offset)` (40 R105, R106). -/
def sendTx (offset : Nat) (bs : List Byte) (s : State) : Run :=
  match transact bs s with
  | (.ok, s1) => .done s1
  | (.ioError, s1) => .failed (.ioError (.tx offset)) s1
  | (.never, s1) => .stalled s1

/-- The select line driven for a send: its failure is `IoError(DC_PIN)` (40 R105, R106). -/
def selectDc (lvl : Level) (s : State) : Run :=
  match setPin .dc lvl s with
  | (.ok, s1) => .done s1
  | (.ioError, s1) => .failed (.ioError .dcPin) s1

/-- send_command (40 R105): "one transaction, whatever len(bs)". -/
def sendCommandOp (bs : List Byte) (s : State) : Run :=
  if bs.length = 0 then .refused .emptyCommand
  else (selectDc .low s).andThen (sendTx 0 bs)

/-- The loop of send_data (40 R106) over the chunks from offset `i` on. -/
def sendChunks (i : Nat) (cs : List (List Byte)) (s : State) : Run :=
  match cs with
  | [] => .done s
  | c :: rest => (sendTx i c s).andThen (sendChunks (i + c.length) rest)

/-- send_data (40 R106): an empty payload drives DC and sends nothing (90 C7). -/
def sendDataOp (bs : List Byte) (s : State) : Run := (selectDc .high s).andThen (sendChunks 0 (chunks bs))

/-- The data phase of a unit, "present iff the command has one or more parameter bytes" (30 R60, 40 R109). -/
def dataPhase (ps : List Byte) (s : State) : Run := if ps.length = 0 then .done s else sendDataOp ps s

/-- The settle delay of a unit, if it has one (30 R62). -/
def settle (d : Option Nat) (s : State) : Run :=
  match d with
  | none => .done s
  | some ms => .done (delay ms s)

/-- Emitting a unit (30 R62): the frame of 30 R60, then its delay. -/
def emitUnit (u : CmdUnit) (s : State) : Run :=
  ((sendCommandOp [opcodeOf s.params.opc u.cmd] s).andThen (dataPhase u.params)).andThen (settle u.delay)

/-- Inside initialize an IoError becomes `ProtocolError(step, cause)` (40 R101, 60 R164 (a)). -/
def Run.asProtocolError (k : Fin 20) (r : Run) : Run :=
  match r with
  | .failed (.ioError cause) s => .failed (.protocolError k cause) s
  | _ => r

/-- The loop of initialize (40 R101): `seq.step` holds the index of the unit being emitted. -/
def initFrom (k : Nat) (us : List CmdUnit) (s : State) : Run :=
  match us with
  | [] => .done { s with seqStep := .idle }
  | u :: rest =>
    ((emitUnit u { s with seqStep := .emitting (Fin.ofNat 20 k) }).asProtocolError (Fin.ofNat 20 k)).andThen
      (initFrom (k + 1) rest)

/-- initialize (40 R101): the twenty units of 40 R102 in order. -/
def initializeOp (s : State) : Run := initFrom 0 (initTable s.params s.cfg) s

/-- sleep (40 R107): the SLPIN frame. -/
def sleepOp (s : State) : Run := sendCommandOp [opcodeOf s.params.opc .slpin] s

/-- The other level. -/
def opposite (lvl : Level) : Level :=
  match lvl with
  | .low => .high
  | .high => .low

/-- set_backlight (40 R108): a silent no-op without the pin; the pin's answer is ignored. -/
def backlightOp (enabled : Bool) (s : State) : State :=
  if s.cfg.hasBl then
    (setPin .bl (if enabled then s.params.blOnLevel else opposite s.params.blOnLevel) s).2
  else s

/-- connect, after its checks (40 R100): the transport answered ok, and every register of 10 R31 is written. -/
def State.connected (g : Geometry) (rst bl : Bool) (s : State) : State :=
  { s with
    conn := .opened s.params.spiClockHz s.params.spiMode s.params.spiWordBits
    cfg := ⟨g.w, g.h, g.offL, g.offT, rst, bl, s.params.invert⟩
    dc := .unknown
    bl := .unknown
    rst := .unknown
    seqStep := .idle }

/-- connect (40 R100). -/
def connectOp (rst bl : Bool) (geom : Option Geometry) (s : State) : Run :=
  match s.conn with
  | .opened _ _ _ => .refused .alreadyConnected
  | .closed =>
    if geometryOk (geom.getD geomDefault) then
      match openTransport s.params.spiClockHz s.params.spiMode s.params.spiWordBits s with
      | (.connectionError, s1) => .failed .connectionError s1
      | (.ok, s1) => .done (s1.connected (geom.getD geomDefault) rst bl)
    else .refused .geometryInvalid

/-- connect (40 R100): only the presence of the optional pins is recorded (10 R21, assumption 18). -/
def execConnect (_sel : PinId) (rst bl : Option PinId) (geom : Option Geometry) (s : State) :
    Host.Outcome State Fault Refusal :=
  (connectOp rst.isSome bl.isSome geom s).finish

/-- initialize (40 R101). -/
def execInitialize (s : State) : Host.Outcome State Fault Refusal := (whenConnected initializeOp s).finish

/-- send_command (40 R105). -/
def execSendCommand (bs : List Byte) (s : State) : Host.Outcome State Fault Refusal :=
  (whenConnected (sendCommandOp bs) s).finish

/-- send_data (40 R106). -/
def execSendData (bs : List Byte) (s : State) : Host.Outcome State Fault Refusal :=
  (whenConnected (sendDataOp bs) s).finish

/-- sleep (40 R107). -/
def execSleep (s : State) : Host.Outcome State Fault Refusal := (whenConnected sleepOp s).finish

/-- set_backlight (40 R108). -/
def execSetBacklight (enabled : Bool) (s : State) : Host.Outcome State Fault Refusal :=
  (whenConnected (fun t => .done (backlightOp enabled t)) s).finish

end Sys2Proof.Machine
end

