-- ==== Sys2Proof/Machine/Catalogue.lean ====
section
/-! DEFINITION. The catalogue commands as instructions (spec/30_encoding.md R70 to R93): each emits its unit (30 R62),
the frame of 30 R60 with the bytes it was given and then the command's settle delay. A failure is the IoError of the
send that failed (assumption 23). -/

namespace Sys2Proof.Machine

/-- Emit one unit as an operation of its own (30 R62; assumption 7). -/
def execUnit (cmd : Command) (ps : List Byte) (s : State) : Host.Outcome State Fault Refusal :=
  (whenConnected (emitUnit ⟨cmd, ps, settleDelay cmd⟩) s).finish

/-- SWRESET (30 R70). -/
def execSwreset (s : State) : Host.Outcome State Fault Refusal := execUnit .swreset [] s

/-- SLPIN (30 R71). -/
def execSlpin (s : State) : Host.Outcome State Fault Refusal := execUnit .slpin [] s

/-- SLPOUT (30 R72). -/
def execSlpout (s : State) : Host.Outcome State Fault Refusal := execUnit .slpout [] s

/-- NORON (30 R73). -/
def execNoron (s : State) : Host.Outcome State Fault Refusal := execUnit .noron [] s

/-- INVOFF (30 R74). -/
def execInvoff (s : State) : Host.Outcome State Fault Refusal := execUnit .invoff [] s

/-- INVON (30 R75). -/
def execInvon (s : State) : Host.Outcome State Fault Refusal := execUnit .invon [] s

/-- DISPON (30 R76). -/
def execDispon (s : State) : Host.Outcome State Fault Refusal := execUnit .dispon [] s

/-- CASET (30 R77, R65). -/
def execCaset (x0 x1 : Byte) (s : State) : Host.Outcome State Fault Refusal := execUnit .caset [0, x0, 0, x1] s

/-- RASET (30 R78, R65). -/
def execRaset (y0 y1 : Byte) (s : State) : Host.Outcome State Fault Refusal := execUnit .raset [0, y0, 0, y1] s

/-- RAMWR (30 R79). -/
def execRamwr (s : State) : Host.Outcome State Fault Refusal := execUnit .ramwr [] s

/-- MADCTL (30 R80). -/
def execMadctl (v : Byte) (s : State) : Host.Outcome State Fault Refusal := execUnit .madctl [v] s

/-- COLMOD (30 R81). -/
def execColmod (v : Byte) (s : State) : Host.Outcome State Fault Refusal := execUnit .colmod [v] s

/-- FRMCTR1 (30 R82). -/
def execFrmctr1 (ps : Vector Byte 3) (s : State) : Host.Outcome State Fault Refusal := execUnit .frmctr1 ps.toList s

/-- FRMCTR2 (30 R83). -/
def execFrmctr2 (ps : Vector Byte 3) (s : State) : Host.Outcome State Fault Refusal := execUnit .frmctr2 ps.toList s

/-- FRMCTR3 (30 R84). -/
def execFrmctr3 (ps : Vector Byte 6) (s : State) : Host.Outcome State Fault Refusal := execUnit .frmctr3 ps.toList s

/-- INVCTR (30 R85). -/
def execInvctr (v : Byte) (s : State) : Host.Outcome State Fault Refusal := execUnit .invctr [v] s

/-- PWCTR1 (30 R86). -/
def execPwctr1 (ps : Vector Byte 3) (s : State) : Host.Outcome State Fault Refusal := execUnit .pwctr1 ps.toList s

/-- PWCTR2 (30 R87). -/
def execPwctr2 (ps : Vector Byte 2) (s : State) : Host.Outcome State Fault Refusal := execUnit .pwctr2 ps.toList s

/-- PWCTR3 (30 R88). -/
def execPwctr3 (ps : Vector Byte 2) (s : State) : Host.Outcome State Fault Refusal := execUnit .pwctr3 ps.toList s

/-- PWCTR4 (30 R89). -/
def execPwctr4 (ps : Vector Byte 2) (s : State) : Host.Outcome State Fault Refusal := execUnit .pwctr4 ps.toList s

/-- PWCTR5 (30 R90). -/
def execPwctr5 (ps : Vector Byte 2) (s : State) : Host.Outcome State Fault Refusal := execUnit .pwctr5 ps.toList s

/-- VMCTR1 (30 R91). -/
def execVmctr1 (v : Byte) (s : State) : Host.Outcome State Fault Refusal := execUnit .vmctr1 [v] s

/-- GMCTRP1 (30 R92). -/
def execGmctrp1 (ps : Vector Byte 16) (s : State) : Host.Outcome State Fault Refusal := execUnit .gmctrp1 ps.toList s

/-- GMCTRN1 (30 R93). -/
def execGmctrn1 (ps : Vector Byte 16) (s : State) : Host.Outcome State Fault Refusal := execUnit .gmctrn1 ps.toList s

end Sys2Proof.Machine
end

