-- ==== Sys2Proof/Machine/Color.lean ====
section
/-! DEFINITION. The colour packer as a host operation (spec/42_color.md R140). -/

namespace Sys2Proof.Machine

/-- rgb565 (42 R140): "reads no state, writes no state and appends no event"; its value is returned to the host. -/
def execRgb565 (r g b a : Byte) (s : State) : Host.Outcome State Fault Refusal :=
  .next (s.complete (.colour (packRgb565 r g b a)))

end Sys2Proof.Machine
end

