-- ==== Sys2Proof/Machine/Streaming.lean ====
section
/-! DEFINITION. Frame addressing and pixel streaming (spec/41_addressing_streaming.md R120 to R126): the meanings of
set_window, display_image, display, powersave and halt. -/

namespace Sys2Proof.Machine

/-- The three frames of set_window for native columns and rows (41 R120, after its check). -/
def windowFrames (a0 b0 a1 b1 : Int) (s : State) : Run :=
  ((((sendCommandOp [opcodeOf s.params.opc .caset] s).andThen
    (sendDataOp (addressParams a0 a1))).andThen
    (sendCommandOp [opcodeOf s.params.opc .raset])).andThen
    (sendDataOp (addressParams b0 b1))).andThen
    (sendCommandOp [opcodeOf s.params.opc .ramwr])

/-- set_window (41 R120): the offsets added to all four coordinates, an offset coordinate outside a byte refused. -/
def setWindowOp (x0 y0 x1 y1 : Int) (s : State) : Run :=
  if inByteRange (nativeCol s.cfg x0) && inByteRange (nativeCol s.cfg x1) && inByteRange (nativeRow s.cfg y0) &&
      inByteRange (nativeRow s.cfg y1) then
    windowFrames (nativeCol s.cfg x0) (nativeRow s.cfg y0) (nativeCol s.cfg x1) (nativeRow s.cfg y1) s
  else .refused .windowRange

/-- display_image (41 R121): nothing for an empty clip; else the clip's window, then its pixels in one send_data. -/
def displayImageOp (x y : Int) (img : Image) (s : State) : Run :=
  let k := clipOf s.cfg x y img
  if k.empty then .done s
  else (setWindowOp k.cx0 k.cy0 (k.cx1 - 1) (k.cy1 - 1) s).andThen (sendDataOp (pixelStream x y img k))

/-- display (41 R124): the full visible window, then the bytes verbatim. -/
def displayOp (raw : List Byte) (s : State) : Run :=
  (setWindowOp 0 0 (byteInt s.cfg.w - 1) (byteInt s.cfg.h - 1) s).andThen (sendDataOp raw)

/-- halt (41 R126): backlight first, its failure swallowed, then sleep. -/
def haltOp (s : State) : Run := sleepOp (backlightOp false s)

/-- set_window (41 R120). -/
def execSetWindow (x0 y0 x1 y1 : Int) (s : State) : Host.Outcome State Fault Refusal :=
  (whenConnected (setWindowOp x0 y0 x1 y1) s).finish

/-- display_image (41 R121). -/
def execDisplayImage (x y : Int) (img : Image) (s : State) : Host.Outcome State Fault Refusal :=
  (whenConnected (displayImageOp x y img) s).finish

/-- display (41 R124). -/
def execDisplay (raw : List Byte) (s : State) : Host.Outcome State Fault Refusal :=
  (whenConnected (displayOp raw) s).finish

/-- powersave (41 R125): sleep only. -/
def execPowersave (s : State) : Host.Outcome State Fault Refusal := (whenConnected sleepOp s).finish

/-- halt (41 R126). -/
def execHalt (s : State) : Host.Outcome State Fault Refusal := (whenConnected haltOp s).finish

end Sys2Proof.Machine
end

