-- ==== Sys2Proof/Machine/Dispatch.lean ====
section
/-! DEFINITION. Which meaning runs for which instruction: one arm for each row of spec/opcode_table.json. -/

namespace Sys2Proof.Machine

def exec (i : Instr) (s : State) : Host.Outcome State Fault Refusal :=
  match i with
  | .connect sel rst bl geom => Sys2Proof.Machine.execConnect sel rst bl geom s
  | .initializePanel => Sys2Proof.Machine.execInitialize s
  | .sendCommand bs => Sys2Proof.Machine.execSendCommand bs s
  | .sendData bs => Sys2Proof.Machine.execSendData bs s
  | .sleep => Sys2Proof.Machine.execSleep s
  | .setBacklight enabled => Sys2Proof.Machine.execSetBacklight enabled s
  | .setWindow x0 y0 x1 y1 => Sys2Proof.Machine.execSetWindow x0 y0 x1 y1 s
  | .displayImage x y img => Sys2Proof.Machine.execDisplayImage x y img s
  | .display raw => Sys2Proof.Machine.execDisplay raw s
  | .powersave => Sys2Proof.Machine.execPowersave s
  | .halt => Sys2Proof.Machine.execHalt s
  | .rgb565 r g b a => Sys2Proof.Machine.execRgb565 r g b a s
  | .swreset => Sys2Proof.Machine.execSwreset s
  | .slpin => Sys2Proof.Machine.execSlpin s
  | .slpout => Sys2Proof.Machine.execSlpout s
  | .noron => Sys2Proof.Machine.execNoron s
  | .invoff => Sys2Proof.Machine.execInvoff s
  | .invon => Sys2Proof.Machine.execInvon s
  | .dispon => Sys2Proof.Machine.execDispon s
  | .caset a0 a1 => Sys2Proof.Machine.execCaset a0 a1 s
  | .raset a0 a1 => Sys2Proof.Machine.execRaset a0 a1 s
  | .ramwr => Sys2Proof.Machine.execRamwr s
  | .madctl v => Sys2Proof.Machine.execMadctl v s
  | .colmod v => Sys2Proof.Machine.execColmod v s
  | .frmctr1 ps => Sys2Proof.Machine.execFrmctr1 ps s
  | .frmctr2 ps => Sys2Proof.Machine.execFrmctr2 ps s
  | .frmctr3 ps => Sys2Proof.Machine.execFrmctr3 ps s
  | .invctr v => Sys2Proof.Machine.execInvctr v s
  | .pwctr1 ps => Sys2Proof.Machine.execPwctr1 ps s
  | .pwctr2 ps => Sys2Proof.Machine.execPwctr2 ps s
  | .pwctr3 ps => Sys2Proof.Machine.execPwctr3 ps s
  | .pwctr4 ps => Sys2Proof.Machine.execPwctr4 ps s
  | .pwctr5 ps => Sys2Proof.Machine.execPwctr5 ps s
  | .vmctr1 v => Sys2Proof.Machine.execVmctr1 v s
  | .gmctrp1 ps => Sys2Proof.Machine.execGmctrp1 ps s
  | .gmctrn1 ps => Sys2Proof.Machine.execGmctrn1 ps s

end Sys2Proof.Machine
end

