-- ==== Sys2Proof/Machine/Step.lean ====
section
/-! DEFINITION. One step of the block: it serves the next call of the host port, or waits. -/

namespace Sys2Proof.Machine

/-- One step: "The block's sequencer executes one host operation at a time, to completion, in the order the host issues
them" (00 R19). With no call waiting the block waits (70 R180; assumption 9). -/
def step (s : State) : Host.Outcome State Fault Refusal :=
  match fetch s with
  | .nothing => .next s
  | .refused r => .refused r
  | .instr i t => exec i t

/-- The state with a table word's request put where step fetches its next instruction (assumption 2). -/
def State.withFetchWord (s : State) (nbits w : Nat) : State := s.placeRequest (tableRequest nbits w)

end Sys2Proof.Machine
end

