-- ==== Sys2Proof/Safety.lean ====
section
/-! DEFINITION. The terms in which claims about the block are made: what each operation emits, read off the rules as
plain lists of events (spec/30_encoding.md R60, spec/40_protocol.md, spec/41_addressing_streaming.md); a run in which every
answer is ok; a run that stops at the first failure (spec/00_scope.md R15, spec/60_exceptions.md R166); the block's
invariant; and what an observer counts on a trace (spec/70_reset_and_hazards.md R191, R192). -/

namespace Sys2Proof.Safety

open Sys2Proof.Machine

/-! What the operations emit. -/

/-- The command phase: `SetPin(DC, LOW)`, then one `Tx(LOW, bs)` (30 R60, 40 R105). -/
def commandEvents (bs : List Byte) : List Event := [.pin .dc .low, .tx .low bs]

/-- The data phase (30 R60, 40 R106): `SetPin(DC, HIGH)`, then `ceil(n / 4096)` transactions, the k-th from byte
`k*4096` on. -/
def dataEvents (bs : List Byte) : List Event :=
  .pin .dc .high ::
    (List.range ((bs.length + 4095) / 4096)).map (fun k => .tx .high ((bs.drop (k * 4096)).take 4096))

/-- The frame of one command (30 R60): no data phase without parameters (40 R109). -/
def frameEvents (opcode : Byte) (ps : List Byte) : List Event :=
  commandEvents [opcode] ++ (if ps = [] then [] else dataEvents ps)

/-- A unit: its frame, then its delay (30 R62). -/
def unitEvents (o : Opcodes) (u : CmdUnit) : List Event :=
  frameEvents (opcodeOf o u.cmd) u.params ++ u.delay.toList.map (fun ms => .delay ms)

/-- The three frames of set_window (41 R120) for native bytes. -/
def windowEvents (o : Opcodes) (a0 b0 a1 b1 : Byte) : List Event :=
  frameEvents o.caset [0, a0, 0, a1] ++ frameEvents o.raset [0, b0, 0, b1] ++ frameEvents o.ramwr []

/-- The bytes of a power-control step (40 R102, steps 6 to 10), by the command `PWR_CMDS` names there: the `INIT_BYTES` of
that command (30 R86 to R91, and R80 to R93 for a command of another kind). CASET and RASET have no `INIT_BYTES`; their rows
here are the model's choice (assumption 28). -/
def powerBytes (p : Params) (c : Cfg) (cmd : Command) : List Byte :=
  match cmd with
  | .pwctr1 => p.initBytes.pwctr1.toList
  | .pwctr2 => p.initBytes.pwctr2.toList
  | .pwctr3 => p.initBytes.pwctr3.toList
  | .pwctr4 => p.initBytes.pwctr4.toList
  | .pwctr5 => p.initBytes.pwctr5.toList
  | .vmctr1 => [p.initBytes.vmctr1]
  | .madctl => [p.initBytes.madctl]
  | .colmod => [p.initBytes.colmod]
  | .frmctr1 => p.initBytes.frmctr1.toList
  | .frmctr2 => p.initBytes.frmctr2.toList
  | .frmctr3 => p.initBytes.frmctr3.toList
  | .invctr => [p.initBytes.invctr]
  | .gmctrp1 => p.initBytes.gmctrp1.toList
  | .gmctrn1 => p.initBytes.gmctrn1.toList
  | .caset => [0, c.offL, 0, c.offL + c.w - 1]
  | .raset => [0, c.offT, 0, c.offT + c.h - 1]
  | .swreset => []
  | .slpin => []
  | .slpout => []
  | .noron => []
  | .invoff => []
  | .invon => []
  | .dispon => []
  | .ramwr => []

/-- The initialisation table written out row by row (40 R102), with step 11 of 40 R104 and steps 14 and 15 of 40 R103. Under
an illegal geometry, which no run reaches, the end bytes of steps 14 and 15 wrap (assumption 25). -/
def initUnits (p : Params) (c : Cfg) : List CmdUnit :=
  [⟨.swreset, [], some 150⟩,
   ⟨.slpout, [], some 500⟩,
   ⟨.frmctr1, p.initBytes.frmctr1.toList, none⟩,
   ⟨.frmctr2, p.initBytes.frmctr2.toList, none⟩,
   ⟨.frmctr3, p.initBytes.frmctr3.toList, none⟩,
   ⟨.invctr, [p.initBytes.invctr], none⟩,
   ⟨p.pwrCmds[0], powerBytes p c p.pwrCmds[0], none⟩,
   ⟨p.pwrCmds[1], powerBytes p c p.pwrCmds[1], none⟩,
   ⟨p.pwrCmds[2], powerBytes p c p.pwrCmds[2], none⟩,
   ⟨p.pwrCmds[3], powerBytes p c p.pwrCmds[3], none⟩,
   ⟨p.pwrCmds[4], powerBytes p c p.pwrCmds[4], none⟩] ++
  [⟨if c.invert then .invon else .invoff, [], none⟩,
   ⟨.madctl, [p.initBytes.madctl], none⟩,
   ⟨.colmod, [p.initBytes.colmod], none⟩,
   ⟨.caset, [0, c.offL, 0, c.offL + c.w - 1], none⟩,
   ⟨.raset, [0, c.offT, 0, c.offT + c.h - 1], none⟩,
   ⟨.gmctrp1, p.initBytes.gmctrp1.toList, none⟩,
   ⟨.gmctrn1, p.initBytes.gmctrn1.toList, none⟩,
   ⟨.noron, [], some 100⟩,
   ⟨.dispon, [], some 100⟩]

/-- The units of initialize in order (40 R101). -/
def initEvents (p : Params) (c : Cfg) : List Event := (initUnits p c).flatMap (unitEvents p.opc)

/-- The pixel bytes of a clip of `cw` columns and `ch` rows whose first pixel is visible `(cx0, cy0)`, in the order of
41 R121: outer loop over x, inner loop over y. -/
def imageBytes (x y : Int) (img : Image) (cx0 cy0 : Int) (cw ch : Nat) : List Byte :=
  (List.range cw).flatMap (fun (i : Nat) => (List.range ch).flatMap (fun (j : Nat) =>
    pixelBytes (imgAt img (cx0 + (i : Int) - x) (cy0 + (j : Int) - y))))

/-- The result kinds of an operation (60 R162): ok for every one, but a colour for rgb565, and the errors of the table. -/
def mayReturn (i : Instr) (r : Result) : Bool :=
  match i, r with
  | .rgb565 _ _ _ _, .colour _ => true
  | .rgb565 _ _ _ _, _ => false
  | _, .ok => true
  | .connect _ _ _ _, .error .connectionError => true
  | .connect _ _ _ _, _ => false
  | .initializePanel, .error (.protocolError _ _) => true
  | .initializePanel, _ => false
  | .setBacklight _, _ => false
  | _, .error (.ioError _) => true
  | _, _ => false

/-! A run in which every answer is ok. -/

/-- How many writes of a pin a list of events holds. -/
def pinCount (p : Pin) (es : List Event) : Nat :=
  es.countP (fun e => match e with
    | .pin q _ => q == p
    | _ => false)

/-- How many transactions a list of events holds. -/
def txCount (es : List Event) : Nat :=
  es.countP (fun e => match e with
    | .tx _ _ => true
    | _ => false)

/-- The next answers of the ports, as many as these events draw, are all ok (00 R14). -/
abbrev Grants (s : State) (es : List Event) : Prop :=
  s.oracle.dc.take (pinCount .dc es) = List.replicate (pinCount .dc es) .ok ∧
    s.oracle.bl.take (pinCount .bl es) = List.replicate (pinCount .bl es) .ok ∧
    s.oracle.tx.take (txCount es) = List.replicate (txCount es) .ok

/-- The level of a pin's line after events answered ok. -/
def lineAfter (p : Pin) (es : List Event) (l : LineLevel) : LineLevel :=
  es.foldl (fun acc e => match e with
    | .pin q lvl => if q = p then lineOf lvl else acc
    | _ => acc) l

/-- The state after events that were all answered ok: the lines at their last levels, the answers drawn, the trace
longer by them; every other field as it was. -/
def played (es : List Event) (s : State) : State :=
  { s with
    dc := lineAfter .dc es s.dc
    bl := lineAfter .bl es s.bl
    oracle := { s.oracle with
      dc := s.oracle.dc.drop (pinCount .dc es)
      bl := s.oracle.bl.drop (pinCount .bl es)
      tx := s.oracle.tx.drop (txCount es) }
    trace := s.trace ++ es.map (fun e => ⟨e, .ok⟩) }

/-- The next answers are ok for these events, and the one after them fails: an IoError for a DC write or a
transaction (00 R14). -/
def FailsAt (s : State) (es : List Event) (e : Event) : Prop :=
  Grants s es ∧
    match e with
    | .pin .dc _ => s.oracle.dc[pinCount .dc es]? = some .ioError
    | .tx _ _ => s.oracle.tx[txCount es]? = some .ioError
    | _ => False

/-- The state in which an operation stops when these events were answered ok and the next one fails: DC is UNKNOWN
after a failed write of it (60 R167), and the failing event is the last of the trace (60 R166). -/
def stoppedAt (es : List Event) (e : Event) (s : State) : State :=
  match e with
  | .pin .dc _ =>
    { played es s with
      dc := .unknown
      oracle := { (played es s).oracle with dc := (played es s).oracle.dc.tail }
      trace := (played es s).trace ++ [⟨e, .ioError⟩] }
  | _ =>
    { played es s with
      oracle := { (played es s).oracle with tx := (played es s).oracle.tx.tail }
      trace := (played es s).trace ++ [⟨e, .ioError⟩] }

/-- The cause an IoError records for a failing event (60 R161), for a transaction from this offset on. -/
def causeAt (e : Event) (offset : Nat) : IoCause :=
  match e with
  | .pin _ _ => .dcPin
  | _ => .tx offset

/-- The events of the entries of a trace. -/
def eventsIn (xs : List Entry) : List Event := xs.map (fun x => x.event)

/-- The level of the DC line after these entries: the level last written successfully, or UNKNOWN after a failed write
(60 R167, 00 R14). -/
def dcAfter (xs : List Entry) (l : LineLevel) : LineLevel :=
  xs.foldl (fun acc x => match x.event with
    | .pin .dc lvl => if x.answer = .ok then lineOf lvl else .unknown
    | _ => acc) l

/-- How many bytes were sent since DC was last written: the place of the next transaction in its send's byte sequence
(60 R161). -/
def sentSinceSelect (es : List Event) : Nat :=
  es.foldl (fun n e => match e with
    | .pin .dc _ => 0
    | .tx _ bs => n + bs.length
    | _ => n) 0

/-- The cause an IoError records for an event that fails after these (60 R161). -/
def failureCause (es : List Event) (e : Event) : IoCause :=
  match e with
  | .tx _ _ => .tx (sentSinceSelect es)
  | _ => .dcPin

/-- How many units an initialize has begun: each begins with the only write of DC LOW it makes (30 R60). -/
def unitsBegun (es : List Event) : Nat := es.countP (fun e => e == .pin .dc .low)

/-- The block is connected (10 R26). -/
abbrev Connected (s : State) : Prop := s.conn ≠ .closed

/-! A run that stops at the first failure: the operations as flat scripts. -/

/-- An event of a script: the unit of initialize it belongs to, and the error the operation returns if the port fails
it; an event without one is never reported (a backlight write, a delay). -/
structure Emission where
  step  : Option (Fin 20)
  event : Event
  error : Option BlockError
  deriving DecidableEq, Repr

/-- The error an operation returns for a port's failure: in initialize a ProtocolError, else the IoError (60 R164 (a)). -/
def reported (step : Option (Fin 20)) (cause : IoCause) : BlockError :=
  match step with
  | none => .ioError cause
  | some k => .protocolError k cause

/-- The script of send_command (40 R105). -/
def commandScript (step : Option (Fin 20)) (bs : List Byte) : List Emission :=
  [⟨step, .pin .dc .low, some (reported step .dcPin)⟩, ⟨step, .tx .low bs, some (reported step (.tx 0))⟩]

/-- The script of send_data (40 R106): the k-th transaction carries the bytes from `k*4096` on and fails at that
offset. -/
def dataScript (step : Option (Fin 20)) (bs : List Byte) : List Emission :=
  ⟨step, .pin .dc .high, some (reported step .dcPin)⟩ ::
    (List.range ((bs.length + 4095) / 4096)).map (fun k =>
      ⟨step, .tx .high ((bs.drop (k * 4096)).take 4096), some (reported step (.tx (k * 4096)))⟩)

/-- The script of a unit (30 R62). -/
def unitScript (step : Option (Fin 20)) (o : Opcodes) (u : CmdUnit) : List Emission :=
  commandScript step [opcodeOf o u.cmd] ++ (if u.params = [] then [] else dataScript step u.params) ++
    u.delay.toList.map (fun ms => ⟨step, .delay ms, none⟩)

/-- The script of initialize (40 R101). -/
def initScript (p : Params) (c : Cfg) : List Emission :=
  ((initUnits p c).mapIdx (fun k u => unitScript (some (Fin.ofNat 20 k)) p.opc u)).flatten

/-- The script of set_window, where it is not refused (41 R120). -/
def windowScript (p : Params) (c : Cfg) (x0 y0 x1 y1 : Int) : Option (List Emission) :=
  if inByteRange (nativeCol c x0) ∧ inByteRange (nativeCol c x1) ∧ inByteRange (nativeRow c y0) ∧
      inByteRange (nativeRow c y1) then
    some (unitScript none p.opc ⟨.caset, addressParams (nativeCol c x0) (nativeCol c x1), none⟩ ++
      unitScript none p.opc ⟨.raset, addressParams (nativeRow c y0) (nativeRow c y1), none⟩ ++
      unitScript none p.opc ⟨.ramwr, [], none⟩)
  else none

/-- The script of set_backlight (40 R108). -/
def backlightScript (p : Params) (c : Cfg) (enabled : Bool) : List Emission :=
  if c.hasBl then [⟨none, .pin .bl (if enabled then p.blOnLevel else opposite p.blOnLevel), none⟩] else []

/-- A unit on its own (30 R62). -/
def aloneScript (p : Params) (cmd : Command) (ps : List Byte) : Option (List Emission) :=
  some (unitScript none p.opc ⟨cmd, ps, settleDelay cmd⟩)

/-- The script of an instruction on a connected block; none for connect, for rgb565 (which emits nothing and returns a
value) and for a call that is refused. -/
def scriptOf (p : Params) (c : Cfg) (i : Instr) : Option (List Emission) :=
  match i with
  | .connect _ _ _ _ => none
  | .initializePanel => some (initScript p c)
  | .sendCommand bs => if bs = [] then none else some (commandScript none bs)
  | .sendData bs => some (dataScript none bs)
  | .sleep => some (commandScript none [p.opc.slpin])
  | .setBacklight v => some (backlightScript p c v)
  | .setWindow x0 y0 x1 y1 => windowScript p c x0 y0 x1 y1
  | .displayImage x y img =>
    let k := clipOf c x y img
    if k.empty then some []
    else (windowScript p c k.cx0 k.cy0 (k.cx1 - 1) (k.cy1 - 1)).map (fun w => w ++ dataScript none (imageBytes x y img k.cx0 k.cy0 k.cw k.ch))
  | .display raw =>
    (windowScript p c 0 0 (byteInt c.w - 1) (byteInt c.h - 1)).map (fun w => w ++ dataScript none raw)
  | .powersave => some (commandScript none [p.opc.slpin])
  | .halt => some (backlightScript p c false ++ commandScript none [p.opc.slpin])
  | .rgb565 _ _ _ _ => none
  | .swreset => aloneScript p .swreset []
  | .slpin => aloneScript p .slpin []
  | .slpout => aloneScript p .slpout []
  | .noron => aloneScript p .noron []
  | .invoff => aloneScript p .invoff []
  | .invon => aloneScript p .invon []
  | .dispon => aloneScript p .dispon []
  | .caset a0 a1 => aloneScript p .caset [0, a0, 0, a1]
  | .raset a0 a1 => aloneScript p .raset [0, a0, 0, a1]
  | .ramwr => aloneScript p .ramwr []
  | .madctl v => aloneScript p .madctl [v]
  | .colmod v => aloneScript p .colmod [v]
  | .frmctr1 ps => aloneScript p .frmctr1 ps.toList
  | .frmctr2 ps => aloneScript p .frmctr2 ps.toList
  | .frmctr3 ps => aloneScript p .frmctr3 ps.toList
  | .invctr v => aloneScript p .invctr [v]
  | .pwctr1 ps => aloneScript p .pwctr1 ps.toList
  | .pwctr2 ps => aloneScript p .pwctr2 ps.toList
  | .pwctr3 ps => aloneScript p .pwctr3 ps.toList
  | .pwctr4 ps => aloneScript p .pwctr4 ps.toList
  | .pwctr5 ps => aloneScript p .pwctr5 ps.toList
  | .vmctr1 v => aloneScript p .vmctr1 [v]
  | .gmctrp1 ps => aloneScript p .gmctrp1 ps.toList
  | .gmctrn1 ps => aloneScript p .gmctrn1 ps.toList

/-- The position of the sequencer while an event of a script is emitted (10 R22). -/
def stepOf (step : Option (Fin 20)) (s : State) : State :=
  match step with
  | none => s
  | some k => { s with seqStep := .emitting k }

/-- Follow a script: each event drawn, answered and logged with the tag the script gives it; the first reported failure
ends it (60 R166), a transaction that never answers sticks (60 R173). -/
def follow (es : List Emission) (s : State) : Run :=
  match es with
  | [] => .done { s with seqStep := .idle }
  | e :: rest =>
    match e.event with
    | .pin p lvl =>
      match setPin p lvl (stepOf e.step s) with
      | (.ok, t) => follow rest t
      | (.ioError, t) =>
        match e.error with
        | none => follow rest t
        | some err => .failed err t
    | .tx tag bs =>
      let s1 := stepOf e.step s
      let a := s1.oracle.nextTx
      let t := ({ s1 with oracle := s1.oracle.takeTx }).log (.tx tag bs) (answerOfTx a)
      match a with
      | .ok => follow rest t
      | .never => .stalled t
      | .ioError =>
        match e.error with
        | none => follow rest t
        | some err => .failed err t
    | .delay ms => follow rest ((stepOf e.step s).log (.delay ms) .ok)
    | .openPort clk mode bits => follow rest ((stepOf e.step s).log (.openPort clk mode bits) .ok)

/-! The invariant of the block. -/

/-- A transaction is tagged LOW or HIGH, never UNKNOWN, and carries at least one byte (10 R23); a data transaction
carries at most CHUNK bytes (20 R46). -/
def framed (e : Event) : Bool :=
  match e with
  | .tx .low bs => decide (1 ≤ bs.length)
  | .tx .high bs => decide (1 ≤ bs.length ∧ bs.length ≤ 4096)
  | .tx .unknown _ => false
  | _ => true

/-- What holds of the block between operations: a connected block's geometry is legal (10 R21); the sequencer is IDLE
(10 R22); RST is UNKNOWN (10 R25); a backlight line that does not exist is not driven (10 R24); every transaction issued
so far is framed (10 R23, 20 R46) and was answered (20 R51). -/
structure Inv (s : State) : Prop where
  geometry : Connected s → geometryOk ⟨s.cfg.w, s.cfg.h, s.cfg.offL, s.cfg.offT⟩ = true
  idle     : s.seqStep = .idle
  rst      : s.rst = .unknown
  noBl     : Connected s → s.cfg.hasBl = false → s.bl = .unknown
  framed   : ∀ e ∈ s.trace, Safety.framed e.event = true
  answered : ∀ e ∈ s.trace, e.answer ≠ .never

/-! What an observer counts on a trace. -/

/-- The delays of a trace, in milliseconds, in order (70 R185). -/
def delaysOf (es : List Event) : List Nat :=
  es.filterMap (fun e => match e with
    | .delay ms => some ms
    | _ => none)

/-- The bytes the controller reads as command bytes: those of every `Tx` whose DC is LOW (00 R16). -/
def commandBytes (es : List Event) : List Byte :=
  es.flatMap (fun e => match e with
    | .tx .low bs => bs
    | _ => [])

/-- The bytes the controller reads as parameter or pixel bytes: those of every `Tx` whose DC is HIGH (00 R16). -/
def dataBytes (es : List Event) : List Byte :=
  es.flatMap (fun e => match e with
    | .tx .high bs => bs
    | _ => [])

/-- The least time a trace's bytes occupy the bus, in nanoseconds (70 R192), for an SPI clock above 0. -/
def busNanoseconds (clk bits : Nat) (es : List Event) : Nat :=
  (commandBytes es ++ dataBytes es).length * bits * 1000000000 / clk

/-- The least time a trace's delays take, in milliseconds (70 R192). -/
def delayMilliseconds (es : List Event) : Nat := (delaysOf es).sum

end Sys2Proof.Safety
end

