-- ==== Sys2Proof/Certificates/Slice0/Obligations.lean ====
section
/-! DEFINITION. The statements for the provers. Each docstring names the rules of spec/ it formalises; the terms are those
of Safety.lean. What a port answers past its scripted answers is free (assumption 3): a statement that needs an answer names
it in a hypothesis, and the others hold for all answers. -/

open Sys2Proof Sys2Proof.Machine Sys2Proof.Safety

/-! Encoding. -/

/-- 30 R60, R61, R64, R65 in the model's form of a request (assumptions 6, 7): no operand and no parameter byte is
dropped. Wherever `OPC` names each command by a byte of its own, decoding the request of a well-formed instruction gives
that instruction back. -/
def Obligations.DecodeOfEncodeIsTheInstruction : Prop :=
  ∀ (o : Opcodes) (i : Instr), o.distinct → i.wellFormed = true → decode o (encode o i) = .ok i

/-- The other direction (assumptions 6, 7): a request the decoder accepts is the request of the instruction it answers,
which is well-formed; so two requests never read as one instruction, whatever `OPC` is. -/
def Obligations.DecodeAcceptsOnlyEncodings : Prop :=
  ∀ (o : Opcodes) (r : Request) (i : Instr), decode o r = .ok i → encode o i = r ∧ i.wellFormed = true

/-- 30 R67 (b): "operation codes 0x00 and 0x0D to 0xFF are unassigned and refused UNKNOWN_OP", whatever the operands. -/
def Obligations.UnassignedHostCodesAreRefused : Prop :=
  ∀ (s : State) (code : Byte) (args : List Arg) (rest : List Request),
    (code.toNat = 0 ∨ 0x0D ≤ code.toNat) → s.port = .call ⟨code, args⟩ :: rest →
      step s = .refused (.unknownOp code)

/-- A few requests written out from the codes, opcodes and operands of 30 R61, R64 and R65 read as what they stand for. The
opcode values are PRESUMED (assumption 11); the form of a call is the model's (assumption 6), and so are the unit requests
and their refusal badParameters (assumption 7). -/
def Obligations.StatedWordsDecode : Prop :=
  decode opcodesDefault (.call ⟨0x07#8, [.int (-26), .int (-1), .int 0, .int 300]⟩) = .ok (.setWindow (-26) (-1) 0 300) ∧
    decode opcodesDefault (.call ⟨0x0C#8, [.byte 255, .byte 0, .byte 1, .byte 2]⟩) = .ok (.rgb565 255 0 1 2) ∧
    decode opcodesDefault (.unit 0x2A#8 [0x00, 0x1A, 0x00, 0x69]) = .ok (.caset 0x1A 0x69) ∧
    decode opcodesDefault (.unit 0x2A#8 [0x01, 0x1A, 0x00, 0x69]) = .error (.badParameters 0x2A) ∧
    decode opcodesDefault (.unit 0x10#8 []) = .ok .slpin ∧
    decode opcodesDefault (.call ⟨0x10#8, []⟩) = .error (.unknownOp 0x10)

/-- 30 R64: the default catalogue names its 24 commands by 24 different bytes (PRESUMED values, assumption 11). -/
def Obligations.DefaultOpcodesAreDistinct : Prop := opcodesDefault.distinct ∧ allCommands.length = 24

/-! Step. -/

/-- 00 R19: step serves the oldest waiting call: where its request reads as an instruction, step is exec of that
instruction on the state whose port holds the calls after it. -/
def Obligations.StepRunsTheDecodedInstruction : Prop :=
  ∀ (s : State) (req : Request) (rest : List Request) (i : Instr),
    s.port = req :: rest → decode s.params.opc req = .ok i → step s = exec i { s with port := rest }

/-- With no call waiting the block waits (70 R180; DESIGN CHOICE, assumption 9), and a request that is no instruction is
refused under the decoder's own name for it. -/
def Obligations.StepWaitsOrRefusesWithoutAnInstruction : Prop :=
  (∀ s : State, s.port = [] → step s = .next s) ∧
    ∀ (s : State) (req : Request) (rest : List Request) (e : DecodeError),
      s.port = req :: rest → decode s.params.opc req = .error e → step s = .refused (refusalOf e)

/-! Reset and connect. -/

/-- 10 R31, with the default geometry of 10 R21: what reset leaves. Which pins reset's connect was given is the model's
choice (assumption 1) and is not stated. -/
def Obligations.ResetLeavesTheStatedValues : Prop :=
  State.reset.conn = .opened 4000000 0 8 ∧ State.reset.cfg.w = 80 ∧ State.reset.cfg.h = 160 ∧
    State.reset.cfg.offL = 26 ∧ State.reset.cfg.offT = 1 ∧ State.reset.cfg.invert = false ∧
    State.reset.dc = .unknown ∧ State.reset.bl = .unknown ∧ State.reset.rst = .unknown ∧
    State.reset.seqStep = .idle ∧ State.beforeConnect.conn = .closed

/-- 70 R180: reset is connect. From the state before connect, connect with a backlight pin and no geometry, the
transport answering ok, leaves exactly State.reset (its pins and empty port are assumptions 1 to 3). -/
def Obligations.ConnectLeavesTheResetState : Prop :=
  ∀ (sel bl : PinId),
    exec (.connect sel none (some bl) none)
      { State.beforeConnect with oracle := { State.beforeConnect.oracle with opens := [.ok] } } = .next State.reset

/-- 40 R100: connect from CLOSED with a well-formed geometry (00 R9), the transport answering ok, writes every register
of 10 R31, appends the one `Open` event and returns ok; nothing else changes. -/
def Obligations.ConnectWritesEveryRegister : Prop :=
  ∀ (s : State) (sel : PinId) (rst bl : Option PinId) (geom : Option Geometry) (g : Geometry) (os : List OpenAnswer),
    s.conn = .closed → g = geom.getD ⟨80, 160, 26, 1⟩ → 1 ≤ g.w.toNat → 1 ≤ g.h.toNat →
    g.offL.toNat + g.w.toNat ≤ 132 → g.offT.toNat + g.h.toNat ≤ 162 → s.oracle.opens = .ok :: os →
      exec (.connect sel rst bl geom) s = .next
        { s with
          conn := .opened s.params.spiClockHz s.params.spiMode s.params.spiWordBits
          cfg := ⟨g.w, g.h, g.offL, g.offT, rst.isSome, bl.isSome, s.params.invert⟩
          dc := .unknown
          bl := .unknown
          rst := .unknown
          seqStep := .idle
          oracle := { s.oracle with opens := os }
          trace := s.trace ++
            [⟨.openPort s.params.spiClockHz s.params.spiMode s.params.spiWordBits, .ok⟩]
          results := s.results ++ [.ok] }

/-- 40 R100, 60 R165: where connect does not connect. Already connected: refused. A geometry that breaks 00 R9: refused.
The transport answers ConnectionError, with a geometry or without one: the error is returned and `conn` stays CLOSED. -/
def Obligations.ConnectFailsOrIsRefused : Prop :=
  (∀ (s : State) (sel : PinId) (rst bl : Option PinId) (geom : Option Geometry),
    Connected s → exec (.connect sel rst bl geom) s = .refused .alreadyConnected) ∧
  (∀ (s : State) (sel : PinId) (rst bl : Option PinId) (geom : Option Geometry) (g : Geometry),
    s.conn = .closed → g = geom.getD ⟨80, 160, 26, 1⟩ →
    ¬(1 ≤ g.w.toNat ∧ 1 ≤ g.h.toNat ∧ g.offL.toNat + g.w.toNat ≤ 132 ∧ g.offT.toNat + g.h.toNat ≤ 162) →
      exec (.connect sel rst bl geom) s = .refused .geometryInvalid) ∧
  (∀ (s : State) (sel : PinId) (rst bl : Option PinId) (geom : Option Geometry) (g : Geometry) (os : List OpenAnswer),
    s.conn = .closed → g = geom.getD ⟨80, 160, 26, 1⟩ → 1 ≤ g.w.toNat → 1 ≤ g.h.toNat → g.offL.toNat + g.w.toNat ≤ 132 →
    g.offT.toNat + g.h.toNat ≤ 162 → s.oracle.opens = .connectionError :: os →
      exec (.connect sel rst bl geom) s = .next
        { s with
          seqStep := .idle
          oracle := { s.oracle with opens := os }
          trace := s.trace ++
            [⟨.openPort s.params.spiClockHz s.params.spiMode s.params.spiWordBits, .connectionError⟩]
          results := s.results ++ [.error .connectionError] })

/-- 10 R26, 60 R165: every operation but connect and rgb565 is refused NOT_CONNECTED while `conn` is CLOSED. For the
catalogue commands as operations of their own this is the model's (assumption 7). -/
def Obligations.UnconnectedOperationsAreRefused : Prop :=
  ∀ (i : Instr) (s : State), s.conn = .closed →
    (∀ sel rst bl geom, i ≠ .connect sel rst bl geom) → (∀ r g b a, i ≠ .rgb565 r g b a) →
      exec i s = .refused .notConnected

/-! initialize. -/

/-- 40 R102, R103, R104: the initialisation table is the one the spec lists, row by row, for every geometry, inversion
setting and parameters; the bytes of a power-control step are the `INIT_BYTES` of the command `PWR_CMDS` names there. The
model's own in it: the rows for CASET and RASET as power-control commands (assumption 28), and the bytes of steps 14 and 15
under an illegal geometry (assumption 25). -/
def Obligations.InitTableIsTheListedTable : Prop := ∀ (p : Params) (c : Cfg), initTable p c = initUnits p c

/-- 40 R101: on a connected block whose ports answer ok, initialize emits the frames and delays of the twenty units in
order, leaves `seq.step` IDLE and returns ok. -/
def Obligations.InitializeEmitsTheWholeTable : Prop :=
  ∀ s : State, Connected s → Grants s (initEvents s.params s.cfg) →
    exec .initializePanel s = .next
      { played (initEvents s.params s.cfg) s with
        dc := .low
        seqStep := .idle
        results := s.results ++ [.ok] }

/-- 40 R101, 60 R163, R166: initialize stops at its first failure. If event `j` of unit `k`'s frame is answered IoError
and every event before it ok, the trace ends with it, the unit's delay and the later units are not emitted, `seq.step`
is IDLE and the result is ProtocolError with that step and cause. -/
def Obligations.InitializeStopsAtItsFirstFailure : Prop :=
  ∀ (s : State) (k : Fin 20) (u : CmdUnit) (before : List Event) (j : Nat) (e : Event),
    Connected s → (initUnits s.params s.cfg)[k.val]? = some u →
    before = ((initUnits s.params s.cfg).take k.val).flatMap (unitEvents s.params.opc) ++
      (unitEvents s.params.opc u).take j →
    (unitEvents s.params.opc u)[j]? = some e → FailsAt s before e →
      exec .initializePanel s = .next
        { stoppedAt before e s with
          seqStep := .idle
          results := s.results ++ [.error (.protocolError k (causeAt e 0))] }

/-- 70 R185, R192, 40 R102: whatever the answers, an initialize that returns ok has appended to the trace exactly the delays
150, 500, 100 and 100 ms, 850 ms in all, each right after the command frame of its own unit; one that returns an error has
appended a beginning of that list. -/
def Obligations.InitializeKeepsTheFourSettleDelays : Prop :=
  ∀ s t : State, exec .initializePanel s = .next t →
    ∃ xs : List Entry, t.trace = s.trace ++ xs ∧ delaysOf (eventsIn xs) <+: [150, 500, 100, 100] ∧
      (t.results = s.results ++ [.ok] →
        delaysOf (eventsIn xs) = [150, 500, 100, 100] ∧ delayMilliseconds (eventsIn xs) = 850 ∧
          ∃ middle : List Event, eventsIn xs =
            [.pin .dc .low, .tx .low [s.params.opc.swreset], .delay 150, .pin .dc .low, .tx .low [s.params.opc.slpout],
              .delay 500] ++ middle ++
            [.pin .dc .low, .tx .low [s.params.opc.noron], .delay 100, .pin .dc .low, .tx .low [s.params.opc.dispon],
              .delay 100])

/-! The send primitives. -/

/-- 40 R105: send_command on a connected block. Empty: refused. Else DC is driven LOW and one transaction carries the
bytes, whatever their number; the first failure is returned as IoError with its cause. -/
def Obligations.SendCommandDrivesLowThenSendsOnce : Prop :=
  (∀ s : State, Connected s → exec (.sendCommand []) s = .refused .emptyCommand) ∧
  (∀ (s : State) (bs : List Byte) (ds : List PinAnswer) (xs : List TxAnswer),
    Connected s → bs ≠ [] → s.oracle.dc = .ok :: ds → s.oracle.tx = .ok :: xs →
      exec (.sendCommand bs) s = .next
        { s with
          dc := .low
          oracle := { s.oracle with dc := ds, tx := xs }
          trace := s.trace ++ [⟨.pin .dc .low, .ok⟩, ⟨.tx .low bs, .ok⟩]
          results := s.results ++ [.ok] }) ∧
  (∀ (s : State) (bs : List Byte) (ds : List PinAnswer),
    Connected s → bs ≠ [] → s.oracle.dc = .ioError :: ds →
      exec (.sendCommand bs) s = .next
        { s with
          dc := .unknown
          seqStep := .idle
          oracle := { s.oracle with dc := ds }
          trace := s.trace ++ [⟨.pin .dc .low, .ioError⟩]
          results := s.results ++ [.error (.ioError .dcPin)] }) ∧
  (∀ (s : State) (bs : List Byte) (ds : List PinAnswer) (xs : List TxAnswer),
    Connected s → bs ≠ [] → s.oracle.dc = .ok :: ds → s.oracle.tx = .ioError :: xs →
      exec (.sendCommand bs) s = .next
        { s with
          dc := .low
          seqStep := .idle
          oracle := { s.oracle with dc := ds, tx := xs }
          trace := s.trace ++ [⟨.pin .dc .low, .ok⟩, ⟨.tx .low bs, .ioError⟩]
          results := s.results ++ [.error (.ioError (.tx 0))] })

/-- 40 R106: send_data completes. DC is driven HIGH, then `ceil(n / 4096)` transactions carry the payload; none for an
empty one. -/
def Obligations.SendDataStreamsTheChunks : Prop :=
  ∀ (s : State) (bs : List Byte), Connected s → Grants s (dataEvents bs) →
    exec (.sendData bs) s = .next
      { s with
        dc := .high
        oracle := { s.oracle with
          dc := s.oracle.dc.drop 1
          tx := s.oracle.tx.drop ((bs.length + 4095) / 4096) }
        trace := s.trace ++ ⟨.pin .dc .high, .ok⟩ ::
          (List.range ((bs.length + 4095) / 4096)).map (fun k => ⟨.tx .high ((bs.drop (k * 4096)).take 4096), .ok⟩)
        results := s.results ++ [.ok] }

/-- 40 R106: send_data aborts at its first failure, "aborting remaining chunks": a failed DC write sends nothing; if
chunk `k` fails, the chunks before it stay sent, no later one is, and the error records the offset `4096*k`. -/
def Obligations.SendDataAbortsAtTheFailingChunk : Prop :=
  (∀ (s : State) (bs : List Byte) (ds : List PinAnswer),
    Connected s → s.oracle.dc = .ioError :: ds →
      exec (.sendData bs) s = .next
        { s with
          dc := .unknown
          seqStep := .idle
          oracle := { s.oracle with dc := ds }
          trace := s.trace ++ [⟨.pin .dc .high, .ioError⟩]
          results := s.results ++ [.error (.ioError .dcPin)] }) ∧
  (∀ (s : State) (bs : List Byte) (k : Nat) (ds : List PinAnswer) (xs : List TxAnswer),
    Connected s → k < (bs.length + 4095) / 4096 → s.oracle.dc = .ok :: ds →
    s.oracle.tx = List.replicate k .ok ++ .ioError :: xs →
      exec (.sendData bs) s = .next
        { s with
          dc := .high
          seqStep := .idle
          oracle := { s.oracle with dc := ds, tx := xs }
          trace := s.trace ++ ⟨.pin .dc .high, .ok⟩ ::
            (List.range k).map (fun j => ⟨.tx .high ((bs.drop (j * 4096)).take 4096), .ok⟩) ++
              [⟨.tx .high ((bs.drop (k * 4096)).take 4096), .ioError⟩]
          results := s.results ++ [.error (.ioError (.tx (k * 4096)))] })

/-- 20 R46: the chunks of a payload are the payload in order, `ceil(n / 4096)` of them, "All but the last carry CHUNK
bytes. The last carries the rest", and none is empty. -/
def Obligations.ChunksPartitionThePayload : Prop :=
  ∀ bs : List Byte,
    (chunks bs).flatten = bs ∧ (chunks bs).length = (bs.length + 4095) / 4096 ∧
      ∀ (k : Nat) (c : List Byte), (chunks bs)[k]? = some c →
        1 ≤ c.length ∧ c.length = if (k + 1) * 4096 ≤ bs.length then 4096 else bs.length - k * 4096

/-- 60 R173: a transaction that never answers leaves the block stuck, with the unanswered event the last of its trace
and no result returned; and nothing else makes an operation fault. -/
def Obligations.FaultsAreUnansweredTransactions : Prop :=
  (∀ (s : State) (bs : List Byte) (ds : List PinAnswer) (xs : List TxAnswer),
    Connected s → bs ≠ [] → s.oracle.dc = .ok :: ds → s.oracle.tx = .never :: xs →
      exec (.sendCommand bs) s = .fault (.stalled
        { s with
          dc := .low
          oracle := { s.oracle with dc := ds, tx := xs }
          trace := s.trace ++ [⟨.pin .dc .low, .ok⟩, ⟨.tx .low bs, .never⟩] })) ∧
  (∀ (i : Instr) (s : State) (f : Fault), exec i s = .fault f →
    ∃ (t : State) (es : List Entry) (tag : LineLevel) (bs : List Byte),
      f = .stalled t ∧ t.results = s.results ∧ t.trace = s.trace ++ es ++ [⟨.tx tag bs, .never⟩])

/-! sleep, powersave, halt, set_backlight. -/

/-- 40 R107 and 41 R125: sleep and powersave emit the SLPIN frame only and return ok, or the IoError of its first
failure; the backlight is not touched. -/
def Obligations.SleepAndPowersaveSendSleepIn : Prop :=
  (∀ (s : State) (ds : List PinAnswer) (xs : List TxAnswer) (t : State),
    Connected s → s.oracle.dc = .ok :: ds → s.oracle.tx = .ok :: xs →
    t = { s with
      dc := .low
      oracle := { s.oracle with dc := ds, tx := xs }
      trace := s.trace ++ [⟨.pin .dc .low, .ok⟩, ⟨.tx .low [s.params.opc.slpin], .ok⟩]
      results := s.results ++ [.ok] } →
      exec .sleep s = .next t ∧ exec .powersave s = .next t) ∧
  (∀ (s : State) (ds : List PinAnswer) (t : State),
    Connected s → s.oracle.dc = .ioError :: ds →
    t = { s with
      dc := .unknown
      seqStep := .idle
      oracle := { s.oracle with dc := ds }
      trace := s.trace ++ [⟨.pin .dc .low, .ioError⟩]
      results := s.results ++ [.error (.ioError .dcPin)] } →
      exec .sleep s = .next t ∧ exec .powersave s = .next t) ∧
  (∀ (s : State) (ds : List PinAnswer) (xs : List TxAnswer) (t : State),
    Connected s → s.oracle.dc = .ok :: ds → s.oracle.tx = .ioError :: xs →
    t = { s with
      dc := .low
      seqStep := .idle
      oracle := { s.oracle with dc := ds, tx := xs }
      trace := s.trace ++ [⟨.pin .dc .low, .ok⟩, ⟨.tx .low [s.params.opc.slpin], .ioError⟩]
      results := s.results ++ [.error (.ioError (.tx 0))] } →
      exec .sleep s = .next t ∧ exec .powersave s = .next t)

/-- 41 R126: halt with a backlight pin drives it off first, whatever the pin answers, then sends the SLPIN frame; the
result is ok if that frame goes through. Without a pin halt is powersave. -/
def Obligations.HaltDrivesBacklightOffThenSleeps : Prop :=
  (∀ (s : State) (bs ds : List PinAnswer) (xs : List TxAnswer) (a : PinAnswer),
    Connected s → s.cfg.hasBl = true → s.oracle.bl = a :: bs → s.oracle.dc = .ok :: ds → s.oracle.tx = .ok :: xs →
      exec .halt s = .next
        { s with
          dc := .low
          bl := if a = .ok then lineOf (opposite s.params.blOnLevel) else .unknown
          oracle := { s.oracle with bl := bs, dc := ds, tx := xs }
          trace := s.trace ++
            [⟨.pin .bl (opposite s.params.blOnLevel), if a = .ok then .ok else .ioError⟩, ⟨.pin .dc .low, .ok⟩,
              ⟨.tx .low [s.params.opc.slpin], .ok⟩]
          results := s.results ++ [.ok] }) ∧
  (∀ s : State, s.cfg.hasBl = false → exec .halt s = exec .powersave s)

/-- 60 R164 (b), 41 R126: in halt a failed backlight write is never reported: a failing sleep's IoError is, whatever
the backlight pin answered before it. -/
def Obligations.HaltReportsOnlyTheSleepFailure : Prop :=
  ∀ (s : State) (bs ds : List PinAnswer) (xs : List TxAnswer) (a : PinAnswer),
    Connected s → s.cfg.hasBl = true → s.oracle.bl = a :: bs → s.oracle.dc = .ok :: ds → s.oracle.tx = .ioError :: xs →
      exec .halt s = .next
        { s with
          dc := .low
          bl := if a = .ok then lineOf (opposite s.params.blOnLevel) else .unknown
          seqStep := .idle
          oracle := { s.oracle with bl := bs, dc := ds, tx := xs }
          trace := s.trace ++
            [⟨.pin .bl (opposite s.params.blOnLevel), if a = .ok then .ok else .ioError⟩, ⟨.pin .dc .low, .ok⟩,
              ⟨.tx .low [s.params.opc.slpin], .ioError⟩]
          results := s.results ++ [.error (.ioError (.tx 0))] }

/-- 40 R108: set_backlight never fails. Without a pin it is a silent no-op; with one it drives the level, and the line
is UNKNOWN after a write the pin failed; the result is ok in each case. -/
def Obligations.SetBacklightNeverFails : Prop :=
  (∀ (s : State) (en : Bool), Connected s → s.cfg.hasBl = false →
    exec (.setBacklight en) s = .next { s with results := s.results ++ [.ok] }) ∧
  (∀ (s : State) (en : Bool) (bs : List PinAnswer) (a : PinAnswer) (lvl : Level),
    Connected s → s.cfg.hasBl = true → s.oracle.bl = a :: bs →
    lvl = (if en then s.params.blOnLevel else opposite s.params.blOnLevel) →
      exec (.setBacklight en) s = .next
        { s with
          bl := if a = .ok then lineOf lvl else .unknown
          oracle := { s.oracle with bl := bs }
          trace := s.trace ++ [⟨.pin .bl lvl, if a = .ok then .ok else .ioError⟩]
          results := s.results ++ [.ok] })

/-! Addressing and streaming. -/

/-- 20 R41: visible columns and rows map to native ones by the offsets, and under a legal geometry a visible pixel maps
inside the native RAM. -/
def Obligations.VisiblePixelsMapInsideNativeRam : Prop :=
  ∀ (c : Cfg) (x y : Int),
    nativeCol c x = x + c.offL.toNat ∧ nativeRow c y = y + c.offT.toNat ∧
      (geometryOk ⟨c.w, c.h, c.offL, c.offT⟩ = true → 0 ≤ x → x < c.w.toNat → 0 ≤ y → y < c.h.toNat →
        0 ≤ nativeCol c x ∧ nativeCol c x ≤ 131 ∧ 0 ≤ nativeRow c y ∧ nativeRow c y ≤ 161)

/-- 41 R120, 30 R65: set_window completes. Where the four offset coordinates are the bytes `a0 b0 a1 b1`, it emits the
frames of CASET `[0, a0, 0, a1]`, RASET `[0, b0, 0, b1]` and RAMWR, with no check of their order or of the panel. -/
def Obligations.SetWindowEmitsTheOffsetWindow : Prop :=
  ∀ (s : State) (x0 y0 x1 y1 : Int) (a0 b0 a1 b1 : Byte),
    Connected s → x0 + s.cfg.offL.toNat = a0.toNat → y0 + s.cfg.offT.toNat = b0.toNat →
    x1 + s.cfg.offL.toNat = a1.toNat → y1 + s.cfg.offT.toNat = b1.toNat →
    Grants s (windowEvents s.params.opc a0 b0 a1 b1) →
      exec (.setWindow x0 y0 x1 y1) s = .next
        { s with
          dc := .low
          oracle := { s.oracle with dc := s.oracle.dc.drop 5, tx := s.oracle.tx.drop 5 }
          trace := s.trace ++
            [⟨.pin .dc .low, .ok⟩, ⟨.tx .low [s.params.opc.caset], .ok⟩, ⟨.pin .dc .high, .ok⟩,
              ⟨.tx .high [0, a0, 0, a1], .ok⟩, ⟨.pin .dc .low, .ok⟩, ⟨.tx .low [s.params.opc.raset], .ok⟩,
              ⟨.pin .dc .high, .ok⟩, ⟨.tx .high [0, b0, 0, b1], .ok⟩, ⟨.pin .dc .low, .ok⟩,
              ⟨.tx .low [s.params.opc.ramwr], .ok⟩]
          results := s.results ++ [.ok] }

/-- 41 R120, 60 R165: an offset coordinate outside 0..255 is refused WINDOW_RANGE, before any event. -/
def Obligations.SetWindowRefusesUnencodableCoordinates : Prop :=
  ∀ (s : State) (x0 y0 x1 y1 : Int),
    Connected s →
    ¬(0 ≤ x0 + s.cfg.offL.toNat ∧ x0 + s.cfg.offL.toNat ≤ 255 ∧ 0 ≤ x1 + s.cfg.offL.toNat ∧
      x1 + s.cfg.offL.toNat ≤ 255 ∧ 0 ≤ y0 + s.cfg.offT.toNat ∧ y0 + s.cfg.offT.toNat ≤ 255 ∧
      0 ≤ y1 + s.cfg.offT.toNat ∧ y1 + s.cfg.offT.toNat ≤ 255) →
      exec (.setWindow x0 y0 x1 y1) s = .refused .windowRange

/-- 41 R120, 60 R166: set_window stops at its first failure: the failing event is the last of the trace, and the result
is its IoError. -/
def Obligations.SetWindowStopsAtItsFirstFailure : Prop :=
  ∀ (s : State) (x0 y0 x1 y1 : Int) (a0 b0 a1 b1 : Byte) (n : Nat) (e : Event),
    Connected s → x0 + s.cfg.offL.toNat = a0.toNat → y0 + s.cfg.offT.toNat = b0.toNat →
    x1 + s.cfg.offL.toNat = a1.toNat → y1 + s.cfg.offT.toNat = b1.toNat →
    (windowEvents s.params.opc a0 b0 a1 b1)[n]? = some e →
    FailsAt s ((windowEvents s.params.opc a0 b0 a1 b1).take n) e →
      exec (.setWindow x0 y0 x1 y1) s = .next
        { stoppedAt ((windowEvents s.params.opc a0 b0 a1 b1).take n) e s with
          seqStep := .idle
          results := s.results ++ [.error (.ioError (causeAt e 0))] }

/-- 41 R124: on a connected block with a legal geometry display emits the window of the full visible area and then the
bytes verbatim, whatever their number. -/
def Obligations.DisplayStreamsRawBytesIntoTheFullWindow : Prop :=
  ∀ (s : State) (raw : List Byte) (es : List Event),
    Connected s → geometryOk ⟨s.cfg.w, s.cfg.h, s.cfg.offL, s.cfg.offT⟩ = true →
    es = windowEvents s.params.opc s.cfg.offL s.cfg.offT (s.cfg.offL + s.cfg.w - 1) (s.cfg.offT + s.cfg.h - 1) ++
      dataEvents raw →
    Grants s es →
      exec (.display raw) s = .next
        { played es s with
          dc := .high
          results := s.results ++ [.ok] }

/-- 41 R122: the clip is the placed bounds cut to the visible rectangle, empty exactly when a side has no length; and
under a legal geometry the window of a clip that is not empty passes set_window's check, and every pixel visited lies
inside the image's bounds. -/
def Obligations.ClipIsTheVisiblePartOfTheImage : Prop :=
  ∀ (c : Cfg) (x y : Int) (img : Image) (k : Clip), k = clipOf c x y img →
    k.cx0 = max (img.minX + x) 0 ∧ k.cx1 = min (img.maxX + x) c.w.toNat ∧
      k.cy0 = max (img.minY + y) 0 ∧ k.cy1 = min (img.maxY + y) c.h.toNat ∧
      (k.empty = true ↔ k.cx0 ≥ k.cx1 ∨ k.cy0 ≥ k.cy1) ∧
      (k.empty = false → geometryOk ⟨c.w, c.h, c.offL, c.offT⟩ = true →
        (0 ≤ k.cx0 ∧ k.cx0 < k.cx1 ∧ k.cx1 ≤ c.w.toNat ∧ 0 ≤ k.cy0 ∧ k.cy0 < k.cy1 ∧ k.cy1 ≤ c.h.toNat) ∧
          (inByteRange (nativeCol c k.cx0) = true ∧ inByteRange (nativeCol c (k.cx1 - 1)) = true ∧
            inByteRange (nativeRow c k.cy0) = true ∧ inByteRange (nativeRow c (k.cy1 - 1)) = true)) ∧
      (∀ px py : Int, k.cx0 ≤ px → px < k.cx1 → k.cy0 ≤ py → py < k.cy1 →
        img.minX ≤ px - x ∧ px - x < img.maxX ∧ img.minY ≤ py - y ∧ py - y < img.maxY)

/-- 41 R121: an image whose clip is empty emits nothing and returns ok: "never an error". -/
def Obligations.DisplayImageOfAnEmptyClipIsSilent : Prop :=
  ∀ (s : State) (x y : Int) (img : Image),
    Connected s →
    (min (img.maxX + x) s.cfg.w.toNat ≤ max (img.minX + x) 0 ∨
      min (img.maxY + y) s.cfg.h.toNat ≤ max (img.minY + y) 0) →
      exec (.displayImage x y img) s = .next { s with results := s.results ++ [.ok] }

/-- 41 R121: on a connected block with a legal geometry display_image of a clip that is not empty emits the window of
the clip's inclusive corners, then its pixels, column by column, in one data phase. -/
def Obligations.DisplayImageStreamsTheClippedPixels : Prop :=
  ∀ (s : State) (x y : Int) (img : Image) (cx0 cy0 cw ch : Nat) (es : List Event),
    Connected s → geometryOk ⟨s.cfg.w, s.cfg.h, s.cfg.offL, s.cfg.offT⟩ = true →
    (cx0 : Int) = max (img.minX + x) 0 → ((cx0 + cw : Nat) : Int) = min (img.maxX + x) s.cfg.w.toNat →
    (cy0 : Int) = max (img.minY + y) 0 → ((cy0 + ch : Nat) : Int) = min (img.maxY + y) s.cfg.h.toNat →
    1 ≤ cw → 1 ≤ ch →
    es = windowEvents s.params.opc (BitVec.ofNat 8 (cx0 + s.cfg.offL.toNat)) (BitVec.ofNat 8 (cy0 + s.cfg.offT.toNat))
        (BitVec.ofNat 8 (cx0 + cw - 1 + s.cfg.offL.toNat)) (BitVec.ofNat 8 (cy0 + ch - 1 + s.cfg.offT.toNat)) ++
      dataEvents (imageBytes x y img cx0 cy0 cw ch) →
    Grants s es →
      exec (.displayImage x y img) s = .next
        { played es s with
          dc := .high
          results := s.results ++ [.ok] }

/-- 41 R121, R123: the stream of a clip has exactly `2 * cw * ch` bytes, and byte `2*((px - cx0)*ch + (py - cy0))` and
the one after it are the packed pixel at visible `(px, py)`, high byte first. -/
def Obligations.PixelStreamIsColumnMajor : Prop :=
  ∀ (x y : Int) (img : Image) (k : Clip),
    (pixelStream x y img k).length = 2 * k.cw * k.ch ∧
      ∀ (i j : Nat) (v : Word16), i < k.cw → j < k.ch →
        v = packRgb565 (imgAt img (k.cx0 + i - x) (k.cy0 + j - y)).r (imgAt img (k.cx0 + i - x) (k.cy0 + j - y)).g
          (imgAt img (k.cx0 + i - x) (k.cy0 + j - y)).b (imgAt img (k.cx0 + i - x) (k.cy0 + j - y)).a →
          (pixelStream x y img k)[2 * (i * k.ch + j)]? = some (BitVec.ofNat 8 (v.toNat / 256)) ∧
            (pixelStream x y img k)[2 * (i * k.ch + j) + 1]? = some (BitVec.ofNat 8 (v.toNat % 256))

/-- 20 R44, 41 R122: inside the bounds of an image whose buffer is whole, ImgAt reads the buffer, never the free value of
assumption 16: the pixel at row `iy - minY` and column `ix - minX`. -/
def Obligations.ImgAtReadsTheBufferInsideTheBounds : Prop :=
  ∀ (img : Image) (ix iy : Int), img.wellFormed = true →
    img.minX ≤ ix → ix < img.maxX → img.minY ≤ iy → iy < img.maxY →
      img.pixels[(iy - img.minY).toNat * (img.maxX - img.minX).toNat + (ix - img.minX).toNat]? =
        some (imgAt img ix iy)

/-- 70 R188: display and display_image obey "caller must not proceed": if an event of their window fails, the failing
event is the last of the trace and no pixel byte is sent. -/
def Obligations.NoPixelFollowsAFailedWindow : Prop :=
  ∀ (s : State) (n : Nat) (e : Event) (w : List Event),
    Connected s → geometryOk ⟨s.cfg.w, s.cfg.h, s.cfg.offL, s.cfg.offT⟩ = true → w[n]? = some e →
    FailsAt s (w.take n) e →
      (∀ raw : List Byte,
        w = windowEvents s.params.opc s.cfg.offL s.cfg.offT (s.cfg.offL + s.cfg.w - 1) (s.cfg.offT + s.cfg.h - 1) →
          exec (.display raw) s = .next
            { stoppedAt (w.take n) e s with
              seqStep := .idle
              results := s.results ++ [.error (.ioError (causeAt e 0))] }) ∧
      (∀ (x y : Int) (img : Image) (k : Clip), k = clipOf s.cfg x y img → k.empty = false →
        w = windowEvents s.params.opc (lo8 (nativeCol s.cfg k.cx0)) (lo8 (nativeRow s.cfg k.cy0))
          (lo8 (nativeCol s.cfg (k.cx1 - 1))) (lo8 (nativeRow s.cfg (k.cy1 - 1))) →
          exec (.displayImage x y img) s = .next
            { stoppedAt (w.take n) e s with
              seqStep := .idle
              results := s.results ++ [.error (.ioError (causeAt e 0))] })

/-! Colour. -/

/-- 42 R140: rgb565 runs in every state, connected or not; it returns the value of the formula and changes nothing
else; alpha does not matter; and its value is below 0x10000, so the word holds it whole. -/
def Obligations.Rgb565ReturnsThePackedColour : Prop :=
  ∀ (s : State) (r g b a : Byte) (v : Nat),
    v = ((r.toNat &&& 0xF8) <<< 8) ||| ((g.toNat &&& 0xFC) <<< 3) ||| (b.toNat >>> 3) →
      exec (.rgb565 r g b a) s = .next { s with results := s.results ++ [.colour (BitVec.ofNat 16 v)] } ∧ v < 0x10000

/-- 42 R143: the laws of the packer, and its five listed values. -/
def Obligations.Rgb565FieldLaws : Prop :=
  (∀ r g b a : Byte,
    (packRgb565 r g b a).extractLsb' 11 5 = r.extractLsb' 3 5 ∧
      (packRgb565 r g b a).extractLsb' 5 6 = g.extractLsb' 2 6 ∧
      (packRgb565 r g b a).extractLsb' 0 5 = b.extractLsb' 3 5) ∧
  (∀ a : Byte, packRgb565 0 0 0 a = 0x0000#16 ∧ packRgb565 255 255 255 a = 0xFFFF#16 ∧
    packRgb565 255 0 0 a = 0xF800#16 ∧ packRgb565 0 255 0 a = 0x07E0#16 ∧ packRgb565 0 0 255 a = 0x001F#16)

/-- 42 R141: on 16-bit channels that repeat the byte, the masked and shifted form gives the same value. -/
def Obligations.WideChannelFormAgrees : Prop :=
  ∀ (r g b a : Byte) (R G B : Nat),
    R = r.toNat * 0x101 → G = g.toNat * 0x101 → B = b.toNat * 0x101 →
      (packRgb565 r g b a).toNat = (R &&& 0xF800) ||| ((G &&& 0xFC00) >>> 5) ||| (B >>> 11)

/-- 42 R142, 30 R66: the bus image of a pixel is two bytes, high byte first: red 7:3 and green 7:5, then green 4:2 and
blue 7:3. -/
def Obligations.PixelBusImageIsBigEndian : Prop :=
  ∀ p : Pixel, ∃ b0 b1 : Byte, pixelBytes p = [b0, b1] ∧
    b0.toNat * 256 + b1.toNat = (packRgb565 p.r p.g p.b p.a).toNat ∧
    b0.extractLsb' 3 5 = p.r.extractLsb' 3 5 ∧ b0.extractLsb' 0 3 = p.g.extractLsb' 5 3 ∧
    b1.extractLsb' 5 3 = p.g.extractLsb' 2 3 ∧ b1.extractLsb' 0 5 = p.b.extractLsb' 3 5

/-! The catalogue commands as instructions (assumption 7): what each emits, and that nothing else changes. -/

/-- 30 R71, R74, R75, R79, 40 R109: SLPIN, INVOFF, INVON and RAMWR are one command phase and nothing else. -/
def Obligations.PlainCommandsSendOneByte : Prop :=
  ∀ (s : State) (ds : List PinAnswer) (xs : List TxAnswer) (after : Byte → State),
    Connected s → s.oracle.dc = .ok :: ds → s.oracle.tx = .ok :: xs →
    (∀ b, after b = { s with
      dc := .low
      oracle := { s.oracle with dc := ds, tx := xs }
      trace := s.trace ++ [⟨.pin .dc .low, .ok⟩, ⟨.tx .low [b], .ok⟩]
      results := s.results ++ [.ok] }) →
      exec .slpin s = .next (after s.params.opc.slpin) ∧ exec .invoff s = .next (after s.params.opc.invoff) ∧
        exec .invon s = .next (after s.params.opc.invon) ∧ exec .ramwr s = .next (after s.params.opc.ramwr)

/-- 30 R70, R72, R73, R76: SWRESET, SLPOUT, NORON and DISPON are one command phase and their settle delay. -/
def Obligations.SettlingCommandsWaitAfterTheirByte : Prop :=
  ∀ (s : State) (ds : List PinAnswer) (xs : List TxAnswer) (after : Byte → Nat → State),
    Connected s → s.oracle.dc = .ok :: ds → s.oracle.tx = .ok :: xs →
    (∀ b ms, after b ms = { s with
      dc := .low
      oracle := { s.oracle with dc := ds, tx := xs }
      trace := s.trace ++ [⟨.pin .dc .low, .ok⟩, ⟨.tx .low [b], .ok⟩, ⟨.delay ms, .ok⟩]
      results := s.results ++ [.ok] }) →
      exec .swreset s = .next (after s.params.opc.swreset 150) ∧ exec .slpout s = .next (after s.params.opc.slpout 500) ∧
        exec .noron s = .next (after s.params.opc.noron 100) ∧ exec .dispon s = .next (after s.params.opc.dispon 100)

/-- 30 R77, R78, R65 and R80 to R93: every command with parameters is one command phase and one data phase with all its
parameter bytes; the address sets put a zero byte before each address. -/
def Obligations.ParameterCommandsSendTheirBytes : Prop :=
  ∀ (s : State) (d0 d1 : List PinAnswer) (xs : List TxAnswer) (after : Byte → List Byte → State),
    Connected s → s.oracle.dc = .ok :: d0 → d0 = .ok :: d1 → s.oracle.tx = .ok :: .ok :: xs →
    (∀ b ps, after b ps = { s with
      dc := .high
      oracle := { s.oracle with dc := d1, tx := xs }
      trace := s.trace ++
        [⟨.pin .dc .low, .ok⟩, ⟨.tx .low [b], .ok⟩, ⟨.pin .dc .high, .ok⟩, ⟨.tx .high ps, .ok⟩]
      results := s.results ++ [.ok] }) →
      (∀ x0 x1, exec (.caset x0 x1) s = .next (after s.params.opc.caset [0, x0, 0, x1])) ∧
        (∀ y0 y1, exec (.raset y0 y1) s = .next (after s.params.opc.raset [0, y0, 0, y1])) ∧
        (∀ v, exec (.madctl v) s = .next (after s.params.opc.madctl [v])) ∧
        (∀ v, exec (.colmod v) s = .next (after s.params.opc.colmod [v])) ∧
        (∀ ps, exec (.frmctr1 ps) s = .next (after s.params.opc.frmctr1 ps.toList)) ∧
        (∀ ps, exec (.frmctr2 ps) s = .next (after s.params.opc.frmctr2 ps.toList)) ∧
        (∀ ps, exec (.frmctr3 ps) s = .next (after s.params.opc.frmctr3 ps.toList)) ∧
        (∀ v, exec (.invctr v) s = .next (after s.params.opc.invctr [v])) ∧
        (∀ ps, exec (.pwctr1 ps) s = .next (after s.params.opc.pwctr1 ps.toList)) ∧
        (∀ ps, exec (.pwctr2 ps) s = .next (after s.params.opc.pwctr2 ps.toList)) ∧
        (∀ ps, exec (.pwctr3 ps) s = .next (after s.params.opc.pwctr3 ps.toList)) ∧
        (∀ ps, exec (.pwctr4 ps) s = .next (after s.params.opc.pwctr4 ps.toList)) ∧
        (∀ ps, exec (.pwctr5 ps) s = .next (after s.params.opc.pwctr5 ps.toList)) ∧
        (∀ v, exec (.vmctr1 v) s = .next (after s.params.opc.vmctr1 [v])) ∧
        (∀ ps, exec (.gmctrp1 ps) s = .next (after s.params.opc.gmctrp1 ps.toList)) ∧
        (∀ ps, exec (.gmctrn1 ps) s = .next (after s.params.opc.gmctrn1 ps.toList))

/-! The whole machine. -/

/-- Frame, for every instruction but connect, whatever it returns (10 R21, R25, R26; 40, 41: "State written"): the
parameters, the connection, the configuration, RST, the calls waiting and the answers of `Open` are unchanged. -/
def Obligations.OnlyConnectWritesTheHandle : Prop :=
  ∀ (i : Instr) (s t : State), exec i s = .next t → (∀ sel rst bl geom, i ≠ .connect sel rst bl geom) →
    t.params = s.params ∧ t.conn = s.conn ∧ t.cfg = s.cfg ∧ t.rst = s.rst ∧ t.port = s.port ∧
      t.oracle.opens = s.oracle.opens

/-- Frame of the lines (10 R23, R24; 40 R108, 41 R126): only connect, set_backlight and halt touch BL or draw its
answers; connect, set_backlight and rgb565 draw no DC or SPI answer, and set_backlight and rgb565 leave DC and the
sequencer alone. -/
def Obligations.LinesChangeOnlyWhereDriven : Prop :=
  ∀ (i : Instr) (s t : State), exec i s = .next t →
    ((∀ sel rst bl geom, i ≠ .connect sel rst bl geom) → (∀ en, i ≠ .setBacklight en) → i ≠ .halt →
      t.bl = s.bl ∧ t.oracle.bl = s.oracle.bl) ∧
    (∀ sel rst bl geom, i = .connect sel rst bl geom →
      t.oracle.dc = s.oracle.dc ∧ t.oracle.bl = s.oracle.bl ∧ t.oracle.tx = s.oracle.tx ∧ t.params = s.params ∧
        t.port = s.port) ∧
    ((∃ en, i = .setBacklight en) ∨ (∃ r g b a, i = .rgb565 r g b a) →
      t.dc = s.dc ∧ t.seqStep = s.seqStep ∧ t.oracle.dc = s.oracle.dc ∧ t.oracle.tx = s.oracle.tx)

/-- 10 R21, R26: once connected, the handle is "never reconstructed": no step changes the connection, the configuration
or the parameters. -/
def Obligations.NoStepReconstructsTheHandle : Prop :=
  ∀ s t : State, step s = .next t → Connected s → t.conn = s.conn ∧ t.cfg = s.cfg ∧ t.params = s.params

/-- 00 R16, 60 R162: an operation that comes to an end only appends to the trace and returns exactly one result, one of
those 60 R162 lists for it (for a catalogue command on its own, ok or IoError: assumption 23). -/
def Obligations.EveryOperationReturnsOneListedResult : Prop :=
  ∀ (i : Instr) (s t : State), exec i s = .next t →
    ∃ (es : List Entry) (r : Result), t.trace = s.trace ++ es ∧ t.results = s.results ++ [r] ∧ mayReturn i r = true

/-- 60 R166, R167: an operation that returns an error stops at the failing event: it is the last of the trace and was
answered with an error, every earlier event of the operation was answered ok (but for a backlight write, which is never
reported), the sequencer is IDLE, the configuration unchanged, and DC is the level last written successfully, or UNKNOWN if
the failing event was its write. -/
def Obligations.ErrorsAbortPrecisely : Prop :=
  ∀ (i : Instr) (s t : State) (e : BlockError), exec i s = .next t → t.results = s.results ++ [.error e] →
    ∃ (es : List Entry) (last : Entry),
      t.trace = s.trace ++ es ++ [last] ∧ (last.answer = .ioError ∨ last.answer = .connectionError) ∧
        (∀ x ∈ es, x.answer = .ok ∨ ∃ lvl, x.event = .pin .bl lvl) ∧
        t.seqStep = .idle ∧ t.cfg = s.cfg ∧ t.dc = dcAfter (es ++ [last]) s.dc ∧
        (∀ lvl, last.event = .pin .dc lvl → t.dc = .unknown)

/-- 60 R161, R163, R164 (a): the returned error names the failing event, the last of the trace. ConnectionError: the `Open`
of a connect. IoError, outside initialize: DC_PIN for a write of DC, else the place of the transaction's first byte in its
send. ProtocolError, in initialize only: that cause, and the index of the unit being emitted. That a catalogue command on
its own returns an IoError is the model's choice (assumptions 7, 23). -/
def Obligations.ReturnedErrorNamesTheFailingEvent : Prop :=
  ∀ (i : Instr) (s t : State) (e : BlockError), exec i s = .next t → t.results = s.results ++ [.error e] →
    ∃ (es : List Entry) (last : Entry),
      t.trace = s.trace ++ es ++ [last] ∧
        (((∃ sel rst bl geom, i = .connect sel rst bl geom) ∧ e = .connectionError ∧
            ∃ clk mode bits, last.event = .openPort clk mode bits) ∨
          (((∃ lvl, last.event = .pin .dc lvl) ∨ ∃ tag bs, last.event = .tx tag bs) ∧
            ((i ≠ .initializePanel ∧ e = .ioError (failureCause (eventsIn es) last.event)) ∨
              (i = .initializePanel ∧ ∃ k : Fin 20,
                e = .protocolError k (failureCause (eventsIn es) last.event) ∧
                  unitsBegun (eventsIn (es ++ [last])) = k.val + 1))))

/-- 30 R67 (a), R64: in every command phase the block issues it sends one opcode byte of the catalogue, but for the
bytes a host gives send_command. -/
def Obligations.CommandPhasesCarryCatalogueOpcodes : Prop :=
  ∀ (i : Instr) (s t : State), exec i s = .next t → (∀ bs, i ≠ .sendCommand bs) →
    ∀ (es : List Entry) (x : Entry) (bs : List Byte), t.trace = s.trace ++ es → x ∈ es → x.event = .tx .low bs →
      ∃ c : Command, bs = [opcodeOf s.params.opc c]

/-- 10 R30 (a), 70 R182, 60 R168: what an operation emits and returns does not depend on the lines' levels, the
sequencer, the calls waiting or anything that happened before (an initialize or not, an error or not): two states with
the same connection, configuration, parameters and answers emit the same entries and return the same result. -/
def Obligations.OperationsDoNotDependOnThePast : Prop :=
  ∀ (i : Instr) (s t s' : State),
    t.params = s.params → t.conn = s.conn → t.cfg = s.cfg → t.oracle = s.oracle → exec i s = .next s' →
      ∃ (t' : State) (es : List Entry) (r : Result),
        exec i t = .next t' ∧ s'.trace = s.trace ++ es ∧ t'.trace = t.trace ++ es ∧
          s'.results = s.results ++ [r] ∧ t'.results = t.results ++ [r] ∧ t'.oracle = s'.oracle

/-- 70 R192: whatever the answers, a send_data that returns ok has put its payload on the trace, which at 4 MHz with 8-bit
words occupies the bus for at least 2 microseconds a byte; a display that returns ok has put the window's three command
bytes and eight parameter bytes and then its bytes there, so a full default frame of 25600 bytes takes at least 51.2 ms. -/
def Obligations.DataPhaseBusTime : Prop :=
  (∀ (s t : State) (bs : List Byte), exec (.sendData bs) s = .next t → t.results = s.results ++ [.ok] →
    ∃ xs : List Entry, t.trace = s.trace ++ xs ∧ commandBytes (eventsIn xs) = [] ∧ dataBytes (eventsIn xs) = bs ∧
      busNanoseconds 4000000 8 (eventsIn xs) = 2000 * bs.length) ∧
  (∀ (s t : State) (raw : List Byte), exec (.display raw) s = .next t → t.results = s.results ++ [.ok] →
    ∃ (xs : List Entry) (window : List Byte), t.trace = s.trace ++ xs ∧ (commandBytes (eventsIn xs)).length = 3 ∧
      dataBytes (eventsIn xs) = window ++ raw ∧ window.length = 8 ∧
      busNanoseconds 4000000 8 (eventsIn xs) = 2000 * (raw.length + 11) ∧
      (raw.length = 25600 → 51200000 ≤ busNanoseconds 4000000 8 (eventsIn xs)))

/-- The invariant of Safety.lean (10 R21 to R25, 20 R46, R51) holds at reset. -/
def Obligations.ResetMeetsTheInvariant : Prop := Inv State.reset

/-- The invariant (10 R21: a connected block never holds an illegal geometry; R22: IDLE outside initialize; R23: every
transaction is tagged LOW or HIGH; R24, R25; 20 R46: data transactions carry 1 to 4096 bytes) is kept by every step, from
every state that meets it. -/
def Obligations.EveryStepKeepsTheInvariant : Prop := ∀ s t : State, Inv s → step s = .next t → Inv t

/-- 00 R14, R15, 60 R166, R173: on a connected idle block every operation but connect and rgb565 that is not refused is,
for ALL answers of the ports, the run of its flat script of events, each in turn, to the first failure the operation
reports, a transaction that never answers, or the end (catalogue commands on their own: assumptions 7, 23). -/
def Obligations.OperationsFollowTheirScripts : Prop :=
  ∀ (i : Instr) (s : State) (es : List Emission),
    Connected s → s.seqStep = .idle → scriptOf s.params s.cfg i = some es → exec i s = (follow es s).finish
end

