-- ==== Sys2Proof/Laws/State.lean ====
section
/-! SUPPORT. One lemma for each field of State under each update, true by unfolding, so that no later proof unfolds a
record update. -/

namespace Sys2Proof.Machine

@[simp] theorem State.log_params (e : Event) (a : Answer) (s : State) : (State.log e a s).params = s.params := rfl
@[simp] theorem State.log_conn (e : Event) (a : Answer) (s : State) : (State.log e a s).conn = s.conn := rfl
@[simp] theorem State.log_cfg (e : Event) (a : Answer) (s : State) : (State.log e a s).cfg = s.cfg := rfl
@[simp] theorem State.log_dc (e : Event) (a : Answer) (s : State) : (State.log e a s).dc = s.dc := rfl
@[simp] theorem State.log_bl (e : Event) (a : Answer) (s : State) : (State.log e a s).bl = s.bl := rfl
@[simp] theorem State.log_rst (e : Event) (a : Answer) (s : State) : (State.log e a s).rst = s.rst := rfl
@[simp] theorem State.log_seqStep (e : Event) (a : Answer) (s : State) : (State.log e a s).seqStep = s.seqStep := rfl
@[simp] theorem State.log_port (e : Event) (a : Answer) (s : State) : (State.log e a s).port = s.port := rfl
@[simp] theorem State.log_oracle (e : Event) (a : Answer) (s : State) : (State.log e a s).oracle = s.oracle := rfl
@[simp] theorem State.log_trace (e : Event) (a : Answer) (s : State) : (State.log e a s).trace = s.trace ++ [⟨e, a⟩] := rfl
@[simp] theorem State.log_results (e : Event) (a : Answer) (s : State) : (State.log e a s).results = s.results := rfl

@[simp] theorem State.complete_params (r : Result) (s : State) : (State.complete r s).params = s.params := rfl
@[simp] theorem State.complete_conn (r : Result) (s : State) : (State.complete r s).conn = s.conn := rfl
@[simp] theorem State.complete_cfg (r : Result) (s : State) : (State.complete r s).cfg = s.cfg := rfl
@[simp] theorem State.complete_dc (r : Result) (s : State) : (State.complete r s).dc = s.dc := rfl
@[simp] theorem State.complete_bl (r : Result) (s : State) : (State.complete r s).bl = s.bl := rfl
@[simp] theorem State.complete_rst (r : Result) (s : State) : (State.complete r s).rst = s.rst := rfl
@[simp] theorem State.complete_seqStep (r : Result) (s : State) : (State.complete r s).seqStep = s.seqStep := rfl
@[simp] theorem State.complete_port (r : Result) (s : State) : (State.complete r s).port = s.port := rfl
@[simp] theorem State.complete_oracle (r : Result) (s : State) : (State.complete r s).oracle = s.oracle := rfl
@[simp] theorem State.complete_trace (r : Result) (s : State) : (State.complete r s).trace = s.trace := rfl
@[simp] theorem State.complete_results (r : Result) (s : State) : (State.complete r s).results = s.results ++ [r] := rfl

@[simp] theorem State.raiseError_params (e : BlockError) (s : State) : (State.raiseError e s).params = s.params := rfl
@[simp] theorem State.raiseError_conn (e : BlockError) (s : State) : (State.raiseError e s).conn = s.conn := rfl
@[simp] theorem State.raiseError_cfg (e : BlockError) (s : State) : (State.raiseError e s).cfg = s.cfg := rfl
@[simp] theorem State.raiseError_dc (e : BlockError) (s : State) : (State.raiseError e s).dc = s.dc := rfl
@[simp] theorem State.raiseError_bl (e : BlockError) (s : State) : (State.raiseError e s).bl = s.bl := rfl
@[simp] theorem State.raiseError_rst (e : BlockError) (s : State) : (State.raiseError e s).rst = s.rst := rfl
@[simp] theorem State.raiseError_seqStep (e : BlockError) (s : State) : (State.raiseError e s).seqStep = .idle := rfl
@[simp] theorem State.raiseError_port (e : BlockError) (s : State) : (State.raiseError e s).port = s.port := rfl
@[simp] theorem State.raiseError_oracle (e : BlockError) (s : State) : (State.raiseError e s).oracle = s.oracle := rfl
@[simp] theorem State.raiseError_trace (e : BlockError) (s : State) : (State.raiseError e s).trace = s.trace := rfl
@[simp] theorem State.raiseError_results (e : BlockError) (s : State) : (State.raiseError e s).results = s.results ++ [.error e] := rfl

@[simp] theorem delay_params (ms : Nat) (s : State) : (delay ms s).params = s.params := rfl
@[simp] theorem delay_conn (ms : Nat) (s : State) : (delay ms s).conn = s.conn := rfl
@[simp] theorem delay_cfg (ms : Nat) (s : State) : (delay ms s).cfg = s.cfg := rfl
@[simp] theorem delay_dc (ms : Nat) (s : State) : (delay ms s).dc = s.dc := rfl
@[simp] theorem delay_bl (ms : Nat) (s : State) : (delay ms s).bl = s.bl := rfl
@[simp] theorem delay_rst (ms : Nat) (s : State) : (delay ms s).rst = s.rst := rfl
@[simp] theorem delay_seqStep (ms : Nat) (s : State) : (delay ms s).seqStep = s.seqStep := rfl
@[simp] theorem delay_port (ms : Nat) (s : State) : (delay ms s).port = s.port := rfl
@[simp] theorem delay_oracle (ms : Nat) (s : State) : (delay ms s).oracle = s.oracle := rfl
@[simp] theorem delay_trace (ms : Nat) (s : State) : (delay ms s).trace = s.trace ++ [⟨.delay ms, .ok⟩] := rfl
@[simp] theorem delay_results (ms : Nat) (s : State) : (delay ms s).results = s.results := rfl

@[simp] theorem State.placeRequest_params (req : Request) (s : State) : (State.placeRequest req s).params = s.params := rfl
@[simp] theorem State.placeRequest_conn (req : Request) (s : State) : (State.placeRequest req s).conn = s.conn := rfl
@[simp] theorem State.placeRequest_cfg (req : Request) (s : State) : (State.placeRequest req s).cfg = s.cfg := rfl
@[simp] theorem State.placeRequest_dc (req : Request) (s : State) : (State.placeRequest req s).dc = s.dc := rfl
@[simp] theorem State.placeRequest_bl (req : Request) (s : State) : (State.placeRequest req s).bl = s.bl := rfl
@[simp] theorem State.placeRequest_rst (req : Request) (s : State) : (State.placeRequest req s).rst = s.rst := rfl
@[simp] theorem State.placeRequest_seqStep (req : Request) (s : State) : (State.placeRequest req s).seqStep = s.seqStep := rfl
@[simp] theorem State.placeRequest_port (req : Request) (s : State) : (State.placeRequest req s).port = req :: s.port.tail := rfl
@[simp] theorem State.placeRequest_oracle (req : Request) (s : State) : (State.placeRequest req s).oracle = s.oracle := rfl
@[simp] theorem State.placeRequest_trace (req : Request) (s : State) : (State.placeRequest req s).trace = s.trace := rfl
@[simp] theorem State.placeRequest_results (req : Request) (s : State) : (State.placeRequest req s).results = s.results := rfl

@[simp] theorem State.connected_params (g : Geometry) (rst bl : Bool) (s : State) : (State.connected g rst bl s).params = s.params := rfl
@[simp] theorem State.connected_conn (g : Geometry) (rst bl : Bool) (s : State) : (State.connected g rst bl s).conn = .opened s.params.spiClockHz s.params.spiMode s.params.spiWordBits := rfl
@[simp] theorem State.connected_cfg (g : Geometry) (rst bl : Bool) (s : State) : (State.connected g rst bl s).cfg = ⟨g.w, g.h, g.offL, g.offT, rst, bl, s.params.invert⟩ := rfl
@[simp] theorem State.connected_dc (g : Geometry) (rst bl : Bool) (s : State) : (State.connected g rst bl s).dc = .unknown := rfl
@[simp] theorem State.connected_bl (g : Geometry) (rst bl : Bool) (s : State) : (State.connected g rst bl s).bl = .unknown := rfl
@[simp] theorem State.connected_rst (g : Geometry) (rst bl : Bool) (s : State) : (State.connected g rst bl s).rst = .unknown := rfl
@[simp] theorem State.connected_seqStep (g : Geometry) (rst bl : Bool) (s : State) : (State.connected g rst bl s).seqStep = .idle := rfl
@[simp] theorem State.connected_port (g : Geometry) (rst bl : Bool) (s : State) : (State.connected g rst bl s).port = s.port := rfl
@[simp] theorem State.connected_oracle (g : Geometry) (rst bl : Bool) (s : State) : (State.connected g rst bl s).oracle = s.oracle := rfl
@[simp] theorem State.connected_trace (g : Geometry) (rst bl : Bool) (s : State) : (State.connected g rst bl s).trace = s.trace := rfl
@[simp] theorem State.connected_results (g : Geometry) (rst bl : Bool) (s : State) : (State.connected g rst bl s).results = s.results := rfl

@[simp] theorem State.setLine_dc_params (l : LineLevel) (s : State) : (State.setLine .dc l s).params = s.params := rfl
@[simp] theorem State.setLine_dc_conn (l : LineLevel) (s : State) : (State.setLine .dc l s).conn = s.conn := rfl
@[simp] theorem State.setLine_dc_cfg (l : LineLevel) (s : State) : (State.setLine .dc l s).cfg = s.cfg := rfl
@[simp] theorem State.setLine_dc_dc (l : LineLevel) (s : State) : (State.setLine .dc l s).dc = l := rfl
@[simp] theorem State.setLine_dc_bl (l : LineLevel) (s : State) : (State.setLine .dc l s).bl = s.bl := rfl
@[simp] theorem State.setLine_dc_rst (l : LineLevel) (s : State) : (State.setLine .dc l s).rst = s.rst := rfl
@[simp] theorem State.setLine_dc_seqStep (l : LineLevel) (s : State) : (State.setLine .dc l s).seqStep = s.seqStep := rfl
@[simp] theorem State.setLine_dc_port (l : LineLevel) (s : State) : (State.setLine .dc l s).port = s.port := rfl
@[simp] theorem State.setLine_dc_oracle (l : LineLevel) (s : State) : (State.setLine .dc l s).oracle = s.oracle := rfl
@[simp] theorem State.setLine_dc_trace (l : LineLevel) (s : State) : (State.setLine .dc l s).trace = s.trace := rfl
@[simp] theorem State.setLine_dc_results (l : LineLevel) (s : State) : (State.setLine .dc l s).results = s.results := rfl

@[simp] theorem State.setLine_bl_params (l : LineLevel) (s : State) : (State.setLine .bl l s).params = s.params := rfl
@[simp] theorem State.setLine_bl_conn (l : LineLevel) (s : State) : (State.setLine .bl l s).conn = s.conn := rfl
@[simp] theorem State.setLine_bl_cfg (l : LineLevel) (s : State) : (State.setLine .bl l s).cfg = s.cfg := rfl
@[simp] theorem State.setLine_bl_dc (l : LineLevel) (s : State) : (State.setLine .bl l s).dc = s.dc := rfl
@[simp] theorem State.setLine_bl_bl (l : LineLevel) (s : State) : (State.setLine .bl l s).bl = l := rfl
@[simp] theorem State.setLine_bl_rst (l : LineLevel) (s : State) : (State.setLine .bl l s).rst = s.rst := rfl
@[simp] theorem State.setLine_bl_seqStep (l : LineLevel) (s : State) : (State.setLine .bl l s).seqStep = s.seqStep := rfl
@[simp] theorem State.setLine_bl_port (l : LineLevel) (s : State) : (State.setLine .bl l s).port = s.port := rfl
@[simp] theorem State.setLine_bl_oracle (l : LineLevel) (s : State) : (State.setLine .bl l s).oracle = s.oracle := rfl
@[simp] theorem State.setLine_bl_trace (l : LineLevel) (s : State) : (State.setLine .bl l s).trace = s.trace := rfl
@[simp] theorem State.setLine_bl_results (l : LineLevel) (s : State) : (State.setLine .bl l s).results = s.results := rfl

@[simp] theorem drawPin_params (p : Pin) (s : State) : (drawPin p s).2.params = s.params := by cases p <;> rfl
@[simp] theorem drawPin_conn (p : Pin) (s : State) : (drawPin p s).2.conn = s.conn := by cases p <;> rfl
@[simp] theorem drawPin_cfg (p : Pin) (s : State) : (drawPin p s).2.cfg = s.cfg := by cases p <;> rfl
@[simp] theorem drawPin_dc (p : Pin) (s : State) : (drawPin p s).2.dc = s.dc := by cases p <;> rfl
@[simp] theorem drawPin_bl (p : Pin) (s : State) : (drawPin p s).2.bl = s.bl := by cases p <;> rfl
@[simp] theorem drawPin_rst (p : Pin) (s : State) : (drawPin p s).2.rst = s.rst := by cases p <;> rfl
@[simp] theorem drawPin_seqStep (p : Pin) (s : State) : (drawPin p s).2.seqStep = s.seqStep := by cases p <;> rfl
@[simp] theorem drawPin_port (p : Pin) (s : State) : (drawPin p s).2.port = s.port := by cases p <;> rfl
@[simp] theorem drawPin_trace (p : Pin) (s : State) : (drawPin p s).2.trace = s.trace := by cases p <;> rfl
@[simp] theorem drawPin_results (p : Pin) (s : State) : (drawPin p s).2.results = s.results := by cases p <;> rfl

/-- A draw reads the port's own oracle and takes its answer. -/
theorem drawPin_dc_eq (s : State) : drawPin .dc s = (s.oracle.nextDc, { s with oracle := s.oracle.takeDc }) := rfl

theorem drawPin_bl_eq (s : State) : drawPin .bl s = (s.oracle.nextBl, { s with oracle := s.oracle.takeBl }) := rfl

/-! A scripted answer is drawn, and only its own list is shorter by it. -/

theorem Oracle.nextOpen_of {o : Oracle} {a : OpenAnswer} {r : List OpenAnswer} (h : o.opens = a :: r) : o.nextOpen = a := by
  simp [Oracle.nextOpen, h]

theorem Oracle.takeOpen_of {o : Oracle} {a : OpenAnswer} {r : List OpenAnswer} (h : o.opens = a :: r) : o.takeOpen = { o with opens := r } := by
  simp [Oracle.takeOpen, h]

theorem Oracle.nextDc_of {o : Oracle} {a : PinAnswer} {r : List PinAnswer} (h : o.dc = a :: r) : o.nextDc = a := by
  simp [Oracle.nextDc, h]

theorem Oracle.takeDc_of {o : Oracle} {a : PinAnswer} {r : List PinAnswer} (h : o.dc = a :: r) : o.takeDc = { o with dc := r } := by
  simp [Oracle.takeDc, h]

theorem Oracle.nextBl_of {o : Oracle} {a : PinAnswer} {r : List PinAnswer} (h : o.bl = a :: r) : o.nextBl = a := by
  simp [Oracle.nextBl, h]

theorem Oracle.takeBl_of {o : Oracle} {a : PinAnswer} {r : List PinAnswer} (h : o.bl = a :: r) : o.takeBl = { o with bl := r } := by
  simp [Oracle.takeBl, h]

theorem Oracle.nextTx_of {o : Oracle} {a : TxAnswer} {r : List TxAnswer} (h : o.tx = a :: r) : o.nextTx = a := by
  simp [Oracle.nextTx, h]

theorem Oracle.takeTx_of {o : Oracle} {a : TxAnswer} {r : List TxAnswer} (h : o.tx = a :: r) : o.takeTx = { o with tx := r } := by
  simp [Oracle.takeTx, h]

/-! A draw leaves the other ports' lists alone. -/

@[simp] theorem Oracle.takeOpen_dc (o : Oracle) : o.takeOpen.dc = o.dc := by
  unfold Oracle.takeOpen
  split <;> rfl

@[simp] theorem Oracle.takeOpen_bl (o : Oracle) : o.takeOpen.bl = o.bl := by
  unfold Oracle.takeOpen
  split <;> rfl

@[simp] theorem Oracle.takeOpen_tx (o : Oracle) : o.takeOpen.tx = o.tx := by
  unfold Oracle.takeOpen
  split <;> rfl

@[simp] theorem Oracle.takeDc_opens (o : Oracle) : o.takeDc.opens = o.opens := by
  unfold Oracle.takeDc
  split <;> rfl

@[simp] theorem Oracle.takeDc_bl (o : Oracle) : o.takeDc.bl = o.bl := by
  unfold Oracle.takeDc
  split <;> rfl

@[simp] theorem Oracle.takeDc_tx (o : Oracle) : o.takeDc.tx = o.tx := by
  unfold Oracle.takeDc
  split <;> rfl

@[simp] theorem Oracle.takeBl_opens (o : Oracle) : o.takeBl.opens = o.opens := by
  unfold Oracle.takeBl
  split <;> rfl

@[simp] theorem Oracle.takeBl_dc (o : Oracle) : o.takeBl.dc = o.dc := by
  unfold Oracle.takeBl
  split <;> rfl

@[simp] theorem Oracle.takeBl_tx (o : Oracle) : o.takeBl.tx = o.tx := by
  unfold Oracle.takeBl
  split <;> rfl

@[simp] theorem Oracle.takeTx_opens (o : Oracle) : o.takeTx.opens = o.opens := by
  unfold Oracle.takeTx
  split <;> rfl

@[simp] theorem Oracle.takeTx_dc (o : Oracle) : o.takeTx.dc = o.dc := by
  unfold Oracle.takeTx
  split <;> rfl

@[simp] theorem Oracle.takeTx_bl (o : Oracle) : o.takeTx.bl = o.bl := by
  unfold Oracle.takeTx
  split <;> rfl

end Sys2Proof.Machine

namespace Sys2Proof.Safety

open Sys2Proof.Machine

@[simp] theorem played_params (es : List Event) (s : State) : (played es s).params =
    s.params := rfl
@[simp] theorem played_conn (es : List Event) (s : State) : (played es s).conn =
    s.conn := rfl
@[simp] theorem played_cfg (es : List Event) (s : State) : (played es s).cfg =
    s.cfg := rfl
@[simp] theorem played_dc (es : List Event) (s : State) : (played es s).dc =
    lineAfter .dc es s.dc := rfl
@[simp] theorem played_bl (es : List Event) (s : State) : (played es s).bl =
    lineAfter .bl es s.bl := rfl
@[simp] theorem played_rst (es : List Event) (s : State) : (played es s).rst =
    s.rst := rfl
@[simp] theorem played_seqStep (es : List Event) (s : State) : (played es s).seqStep =
    s.seqStep := rfl
@[simp] theorem played_port (es : List Event) (s : State) : (played es s).port =
    s.port := rfl
@[simp] theorem played_oracle (es : List Event) (s : State) : (played es s).oracle =
    { s.oracle with dc := s.oracle.dc.drop (pinCount .dc es), bl := s.oracle.bl.drop (pinCount .bl es), tx := s.oracle.tx.drop (txCount es) } := rfl
@[simp] theorem played_trace (es : List Event) (s : State) : (played es s).trace =
    s.trace ++ es.map (fun e => ⟨e, .ok⟩) := rfl
@[simp] theorem played_results (es : List Event) (s : State) : (played es s).results =
    s.results := rfl

end Sys2Proof.Safety
end

