-- ==== Sys2Proof/Laws/Ops.lean ====
section
/-! SUPPORT. What each shared operation can do, said once: the port primitives, the control notation, and which fields an
operation may touch. -/

namespace Sys2Proof.Machine

/-! The primitives, by the answer drawn. -/

theorem selectDc_ok {s : State} {ds : List PinAnswer} (lvl : Level) (h : s.oracle.dc = .ok :: ds) :
    selectDc lvl s = .done { s with
      dc := lineOf lvl, oracle := { s.oracle with dc := ds }, trace := s.trace ++ [⟨.pin .dc lvl, .ok⟩] } := by
  simp [selectDc, setPin, drawPin_dc_eq, Oracle.nextDc_of h, Oracle.takeDc_of h, State.log, State.setLine]

theorem selectDc_ioError {s : State} {ds : List PinAnswer} (lvl : Level) (h : s.oracle.dc = .ioError :: ds) :
    selectDc lvl s = .failed (.ioError .dcPin) { s with
      dc := .unknown, oracle := { s.oracle with dc := ds }, trace := s.trace ++ [⟨.pin .dc lvl, .ioError⟩] } := by
  simp [selectDc, setPin, drawPin_dc_eq, Oracle.nextDc_of h, Oracle.takeDc_of h, State.log, State.setLine]

/-- selectDc completes with the line at the level, or fails with the line UNKNOWN: nothing else. -/
theorem selectDc_cases (lvl : Level) (s : State) :
    (s.oracle.nextDc = .ok ∧ selectDc lvl s = .done { s with
        dc := lineOf lvl, oracle := s.oracle.takeDc,
        trace := s.trace ++ [⟨.pin .dc lvl, .ok⟩] }) ∨
      (s.oracle.nextDc = .ioError ∧ selectDc lvl s = .failed (.ioError .dcPin) { s with
        dc := .unknown, oracle := s.oracle.takeDc,
        trace := s.trace ++ [⟨.pin .dc lvl, .ioError⟩] }) := by
  cases h : s.oracle.nextDc <;>
    simp [selectDc, setPin, drawPin_dc_eq, h, State.log, State.setLine]

theorem sendTx_ok {s : State} {xs : List TxAnswer} (off : Nat) (bs : List Byte) (h : s.oracle.tx = .ok :: xs) :
    sendTx off bs s = .done { s with
      oracle := { s.oracle with tx := xs }, trace := s.trace ++ [⟨.tx s.dc bs, .ok⟩] } := by
  simp [sendTx, transact, Oracle.nextTx_of h, Oracle.takeTx_of h, State.log, answerOfTx]

theorem sendTx_ioError {s : State} {xs : List TxAnswer} (off : Nat) (bs : List Byte)
    (h : s.oracle.tx = .ioError :: xs) :
    sendTx off bs s = .failed (.ioError (.tx off)) { s with
      oracle := { s.oracle with tx := xs }, trace := s.trace ++ [⟨.tx s.dc bs, .ioError⟩] } := by
  simp [sendTx, transact, Oracle.nextTx_of h, Oracle.takeTx_of h, State.log, answerOfTx]

theorem sendTx_never {s : State} {xs : List TxAnswer} (off : Nat) (bs : List Byte) (h : s.oracle.tx = .never :: xs) :
    sendTx off bs s = .stalled { s with
      oracle := { s.oracle with tx := xs }, trace := s.trace ++ [⟨.tx s.dc bs, .never⟩] } := by
  simp [sendTx, transact, Oracle.nextTx_of h, Oracle.takeTx_of h, State.log, answerOfTx]

/-- A transaction of a send completes, fails at its offset, or never answers: nothing else. -/
theorem sendTx_cases (off : Nat) (bs : List Byte) (s : State) :
    (s.oracle.nextTx = .ok ∧ sendTx off bs s = .done { s with
        oracle := s.oracle.takeTx, trace := s.trace ++ [⟨.tx s.dc bs, .ok⟩] }) ∨
      (s.oracle.nextTx = .ioError ∧ sendTx off bs s = .failed (.ioError (.tx off)) { s with
        oracle := s.oracle.takeTx, trace := s.trace ++ [⟨.tx s.dc bs, .ioError⟩] }) ∨
      (s.oracle.nextTx = .never ∧ sendTx off bs s = .stalled { s with
        oracle := s.oracle.takeTx, trace := s.trace ++ [⟨.tx s.dc bs, .never⟩] }) := by
  cases h : s.oracle.nextTx <;> simp [sendTx, transact, h, State.log, answerOfTx]

/-! The control notation. -/

@[simp] theorem andThen_done (s : State) (k : State → Run) : (Run.done s).andThen k = k s := rfl
@[simp] theorem andThen_failed (e : BlockError) (s : State) (k : State → Run) :
    (Run.failed e s).andThen k = .failed e s := rfl
@[simp] theorem andThen_stalled (s : State) (k : State → Run) : (Run.stalled s).andThen k = .stalled s := rfl
@[simp] theorem andThen_refused (q : Refusal) (k : State → Run) : (Run.refused q).andThen k = .refused q := rfl

theorem andThen_assoc (r : Run) (f g : State → Run) :
    (r.andThen f).andThen g = r.andThen (fun t => (f t).andThen g) := by
  cases r <;> rfl

/-- An operation that answers a next state returned ok from its last line, or took an error. -/
theorem finish_next {r : Run} {t : State} (h : r.finish = .next t) :
    (∃ s, r = .done s ∧ t = s.complete .ok) ∨ (∃ e s, r = .failed e s ∧ t = s.raiseError e) := by
  cases r with
  | done s => simp only [Run.finish, Host.Outcome.next.injEq] at h; exact .inl ⟨s, rfl, h.symm⟩
  | failed e s => simp only [Run.finish, Host.Outcome.next.injEq] at h; exact .inr ⟨e, s, rfl, h.symm⟩
  | stalled s => simp [Run.finish] at h
  | refused q => simp [Run.finish] at h

/-- An operation that faults is stuck in a transaction. -/
theorem finish_fault {r : Run} {f : Fault} (h : r.finish = .fault f) : ∃ s, r = .stalled s ∧ f = .stalled s := by
  cases r with
  | stalled s => simp only [Run.finish, Host.Outcome.fault.injEq] at h; exact ⟨s, rfl, h.symm⟩
  | done s => simp [Run.finish] at h
  | failed e s => simp [Run.finish] at h
  | refused q => simp [Run.finish] at h

theorem whenConnected_closed {s : State} (op : State → Run) (h : s.conn = .closed) :
    whenConnected op s = .refused .notConnected := by
  simp [whenConnected, h]

theorem whenConnected_opened {s : State} (op : State → Run) (h : s.conn ≠ .closed) : whenConnected op s = op s := by
  unfold whenConnected
  split
  · exact absurd ‹_› h
  · rfl

/-! Which fields an operation may touch. -/

/-- From `s` to `t` an operation kept everything but the lines, the sequencer, the draws and the trace, which only
grew. -/
structure Keeps (s t : State) : Prop where
  params  : t.params = s.params
  conn    : t.conn = s.conn
  cfg     : t.cfg = s.cfg
  rst     : t.rst = s.rst
  port    : t.port = s.port
  opens   : t.oracle.opens = s.oracle.opens
  results : t.results = s.results
  trace   : ∃ es, t.trace = s.trace ++ es

theorem Keeps.rfl' (s : State) : Keeps s s := ⟨rfl, rfl, rfl, rfl, rfl, rfl, rfl, [], by simp⟩

theorem Keeps.trans {s t u : State} (h : Keeps s t) (k : Keeps t u) : Keeps s u := by
  obtain ⟨es, hes⟩ := h.trace
  obtain ⟨fs, hfs⟩ := k.trace
  exact ⟨k.params.trans h.params, k.conn.trans h.conn, k.cfg.trans h.cfg, k.rst.trans h.rst, k.port.trans h.port,
    k.opens.trans h.opens, k.results.trans h.results, es ++ fs, by rw [hfs, hes, List.append_assoc]⟩

/-- Wherever an operation has come, it kept those fields. -/
def RunKeeps (s : State) (r : Run) : Prop :=
  match r with
  | .done t => Keeps s t
  | .failed _ t => Keeps s t
  | .stalled t => Keeps s t
  | .refused _ => True

theorem RunKeeps.andThen {s : State} {r : Run} {k : State → Run} (h : RunKeeps s r)
    (hk : ∀ t, RunKeeps t (k t)) : RunKeeps s (r.andThen k) := by
  cases r with
  | done t =>
    have h2 := hk t
    simp only [andThen_done]
    cases hr : k t with
    | done u => rw [hr] at h2; exact Keeps.trans h h2
    | failed e u => rw [hr] at h2; exact Keeps.trans h h2
    | stalled u => rw [hr] at h2; exact Keeps.trans h h2
    | refused q => trivial
  | failed e t => exact h
  | stalled t => exact h
  | refused q => trivial

theorem setPin_keeps (p : Pin) (lvl : Level) (s : State) : Keeps s (setPin p lvl s).2 := by
  cases p
  · cases h : s.oracle.nextDc <;>
      exact ⟨by simp [setPin, drawPin_dc_eq, h], by simp [setPin, drawPin_dc_eq, h], by simp [setPin, drawPin_dc_eq, h],
        by simp [setPin, drawPin_dc_eq, h], by simp [setPin, drawPin_dc_eq, h], by simp [setPin, drawPin_dc_eq, h],
        by simp [setPin, drawPin_dc_eq, h], by simp [setPin, drawPin_dc_eq, h]⟩
  · cases h : s.oracle.nextBl <;>
      exact ⟨by simp [setPin, drawPin_bl_eq, h], by simp [setPin, drawPin_bl_eq, h], by simp [setPin, drawPin_bl_eq, h],
        by simp [setPin, drawPin_bl_eq, h], by simp [setPin, drawPin_bl_eq, h], by simp [setPin, drawPin_bl_eq, h],
        by simp [setPin, drawPin_bl_eq, h], by simp [setPin, drawPin_bl_eq, h]⟩

theorem selectDc_keeps (lvl : Level) (s : State) : RunKeeps s (selectDc lvl s) := by
  rcases selectDc_cases lvl s with ⟨-, h⟩ | ⟨-, h⟩ <;> rw [h] <;>
    exact ⟨rfl, rfl, rfl, rfl, rfl, Oracle.takeDc_opens _, rfl, _, rfl⟩

theorem sendTx_keeps (off : Nat) (bs : List Byte) (s : State) : RunKeeps s (sendTx off bs s) := by
  rcases sendTx_cases off bs s with ⟨-, h⟩ | ⟨-, h⟩ | ⟨-, h⟩ <;> rw [h] <;>
    exact ⟨rfl, rfl, rfl, rfl, rfl, Oracle.takeTx_opens _, rfl, _, rfl⟩

theorem sendCommandOp_keeps (bs : List Byte) (s : State) : RunKeeps s (sendCommandOp bs s) := by
  unfold sendCommandOp
  split
  · trivial
  · exact (selectDc_keeps _ _).andThen (fun t => sendTx_keeps _ _ t)

theorem sendChunks_keeps (cs : List (List Byte)) : ∀ (i : Nat) (s : State), RunKeeps s (sendChunks i cs s) := by
  induction cs with
  | nil => exact fun _ s => Keeps.rfl' s
  | cons c rest ih => exact fun i s => (sendTx_keeps _ _ _).andThen (fun t => ih _ t)

theorem sendDataOp_keeps (bs : List Byte) (s : State) : RunKeeps s (sendDataOp bs s) :=
  (selectDc_keeps _ _).andThen (fun t => sendChunks_keeps _ _ t)

theorem dataPhase_keeps (ps : List Byte) (s : State) : RunKeeps s (dataPhase ps s) := by
  unfold dataPhase
  split
  · exact Keeps.rfl' s
  · exact sendDataOp_keeps _ _

theorem settle_keeps (d : Option Nat) (s : State) : RunKeeps s (settle d s) := by
  cases d with
  | none => exact Keeps.rfl' s
  | some ms => exact ⟨rfl, rfl, rfl, rfl, rfl, rfl, rfl, _, rfl⟩

theorem emitUnit_keeps (u : CmdUnit) (s : State) : RunKeeps s (emitUnit u s) :=
  ((sendCommandOp_keeps _ _).andThen (fun t => dataPhase_keeps _ t)).andThen (fun t => settle_keeps _ t)

theorem asProtocolError_keeps {s : State} {r : Run} (k : Fin 20) (h : RunKeeps s r) :
    RunKeeps s (r.asProtocolError k) := by
  cases r with
  | failed e t => cases e <;> exact h
  | done t => exact h
  | stalled t => exact h
  | refused q => exact h

theorem seqStep_keeps (q : SeqStep) (s : State) : Keeps s { s with seqStep := q } :=
  ⟨rfl, rfl, rfl, rfl, rfl, rfl, rfl, [], by simp⟩

theorem initFrom_keeps (us : List CmdUnit) : ∀ (k : Nat) (s : State), RunKeeps s (initFrom k us s) := by
  induction us with
  | nil => exact fun _ s => seqStep_keeps _ s
  | cons u rest ih =>
    intro k s
    have h : RunKeeps s (emitUnit u { s with seqStep := .emitting (Fin.ofNat 20 k) }) :=
      RunKeeps.andThen (r := .done _) (seqStep_keeps (.emitting (Fin.ofNat 20 k)) s) (fun t => emitUnit_keeps u t)
    exact (asProtocolError_keeps _ h).andThen (fun t => ih _ t)

theorem initializeOp_keeps (s : State) : RunKeeps s (initializeOp s) := initFrom_keeps _ _ _

theorem backlightOp_keeps (enabled : Bool) (s : State) : Keeps s (backlightOp enabled s) := by
  unfold backlightOp
  split
  · exact setPin_keeps _ _ _
  · exact Keeps.rfl' s

theorem windowFrames_keeps (a0 b0 a1 b1 : Int) (s : State) : RunKeeps s (windowFrames a0 b0 a1 b1 s) :=
  ((((sendCommandOp_keeps _ _).andThen (fun t => sendDataOp_keeps _ t)).andThen
    (fun t => sendCommandOp_keeps _ t)).andThen (fun t => sendDataOp_keeps _ t)).andThen
    (fun t => sendCommandOp_keeps _ t)

theorem setWindowOp_keeps (x0 y0 x1 y1 : Int) (s : State) : RunKeeps s (setWindowOp x0 y0 x1 y1 s) := by
  unfold setWindowOp
  split
  · exact windowFrames_keeps _ _ _ _ _
  · trivial

theorem displayImageOp_keeps (x y : Int) (img : Image) (s : State) : RunKeeps s (displayImageOp x y img s) := by
  unfold displayImageOp
  dsimp only
  split
  · exact Keeps.rfl' s
  · exact (setWindowOp_keeps _ _ _ _ _).andThen (fun t => sendDataOp_keeps _ t)

theorem displayOp_keeps (raw : List Byte) (s : State) : RunKeeps s (displayOp raw s) :=
  (setWindowOp_keeps _ _ _ _ _).andThen (fun t => sendDataOp_keeps _ t)

theorem haltOp_keeps (s : State) : RunKeeps s (haltOp s) :=
  RunKeeps.andThen (r := .done _) (backlightOp_keeps false s) (fun t => sendCommandOp_keeps _ t)

end Sys2Proof.Machine
end

