-- ==== Sys2Proof/Laws/Follow.lean ====
section
/-! SUPPORT. Scripts: what following one does, by the answers drawn, and that the shared operations of
Machine/Protocol.lean and Machine/Streaming.lean are the runs of their scripts. -/

namespace Sys2Proof.Safety

open Sys2Proof.Machine

/-- One event of a script: the run ends here only if the failure is reported or the answer never comes. -/
def emitOne (e : Emission) (s : State) : Run :=
  match e.event with
  | .pin p lvl =>
    match setPin p lvl (stepOf e.step s) with
    | (.ok, t) => .done t
    | (.ioError, t) =>
      match e.error with
      | none => .done t
      | some err => .failed err t
  | .tx tag bs =>
    let s1 := stepOf e.step s
    let a := s1.oracle.nextTx
    let t := ({ s1 with oracle := s1.oracle.takeTx }).log (.tx tag bs) (answerOfTx a)
    match a with
    | .ok => .done t
    | .never => .stalled t
    | .ioError =>
      match e.error with
      | none => .done t
      | some err => .failed err t
  | .delay ms => .done ((stepOf e.step s).log (.delay ms) .ok)
  | .openPort clk mode bits => .done ((stepOf e.step s).log (.openPort clk mode bits) .ok)

/-- A script's run, ending where its events end. -/
def runScript (es : List Emission) (s : State) : Run :=
  match es with
  | [] => .done s
  | e :: rest => (emitOne e s).andThen (runScript rest)

/-- Following a script is running it and leaving the sequencer IDLE. -/
theorem follow_eq_runScript (es : List Emission) :
    ∀ s : State, follow es s = (runScript es s).andThen (fun t => .done { t with seqStep := .idle }) := by
  induction es with
  | nil => intro s; rfl
  | cons e rest ih =>
    intro s
    simp only [runScript, follow, emitOne]
    cases he : e.event with
    | pin p lvl =>
      simp only
      rcases hp : setPin p lvl (stepOf e.step s) with ⟨a, t⟩
      cases a with
      | ok => simp [ih]
      | ioError => cases e.error <;> simp [ih]
    | tx tag bs =>
      simp only
      cases (stepOf e.step s).oracle.nextTx with
      | ok => simp [ih]
      | never => simp
      | ioError => cases e.error <;> simp [ih]
    | delay ms => simp [ih]
    | openPort clk mode bits => simp [ih]

theorem runScript_append (a b : List Emission) :
    ∀ s : State, runScript (a ++ b) s = (runScript a s).andThen (runScript b) := by
  induction a with
  | nil => intro s; rfl
  | cons e rest ih =>
    intro s
    simp only [List.cons_append, runScript, andThen_assoc]
    congr 1
    funext t
    exact ih t

/-! The shared operations are runs of their scripts. -/

theorem sendCommandOp_eq_run {bs : List Byte} (h : bs ≠ []) (s : State) :
    sendCommandOp bs s = runScript (commandScript none bs) s := by
  have hl : bs.length ≠ 0 := by simpa using h
  rw [sendCommandOp, if_neg hl]
  rcases selectDc_cases .low s with ⟨hd, hs⟩ | ⟨hd, hs⟩
  · rw [hs]
    cases hx : s.oracle.takeDc.nextTx <;>
      simp [commandScript, runScript, emitOne, setPin, drawPin_dc_eq, hd, stepOf, sendTx, transact, hx, reported,
        State.log, State.setLine, lineOf]
  · rw [hs]
    simp [commandScript, runScript, emitOne, setPin, drawPin_dc_eq, hd, stepOf, reported, State.log, State.setLine]

theorem sendChunks_eq_run (cs : List (List Byte × Nat)) :
    ∀ (i : Nat) (s : State), s.dc = .high →
      (∀ (pre : List (List Byte × Nat)) (c : List Byte × Nat) (post : List (List Byte × Nat)),
        cs = pre ++ c :: post → c.2 = i + (pre.map (fun x => x.1.length)).sum) →
      sendChunks i (cs.map (fun c => c.1)) s =
        runScript (cs.map (fun c => ⟨none, .tx .high c.1, some (.ioError (.tx c.2))⟩)) s := by
  induction cs with
  | nil => intro i s _ _; rfl
  | cons c rest ih =>
    intro i s hs hoff
    have hc : c.2 = i := by simpa using hoff [] c rest rfl
    simp only [List.map_cons, sendChunks, runScript]
    cases hx : s.oracle.nextTx with
    | ok =>
      simp only [sendTx, transact, hx, answerOfTx, andThen_done, emitOne, stepOf, State.log, hs]
      refine ih _ _ rfl (fun pre d post hd => ?_)
      have := hoff (c :: pre) d post (by simp [hd])
      simpa [Nat.add_assoc] using this
    | ioError => simp [sendTx, transact, hx, answerOfTx, emitOne, stepOf, State.log, hs, hc]
    | never => simp [sendTx, transact, hx, answerOfTx, emitOne, stepOf, State.log, hs]

/-- The chunks before chunk `k` of a payload that has one hold `k*4096` bytes. -/
theorem chunk_offset (bs : List Byte) : ∀ k : Nat, k * 4096 < bs.length + 4096 →
    ((List.range k).map (fun j => (chunk j bs).length)).sum = min (k * 4096) bs.length := by
  intro k
  induction k with
  | zero => intro _; rw [Nat.zero_mul, Nat.zero_min]; rfl
  | succ k ih =>
    intro h
    rw [List.range_succ, List.map_append, List.sum_append,
      ih (Nat.lt_of_le_of_lt (Nat.mul_le_mul_right _ (Nat.le_succ k)) h)]
    simp only [List.map_cons, List.map_nil, List.sum_cons, List.sum_nil, chunk, chunkSize, List.length_take,
      List.length_drop]
    omega

theorem chunkCount_eq (n : Nat) : chunkCount n = (n + 4095) / 4096 := rfl

theorem sendDataOp_eq_run (bs : List Byte) (s : State) : sendDataOp bs s = runScript (dataScript none bs) s := by
  have key : ∀ t : State, t.dc = .high → sendChunks 0 (chunks bs) t =
      runScript ((List.range ((bs.length + 4095) / 4096)).map (fun k =>
        (⟨none, .tx .high ((bs.drop (k * 4096)).take 4096), some (reported none (.tx (k * 4096)))⟩ : Emission))) t := by
    intro t ht
    have h := sendChunks_eq_run ((List.range (chunkCount bs.length)).map (fun k => (chunk k bs, k * 4096))) 0 t ht (by
      intro pre c post hc
      obtain ⟨m, hm⟩ : ∃ m, m = pre.length := ⟨_, rfl⟩
      have hk : m < chunkCount bs.length := by
        have := congrArg List.length hc
        simp at this
        omega
      have hpre : pre = (List.range m).map (fun k => (chunk k bs, k * 4096)) := by
        have := congrArg (List.take m) hc
        rw [hm, List.take_left, ← hm, ← List.map_take, List.take_range, Nat.min_eq_left (Nat.le_of_lt hk)] at this
        exact this.symm
      have hcc : c = (chunk m bs, m * 4096) := by
        have := congrArg (fun l => l[m]?) hc
        simp only [hm, List.getElem?_append_right (Nat.le_refl _), Nat.sub_self] at this
        simpa [← hm, hk] using this.symm
      have hb : m * 4096 < bs.length := by rw [chunkCount_eq] at hk; omega
      rw [hpre, hcc]
      simp only [List.map_map, Function.comp_def, Nat.zero_add]
      rw [chunk_offset bs m (by omega)]
      omega)
    simp only [List.map_map, Function.comp_def] at h
    exact h
  rw [sendDataOp]
  rcases selectDc_cases .high s with ⟨hd, hs⟩ | ⟨hd, hs⟩
  · rw [hs, andThen_done, key _ rfl]
    simp [dataScript, runScript, emitOne, setPin, drawPin_dc_eq, hd, stepOf, reported, State.log, State.setLine, lineOf]
  · rw [hs]
    simp [dataScript, runScript, emitOne, setPin, drawPin_dc_eq, hd, stepOf, reported, State.log, State.setLine]

theorem dataPhase_eq_run (ps : List Byte) (s : State) :
    dataPhase ps s = runScript (if ps = [] then [] else dataScript none ps) s := by
  unfold dataPhase
  by_cases h : ps = []
  · simp [h, runScript]
  · rw [if_neg (by simpa using h), if_neg h, sendDataOp_eq_run]

theorem settle_eq_run (d : Option Nat) (s : State) :
    settle d s = runScript (d.toList.map (fun ms => (⟨none, .delay ms, none⟩ : Emission))) s := by
  cases d <;> rfl

theorem emitUnit_eq_run (u : CmdUnit) (s : State) : emitUnit u s = runScript (unitScript none s.params.opc u) s := by
  rw [emitUnit, unitScript, runScript_append, runScript_append, sendCommandOp_eq_run (by simp)]
  congr 1
  · congr 1
    funext t
    exact dataPhase_eq_run _ t
  · funext t
    exact settle_eq_run _ t

/-- The window of native coordinates is the run of its three units (41 R120). -/
theorem windowFrames_eq_run (a0 b0 a1 b1 : Int) (s : State) :
    windowFrames a0 b0 a1 b1 s = runScript
      (unitScript none s.params.opc ⟨.caset, addressParams a0 a1, none⟩ ++
        unitScript none s.params.opc ⟨.raset, addressParams b0 b1, none⟩ ++
        unitScript none s.params.opc ⟨.ramwr, [], none⟩) s := by
  have hc : ∀ b : Byte, sendCommandOp [b] = runScript (commandScript none [b]) :=
    fun b => funext (fun t => sendCommandOp_eq_run (by simp) t)
  have hd : ∀ ps : List Byte, sendDataOp ps = runScript (dataScript none ps) :=
    fun ps => funext (fun t => sendDataOp_eq_run ps t)
  rw [windowFrames, hc, hc, hc, hd, hd, ← runScript_append, ← runScript_append, ← runScript_append, ← runScript_append]
  simp [unitScript, addressParams, opcodeOf, List.append_assoc]

/-! Units inside initialize. -/

/-- An event of a unit as initialize emits it: it belongs to a step, and its IoError is that step's ProtocolError. -/
def inStep (k : Fin 20) (e : Emission) : Emission :=
  ⟨some k, e.event, e.error.map (fun err => match err with
    | .ioError c => .protocolError k c
    | other => other)⟩

theorem unitScript_inStep (k : Fin 20) (o : Opcodes) (u : CmdUnit) :
    unitScript (some k) o u = (unitScript none o u).map (inStep k) := by
  unfold unitScript
  split <;> simp [commandScript, dataScript, inStep, reported, Function.comp_def]

theorem asProtocolError_andThen (k : Fin 20) (r : Run) (f : State → Run) :
    (r.andThen f).asProtocolError k = (r.asProtocolError k).andThen (fun t => (f t).asProtocolError k) := by
  cases r with
  | failed e s => cases e <;> rfl
  | done s => rfl
  | stalled s => rfl
  | refused q => rfl

/-- A primitive leaves the sequencer alone. -/
theorem setPin_seqStep (p : Pin) (lvl : Level) (s : State) : (setPin p lvl s).2.seqStep = s.seqStep := by
  cases p
  · cases h : s.oracle.nextDc <;> simp [setPin, drawPin_dc_eq, h]
  · cases h : s.oracle.nextBl <;> simp [setPin, drawPin_bl_eq, h]

theorem emitOne_inStep {s : State} {k : Fin 20} {e : Emission} (hs : s.seqStep = .emitting k) (he : e.step = none) :
    emitOne (inStep k e) s = (emitOne e s).asProtocolError k ∧
      ∀ t, emitOne e s = .done t → t.seqStep = .emitting k := by
  obtain ⟨st, ev, er⟩ := e
  subst he
  have hst : { s with seqStep := SeqStep.emitting k } = s := by rw [← hs]
  cases ev with
  | pin p lvl =>
    have hq := setPin_seqStep p lvl s
    rcases hp : setPin p lvl s with ⟨a, u⟩
    rw [hp, hs] at hq
    cases a with
    | ok =>
      simp only [emitOne, inStep, stepOf, hst, hp, Run.asProtocolError, Run.done.injEq, forall_eq', true_and]
      exact hq
    | ioError =>
      cases er with
      | none =>
        simp only [emitOne, inStep, stepOf, hst, hp, Option.map_none, Run.asProtocolError, Run.done.injEq, forall_eq', true_and]
        exact hq
      | some err => cases err <;> simp [emitOne, inStep, stepOf, hst, hp, Run.asProtocolError]
  | tx tag bs =>
    simp only [emitOne, inStep, stepOf, hst]
    cases s.oracle.nextTx with
    | ok =>
      simp only [Run.asProtocolError, Run.done.injEq, forall_eq', true_and]
      exact hs
    | never => simp [Run.asProtocolError]
    | ioError =>
      cases er with
      | none =>
        simp only [Option.map_none, Run.asProtocolError, Run.done.injEq, forall_eq', true_and]
        exact hs
      | some err => cases err <;> simp [Run.asProtocolError]
  | delay ms =>
    simp only [emitOne, inStep, stepOf, hst, Run.asProtocolError, Run.done.injEq, forall_eq', true_and]
    exact hs
  | openPort clk mode bits =>
    simp only [emitOne, inStep, stepOf, hst, Run.asProtocolError, Run.done.injEq, forall_eq', true_and]
    exact hs

theorem runScript_inStep (k : Fin 20) (es : List Emission) : ∀ s : State, s.seqStep = .emitting k →
    (∀ e ∈ es, e.step = none) → runScript (es.map (inStep k)) s = (runScript es s).asProtocolError k := by
  induction es with
  | nil => intro s _ _; rfl
  | cons e rest ih =>
    intro s hs hn
    obtain ⟨h1, h2⟩ := emitOne_inStep hs (hn e (by simp))
    simp only [List.map_cons, runScript, asProtocolError_andThen, h1]
    cases he : emitOne e s with
    | done t => exact ih t (h2 t he) (fun x hx => hn x (by simp [hx]))
    | failed err t => cases err <;> rfl
    | stalled t => rfl
    | refused q => rfl

/-- A step's script sets the sequencer at its first event, so it may be set before. -/
theorem runScript_setStep (k : Fin 20) (o : Opcodes) (u : CmdUnit) (s : State) :
    runScript (unitScript (some k) o u) s =
      runScript (unitScript (some k) o u) { s with seqStep := .emitting k } := by
  simp [unitScript, commandScript, runScript, emitOne, stepOf]

theorem unitScript_step_none (o : Opcodes) (u : CmdUnit) : ∀ e ∈ unitScript none o u, e.step = none := by
  intro e he
  unfold unitScript at he
  split at he <;> simp only [commandScript, dataScript, List.append_nil, List.mem_append, List.mem_cons, List.mem_map,
    List.not_mem_nil, or_false] at he
  · rcases he with (rfl | rfl) | ⟨_, _, rfl⟩ <;> rfl
  · rcases he with ((rfl | rfl) | rfl | ⟨_, _, rfl⟩) | ⟨_, _, rfl⟩ <;> rfl

theorem emitUnit_inStep (k : Fin 20) (u : CmdUnit) (s : State) :
    (emitUnit u { s with seqStep := .emitting k }).asProtocolError k =
      runScript (unitScript (some k) s.params.opc u) s := by
  rw [runScript_setStep, unitScript_inStep, runScript_inStep k _ _ rfl (unitScript_step_none _ _), emitUnit_eq_run]

/-- A run of a script keeps the parameters. -/
theorem emitOne_params (e : Emission) (s t : State) (h : emitOne e s = .done t) : t.params = s.params := by
  obtain ⟨st, ev, er⟩ := e
  have hst : (stepOf st s).params = s.params := by cases st <;> rfl
  cases ev with
  | pin p lvl =>
    have hk := (setPin_keeps p lvl (stepOf st s)).params
    simp only [emitOne] at h
    rcases hp : setPin p lvl (stepOf st s) with ⟨a, u⟩
    rw [hp] at h hk
    cases a with
    | ok => simp only [Run.done.injEq] at h; rw [← h, hk, hst]
    | ioError => cases er with
      | none => simp only [Run.done.injEq] at h; rw [← h, hk, hst]
      | some err => simp at h
  | tx tag bs =>
    simp only [emitOne] at h
    split at h
    · simp only [Run.done.injEq] at h; rw [← h]; exact hst
    · simp at h
    · cases er with
      | none => simp only [Run.done.injEq] at h; rw [← h]; exact hst
      | some err => simp at h
  | delay ms => simp only [emitOne, Run.done.injEq] at h; rw [← h]; exact hst
  | openPort clk mode bits => simp only [emitOne, Run.done.injEq] at h; rw [← h]; exact hst

theorem runScript_params (es : List Emission) : ∀ s t : State, runScript es s = .done t → t.params = s.params := by
  induction es with
  | nil => intro s t h; simp only [runScript, Run.done.injEq] at h; rw [← h]
  | cons e rest ih =>
    intro s t h
    simp only [runScript] at h
    cases he : emitOne e s with
    | done u => rw [he, andThen_done] at h; rw [ih u t h, emitOne_params e s u he]
    | failed err u => rw [he] at h; simp at h
    | stalled u => rw [he] at h; simp at h
    | refused q => rw [he] at h; simp at h

theorem initFrom_eq_run (us : List CmdUnit) : ∀ (k : Nat) (s : State),
    initFrom k us s =
      (runScript ((us.mapIdx (fun j u => unitScript (some (Fin.ofNat 20 (k + j))) s.params.opc u)).flatten) s).andThen
        (fun t => .done { t with seqStep := .idle }) := by
  induction us with
  | nil => intro k s; rfl
  | cons u rest ih =>
    intro k s
    rw [initFrom, emitUnit_inStep, List.mapIdx_cons, List.flatten_cons, runScript_append, andThen_assoc, Nat.add_zero]
    cases h : runScript (unitScript (some (Fin.ofNat 20 k)) s.params.opc u) s with
    | done t =>
      rw [andThen_done, andThen_done, ih, runScript_params _ _ _ h]
      simp only [Nat.add_assoc, Nat.add_comm 1]
    | failed e t => rfl
    | stalled t => rfl
    | refused q => rfl

/-! Runs by the answers: every answer ok, or the first failure. -/

theorem played_nil (s : State) : played [] s = s := by
  simp [played, lineAfter, pinCount, txCount]

theorem played_cons (e : Event) (es : List Event) (s : State) : played (e :: es) s = played es (played [e] s) := by
  cases e with
  | pin p lvl => cases p <;> simp [played, lineAfter, pinCount, txCount, Nat.add_comm]
  | tx tag bs => simp [played, lineAfter, pinCount, txCount, Nat.add_comm]
  | delay ms => simp [played, lineAfter, pinCount, txCount]
  | openPort clk mode bits => simp [played, lineAfter, pinCount, txCount]

theorem played_append (a b : List Event) : ∀ s : State, played (a ++ b) s = played b (played a s) := by
  induction a with
  | nil => intro s; rw [played_nil]; rfl
  | cons e rest ih => intro s; rw [List.cons_append, played_cons, ih, ← played_cons]

@[simp] theorem pinCount_append (p : Pin) (a b : List Event) : pinCount p (a ++ b) = pinCount p a + pinCount p b := by
  simp [pinCount]

@[simp] theorem txCount_append (a b : List Event) : txCount (a ++ b) = txCount a + txCount b := by
  simp [txCount]

/-- A list that starts with `m + n` copies of a value starts with `m` copies, and `n` more follow them. -/
theorem take_add_replicate {α : Type} {l : List α} {a : α} {m n : Nat}
    (h : l.take (m + n) = List.replicate (m + n) a) :
    l.take m = List.replicate m a ∧ (l.drop m).take n = List.replicate n a := by
  have h1 := congrArg (List.take m) h
  have h2 := congrArg (List.drop m) h
  rw [List.take_take, List.take_replicate, Nat.min_eq_left (Nat.le_add_right m n)] at h1
  rw [List.drop_take, List.drop_replicate, Nat.add_sub_cancel_left] at h2
  exact ⟨h1, h2⟩

/-- Granting two lists in a row is granting the first, and the second from where it leaves the block. -/
theorem grants_append {a b : List Event} {s : State} (h : Grants s (a ++ b)) :
    Grants s a ∧ Grants (played a s) b := by
  obtain ⟨hd, hb, ht⟩ := h
  rw [pinCount_append] at hd hb
  rw [txCount_append] at ht
  obtain ⟨d1, d2⟩ := take_add_replicate hd
  obtain ⟨b1, b2⟩ := take_add_replicate hb
  obtain ⟨t1, t2⟩ := take_add_replicate ht
  exact ⟨⟨d1, b1, t1⟩, ⟨d2, b2, t2⟩⟩

theorem take_one_eq {α : Type} {l : List α} {a : α} (h : l.take 1 = List.replicate 1 a) : ∃ r, l = a :: r := by
  cases l with
  | nil => simp at h
  | cons b r => exact ⟨r, by simpa using h⟩

/-- An event that is granted completes, whatever its failure would have been reported as. -/
theorem emitOne_granted {e : Emission} {s : State} (h : Grants s [e.event]) :
    emitOne e s = .done (stepOf e.step (played [e.event] s)) := by
  obtain ⟨st, ev, er⟩ := e
  obtain ⟨hd, hb, ht⟩ := h
  cases ev with
  | pin p lvl =>
    cases p with
    | dc =>
      obtain ⟨r, hr⟩ := take_one_eq (by simpa [pinCount] using hd)
      cases st <;> simp [emitOne, setPin, drawPin_dc_eq, Oracle.nextDc, Oracle.takeDc, stepOf, hr, State.setLine, State.log, played, lineAfter,
        pinCount, txCount]
    | bl =>
      obtain ⟨r, hr⟩ := take_one_eq (by simpa [pinCount] using hb)
      cases st <;> simp [emitOne, setPin, drawPin_bl_eq, Oracle.nextBl, Oracle.takeBl, stepOf, hr, State.setLine, State.log, played, lineAfter,
        pinCount, txCount]
  | tx tag bs =>
    obtain ⟨r, hr⟩ := take_one_eq (by simpa [txCount] using ht)
    cases st <;> simp [emitOne, Oracle.nextTx, Oracle.takeTx, stepOf, hr, State.log, played, lineAfter, pinCount, txCount, answerOfTx]
  | delay ms => cases st <;> simp [emitOne, stepOf, State.log, played, lineAfter, pinCount, txCount]
  | openPort clk mode bits => cases st <;> simp [emitOne, stepOf, State.log, played, lineAfter, pinCount, txCount]

/-- Where the sequencer stands after a script. -/
def stepAfter (es : List Emission) (q : SeqStep) : SeqStep :=
  match es with
  | [] => q
  | e :: rest => stepAfter rest (match e.step with
    | none => q
    | some k => .emitting k)

theorem stepAfter_none {es : List Emission} (h : ∀ e ∈ es, e.step = none) (q : SeqStep) : stepAfter es q = q := by
  induction es generalizing q with
  | nil => rfl
  | cons e rest ih =>
    rw [stepAfter, h e (by simp)]
    exact ih (fun x hx => h x (by simp [hx])) q

theorem played_seqStep_comm (es : List Event) (q : SeqStep) (s : State) :
    played es { s with seqStep := q } = { played es s with seqStep := q } := rfl

theorem stepOf_played (st : Option (Fin 20)) (es : List Event) (s : State) :
    stepOf st (played es s) = played es (stepOf st s) := by cases st <;> rfl

/-- A script whose every event is granted runs to its end. -/
theorem runScript_granted (es : List Emission) : ∀ s : State, Grants s (es.map (fun e => e.event)) →
    runScript es s = .done { played (es.map (fun e => e.event)) s with seqStep := stepAfter es s.seqStep } := by
  induction es with
  | nil => intro s _; rw [List.map_nil, played_nil]; rfl
  | cons e rest ih =>
    intro s h
    rw [List.map_cons] at h
    obtain ⟨h1, h2⟩ := grants_append (a := [e.event]) h
    have h3 : Grants (stepOf e.step (played [e.event] s)) (rest.map (fun e => e.event)) := by
      cases e.step <;> exact h2
    rw [runScript, emitOne_granted h1, andThen_done, ih _ h3, List.map_cons,
      played_cons e.event (rest.map (fun e => e.event)) s, stepAfter]
    cases e.step <;> rfl

theorem drop_eq_cons {α : Type} {l : List α} {n : Nat} {a : α} (h : l[n]? = some a) : ∃ r, l.drop n = a :: r := by
  obtain ⟨hn, rfl⟩ := List.getElem?_eq_some_iff.1 h
  exact ⟨l.drop (n + 1), List.drop_eq_getElem_cons hn⟩

/-- An event that fails after others were granted ends the script, if its failure is reported: the block stops in the
state `stoppedAt` describes. -/
theorem runScript_fails {a b : List Emission} {e : Emission} {err : BlockError} {s : State}
    (he : e.error = some err) (h : FailsAt s (a.map (fun x => x.event)) e.event) :
    ∃ q, runScript (a ++ e :: b) s =
      .failed err { stoppedAt (a.map (fun x => x.event)) e.event s with seqStep := q } := by
  obtain ⟨hg, hf⟩ := h
  obtain ⟨st, ev, er⟩ := e
  subst he
  rw [runScript_append, runScript_granted a s hg, andThen_done, runScript]
  cases ev with
  | pin p lvl =>
    cases p with
    | bl => exact absurd hf id
    | dc =>
      simp only at hf
      obtain ⟨r, hr⟩ : ∃ r, s.oracle.dc.drop (pinCount .dc (a.map (fun x => x.event))) = .ioError :: r :=
        drop_eq_cons hf
      cases st with
      | none => exact ⟨_, by simp [emitOne, setPin, drawPin_dc_eq, Oracle.nextDc, Oracle.takeDc, stepOf, hr, State.setLine, State.log, stoppedAt]; rfl⟩
      | some k =>
        exact ⟨_, by simp [emitOne, setPin, drawPin_dc_eq, Oracle.nextDc, Oracle.takeDc, stepOf, hr, State.setLine, State.log, stoppedAt]; rfl⟩
  | tx tag bs =>
    simp only at hf
    obtain ⟨r, hr⟩ : ∃ r, s.oracle.tx.drop (txCount (a.map (fun x => x.event))) = .ioError :: r := drop_eq_cons hf
    cases st with
    | none => exact ⟨_, by simp [emitOne, Oracle.nextTx, Oracle.takeTx, stepOf, hr, State.log, stoppedAt, answerOfTx]; rfl⟩
    | some k => exact ⟨_, by simp [emitOne, Oracle.nextTx, Oracle.takeTx, stepOf, hr, State.log, stoppedAt, answerOfTx]; rfl⟩
  | delay ms => exact absurd hf id
  | openPort clk mode bits => exact absurd hf id

end Sys2Proof.Safety
end

