-- ==== Sys2Proof/Laws/Operands.lean ====
section
/-! SUPPORT. What the operand forms of Machine/Operands.lean are, said once: low bytes, the checks as propositions, the
bytes of a pair, and lists built column by column. -/

namespace Sys2Proof.Machine

theorem lo8_byteInt (a : Byte) : lo8 (byteInt a) = a := by
  unfold lo8 byteInt
  apply BitVec.eq_of_toNat_eq
  simp

/-- The last byte of an area that starts at `a` and is `b` long. -/
theorem lo8_last (a b : Byte) : lo8 (byteInt a + byteInt b - 1) = a + b - 1 := by
  unfold lo8 byteInt
  apply BitVec.eq_of_toNat_eq
  have := a.isLt
  have := b.isLt
  simp only [BitVec.toNat_ofInt, BitVec.toNat_sub, BitVec.toNat_add]
  simp
  omega

theorem last_toNat (a b : Byte) (h1 : 1 ≤ b.toNat) (h2 : a.toNat + b.toNat ≤ 162) :
    (a + b - 1).toNat = a.toNat + b.toNat - 1 := by
  simp only [BitVec.toNat_sub, BitVec.toNat_add]
  simp
  omega

theorem geometryOk_iff (g : Geometry) : geometryOk g = true ↔
    1 ≤ g.w.toNat ∧ 1 ≤ g.h.toNat ∧ g.offL.toNat + g.w.toNat ≤ 132 ∧ g.offT.toNat + g.h.toNat ≤ 162 :=
  ⟨fun h => of_decide_eq_true h, fun h => decide_eq_true h⟩

theorem inByteRange_iff (v : Int) : inByteRange v = true ↔ 0 ≤ v ∧ v ≤ 255 :=
  ⟨fun h => of_decide_eq_true h, fun h => decide_eq_true h⟩

theorem clip_empty_iff (k : Clip) : k.empty = true ↔ k.cx1 ≤ k.cx0 ∨ k.cy1 ≤ k.cy0 :=
  ⟨fun h => of_decide_eq_true h, fun h => decide_eq_true h⟩

theorem clip_nonempty_iff (k : Clip) : k.empty = false ↔ ¬(k.cx1 ≤ k.cx0 ∨ k.cy1 ≤ k.cy0) :=
  ⟨fun h => of_decide_eq_false h, fun h => decide_eq_false h⟩

/-- The two bytes of a big-endian pair, high byte first. -/
theorem be16_bytes (v : Word16) : be16 v = [BitVec.ofNat 8 (v.toNat / 256), BitVec.ofNat 8 (v.toNat % 256)] := by
  simp only [be16, List.cons.injEq, and_true]
  constructor
  · apply BitVec.eq_of_toNat_eq
    simp [Nat.shiftRight_eq_div_pow]
  · apply BitVec.eq_of_toNat_eq
    simp

theorem pixelBytes_length (p : Pixel) : (pixelBytes p).length = 2 := rfl

/-- A list of `n` blocks of `m` items each has `n * m` items. -/
theorem flatMap_range_length {α : Type} (n m : Nat) (f : Nat → List α) (h : ∀ i, (f i).length = m) :
    ((List.range n).flatMap f).length = n * m := by
  induction n with
  | zero => simp
  | succ n ih =>
    rw [List.range_succ, List.flatMap_append, List.length_append, ih]
    simp [h, Nat.succ_mul]

/-- Item `i*m + j` of it is item `j` of block `i`. -/
theorem flatMap_range_get {α : Type} (n m : Nat) (f : Nat → List α) (h : ∀ i, (f i).length = m) (i j : Nat)
    (hi : i < n) (hj : j < m) : ((List.range n).flatMap f)[i * m + j]? = (f i)[j]? := by
  induction n with
  | zero => omega
  | succ n ih =>
    rw [List.range_succ, List.flatMap_append]
    have hl := flatMap_range_length n m f h
    by_cases hin : i < n
    · rw [List.getElem?_append_left, ih hin]
      have h2 : (i + 1) * m ≤ n * m := Nat.mul_le_mul_right _ hin
      rw [Nat.succ_mul] at h2
      omega
    · have h3 : i = n := by omega
      subst h3
      rw [List.getElem?_append_right (by rw [hl]; omega), hl]
      simp

/-- The five power-control commands, one by one. -/
theorem vector5_toList {α : Type} (v : Vector α 5) : v.toList = [v[0], v[1], v[2], v[3], v[4]] := by
  rcases v with ⟨⟨l⟩, h⟩
  match l, h with
  | [a, b, c, d, e], _ => rfl

end Sys2Proof.Machine
end

