-- ==== Sys2Proof/Laws/PerInstr.lean ====
section
/-! SUPPORT. A family of statements about every instruction as syntax: the request that stands for it is a call with a
code of 30 R61, or a unit with its command's opcode and as many parameter bytes as 30 R64 counts. -/

namespace Sys2Proof.Laws.UnitLength

open Sys2Proof.Machine

/-- 30 R61, R63, R64: a host operation's request carries its code; a unit's has the parameter bytes of its command. -/
def Statement (i : Instr) : Prop :=
  ∀ o : Opcodes,
    match encode o i with
    | .call c => ∃ op, c.code = hostCode op
    | .unit b ps => ∃ c, b = opcodeOf o c ∧ ps.length = paramCount c

theorem connect (sel : PinId) (rst bl : Option PinId) (geom : Option Geometry) : Statement (.connect sel rst bl geom) := fun _ => ⟨.connect, rfl⟩

theorem initializePanel : Statement .initializePanel := fun _ => ⟨.initializePanel, rfl⟩

theorem sendCommand (bs : List Byte) : Statement (.sendCommand bs) := fun _ => ⟨.sendCommand, rfl⟩

theorem sendData (bs : List Byte) : Statement (.sendData bs) := fun _ => ⟨.sendData, rfl⟩

theorem sleep : Statement .sleep := fun _ => ⟨.sleep, rfl⟩

theorem setBacklight (v : Bool) : Statement (.setBacklight v) := fun _ => ⟨.setBacklight, rfl⟩

theorem setWindow (x0 y0 x1 y1 : Int) : Statement (.setWindow x0 y0 x1 y1) := fun _ => ⟨.setWindow, rfl⟩

theorem displayImage (x y : Int) (img : Image) : Statement (.displayImage x y img) := fun _ => ⟨.displayImage, rfl⟩

theorem display (raw : List Byte) : Statement (.display raw) := fun _ => ⟨.display, rfl⟩

theorem powersave : Statement .powersave := fun _ => ⟨.powersave, rfl⟩

theorem halt : Statement .halt := fun _ => ⟨.halt, rfl⟩

theorem rgb565 (r g b a : Byte) : Statement (.rgb565 r g b a) := fun _ => ⟨.rgb565, rfl⟩

theorem swreset : Statement .swreset := fun _ => ⟨.swreset, rfl, rfl⟩

theorem slpin : Statement .slpin := fun _ => ⟨.slpin, rfl, rfl⟩

theorem slpout : Statement .slpout := fun _ => ⟨.slpout, rfl, rfl⟩

theorem noron : Statement .noron := fun _ => ⟨.noron, rfl, rfl⟩

theorem invoff : Statement .invoff := fun _ => ⟨.invoff, rfl, rfl⟩

theorem invon : Statement .invon := fun _ => ⟨.invon, rfl, rfl⟩

theorem dispon : Statement .dispon := fun _ => ⟨.dispon, rfl, rfl⟩

theorem caset (x0 x1 : Byte) : Statement (.caset x0 x1) := fun _ => ⟨.caset, rfl, rfl⟩

theorem raset (y0 y1 : Byte) : Statement (.raset y0 y1) := fun _ => ⟨.raset, rfl, rfl⟩

theorem ramwr : Statement .ramwr := fun _ => ⟨.ramwr, rfl, rfl⟩

theorem madctl (v : Byte) : Statement (.madctl v) := fun _ => ⟨.madctl, rfl, rfl⟩

theorem colmod (v : Byte) : Statement (.colmod v) := fun _ => ⟨.colmod, rfl, rfl⟩

theorem frmctr1 (ps : Vector Byte 3) : Statement (.frmctr1 ps) := fun _ => ⟨.frmctr1, rfl, ps.length_toList⟩

theorem frmctr2 (ps : Vector Byte 3) : Statement (.frmctr2 ps) := fun _ => ⟨.frmctr2, rfl, ps.length_toList⟩

theorem frmctr3 (ps : Vector Byte 6) : Statement (.frmctr3 ps) := fun _ => ⟨.frmctr3, rfl, ps.length_toList⟩

theorem invctr (v : Byte) : Statement (.invctr v) := fun _ => ⟨.invctr, rfl, rfl⟩

theorem pwctr1 (ps : Vector Byte 3) : Statement (.pwctr1 ps) := fun _ => ⟨.pwctr1, rfl, ps.length_toList⟩

theorem pwctr2 (ps : Vector Byte 2) : Statement (.pwctr2 ps) := fun _ => ⟨.pwctr2, rfl, ps.length_toList⟩

theorem pwctr3 (ps : Vector Byte 2) : Statement (.pwctr3 ps) := fun _ => ⟨.pwctr3, rfl, ps.length_toList⟩

theorem pwctr4 (ps : Vector Byte 2) : Statement (.pwctr4 ps) := fun _ => ⟨.pwctr4, rfl, ps.length_toList⟩

theorem pwctr5 (ps : Vector Byte 2) : Statement (.pwctr5 ps) := fun _ => ⟨.pwctr5, rfl, ps.length_toList⟩

theorem vmctr1 (v : Byte) : Statement (.vmctr1 v) := fun _ => ⟨.vmctr1, rfl, rfl⟩

theorem gmctrp1 (ps : Vector Byte 16) : Statement (.gmctrp1 ps) := fun _ => ⟨.gmctrp1, rfl, ps.length_toList⟩

theorem gmctrn1 (ps : Vector Byte 16) : Statement (.gmctrn1 ps) := fun _ => ⟨.gmctrn1, rfl, ps.length_toList⟩

end Sys2Proof.Laws.UnitLength
end

