-- ==== Sys2Proof/Laws/Runs.lean ====
section
/-! SUPPORT. Runs of scripts: what a run leaves, whatever the answers, and that every operation on a connected block is
the run of its script. -/

namespace Sys2Proof.Safety

open Sys2Proof.Machine

/-! The events and the steps of the scripts. -/

theorem unitScript_events (st : Option (Fin 20)) (o : Opcodes) (u : CmdUnit) :
    (unitScript st o u).map (fun e => e.event) = unitEvents o u := by
  unfold unitScript unitEvents frameEvents
  split <;> simp [commandScript, commandEvents, dataScript, dataEvents, Function.comp_def]

theorem dataScript_events (st : Option (Fin 20)) (bs : List Byte) :
    (dataScript st bs).map (fun e => e.event) = dataEvents bs := by
  simp [dataScript, dataEvents, Function.comp_def]

theorem commandScript_step_none (bs : List Byte) : ∀ e ∈ commandScript none bs, e.step = none := by
  intro e he
  simp only [commandScript, List.mem_cons, List.not_mem_nil, or_false] at he
  rcases he with rfl | rfl <;> rfl

theorem dataScript_step_none (bs : List Byte) : ∀ e ∈ dataScript none bs, e.step = none := by
  intro e he
  simp only [dataScript, List.mem_cons, List.mem_map] at he
  rcases he with rfl | ⟨_, _, rfl⟩ <;> rfl

theorem backlightScript_step_none (p : Params) (c : Cfg) (en : Bool) : ∀ e ∈ backlightScript p c en, e.step = none := by
  unfold backlightScript
  split <;> simp

/-! Any run. -/

/-- A run keeps everything but the lines, the sequencer, the draws and the trace. -/
theorem runScript_keeps (es : List Emission) : ∀ s : State, RunKeeps s (runScript es s) := by
  induction es with
  | nil => exact Keeps.rfl'
  | cons e rest ih =>
    intro s
    refine RunKeeps.andThen ?_ (fun t => ih t)
    obtain ⟨st, ev, er⟩ := e
    have k0 : Keeps s (stepOf st s) := by
      cases st
      · exact Keeps.rfl' s
      · exact seqStep_keeps _ s
    cases ev with
    | pin p lvl =>
      have hk := k0.trans (setPin_keeps p lvl (stepOf st s))
      simp only [emitOne]
      generalize setPin p lvl (stepOf st s) = q at hk
      obtain ⟨a, t⟩ := q
      cases a with
      | ok => exact hk
      | ioError => cases er <;> exact hk
    | tx tag bs =>
      have hk : ∀ a, Keeps s (({ stepOf st s with oracle := (stepOf st s).oracle.takeTx } : State).log (.tx tag bs) a) :=
        fun a => k0.trans ⟨rfl, rfl, rfl, rfl, rfl, Oracle.takeTx_opens _, rfl, _, rfl⟩
      simp only [emitOne]
      cases (stepOf st s).oracle.nextTx with
      | ok => exact hk _
      | never => exact hk _
      | ioError => cases er <;> exact hk _
    | delay ms => exact k0.trans ⟨rfl, rfl, rfl, rfl, rfl, rfl, rfl, _, rfl⟩
    | openPort a b c => exact k0.trans ⟨rfl, rfl, rfl, rfl, rfl, rfl, rfl, _, rfl⟩

/-- Only a backlight write or a delay goes unreported. -/
def Reports (e : Emission) : Prop := e.error = none → (∃ lvl, e.event = .pin .bl lvl) ∨ ∃ ms, e.event = .delay ms

/-- What one event of a script leaves on the trace. -/
def OneLeaves (e : Emission) (s : State) (r : Run) : Prop :=
  match r with
  | .done t => ∃ a, t.trace = s.trace ++ [⟨e.event, a⟩] ∧ a ≠ .never ∧ (a = .ok ∨ ∃ lvl, e.event = .pin .bl lvl)
  | .failed err t => ∃ a, t.trace = s.trace ++ [⟨e.event, a⟩] ∧ a ≠ .never ∧ a ≠ .ok ∧ e.error = some err ∧
      ∀ lvl, e.event = .pin .dc lvl → t.dc = .unknown
  | .stalled t => (∃ tag bs, e.event = .tx tag bs) ∧ t.trace = s.trace ++ [⟨e.event, .never⟩]
  | .refused _ => False

theorem emitOne_leaves {e : Emission} (h : Reports e) (s : State) : OneLeaves e s (emitOne e s) := by
  obtain ⟨st, ev, er⟩ := e
  have hst : (stepOf st s).trace = s.trace := by cases st <;> rfl
  cases ev with
  | pin p lvl =>
    cases p with
    | dc =>
      cases er with
      | none => rcases h rfl with ⟨l, h⟩ | ⟨l, h⟩ <;> cases h
      | some err =>
        cases hh : (stepOf st s).oracle.nextDc <;>
          simp [OneLeaves, emitOne, setPin, drawPin_dc_eq, hh, hst]
    | bl =>
      cases hh : (stepOf st s).oracle.nextBl with
      | ok => simp [OneLeaves, emitOne, setPin, drawPin_bl_eq, hh, hst]
      | ioError => cases er <;> simp [OneLeaves, emitOne, setPin, drawPin_bl_eq, hh, hst]
  | tx tag bs =>
    cases er with
    | none => rcases h rfl with ⟨l, h⟩ | ⟨l, h⟩ <;> cases h
    | some err => cases hh : (stepOf st s).oracle.nextTx <;> simp [OneLeaves, emitOne, hh, hst, answerOfTx]
  | delay ms => simp [OneLeaves, emitOne, hst]
  | openPort a b c => simp [OneLeaves, emitOne, hst]

/-- An entry answered, and answered ok unless it is a backlight write. -/
def Passed (x : Entry) : Prop := x.answer ≠ .never ∧ (x.answer = .ok ∨ ∃ lvl, x.event = .pin .bl lvl)

/-- What a script's run leaves on the trace: all its events; those up to the failing one; or an unanswered transaction. -/
def RunLeaves (es : List Emission) (s : State) (r : Run) : Prop :=
  match r with
  | .done t => ∃ xs : List Entry, t.trace = s.trace ++ xs ∧ xs.map (fun x => x.event) = es.map (fun e => e.event) ∧
      ∀ x ∈ xs, Passed x
  | .failed err t => ∃ (xs : List Entry) (last : Entry), t.trace = s.trace ++ xs ++ [last] ∧
      (∃ post, es.map (fun e => e.event) = xs.map (fun x => x.event) ++ last.event :: post) ∧ (∀ x ∈ xs, Passed x) ∧
      last.answer ≠ .never ∧ last.answer ≠ .ok ∧ (∃ e ∈ es, e.error = some err) ∧
      ∀ lvl, last.event = .pin .dc lvl → t.dc = .unknown
  | .stalled t => ∃ (xs : List Entry) (tag : LineLevel) (bs : List Byte), t.trace = s.trace ++ xs ++ [⟨.tx tag bs, .never⟩]
  | .refused _ => False

theorem runScript_leaves (es : List Emission) (h : ∀ e ∈ es, Reports e) : ∀ s, RunLeaves es s (runScript es s) := by
  induction es with
  | nil => exact fun s => ⟨[], by simp, rfl, by simp⟩
  | cons e rest ih =>
    intro s
    have h1 := emitOne_leaves (h e (by simp)) s
    rw [runScript]
    cases hr : emitOne e s with
    | done t =>
      rw [hr] at h1
      obtain ⟨a, ht, ha, hb⟩ := h1
      have h2 := ih (fun x hx => h x (by simp [hx])) t
      have hcons : ∀ xs : List Entry, (∀ x ∈ xs, Passed x) → ∀ x ∈ (⟨e.event, a⟩ : Entry) :: xs, Passed x := by
        intro xs hx x hm
        rcases List.mem_cons.1 hm with rfl | hm
        · exact ⟨ha, hb⟩
        · exact hx x hm
      rw [andThen_done]
      cases hq : runScript rest t with
      | done u =>
        rw [hq] at h2
        obtain ⟨xs, hL, hm, hx⟩ := h2
        exact ⟨⟨e.event, a⟩ :: xs, by rw [hL, ht]; simp, by simp [hm], hcons xs hx⟩
      | failed err u =>
        rw [hq] at h2
        obtain ⟨xs, last, hL, ⟨post, hm⟩, hx, h3, h4, ⟨d, hd, h5⟩, h6⟩ := h2
        exact ⟨⟨e.event, a⟩ :: xs, last, by rw [hL, ht]; simp, ⟨post, by simp [hm]⟩, hcons xs hx, h3, h4,
          ⟨d, by simp [hd], h5⟩, h6⟩
      | stalled u =>
        rw [hq] at h2
        obtain ⟨xs, tag, bs, hL⟩ := h2
        exact ⟨⟨e.event, a⟩ :: xs, tag, bs, by rw [hL, ht]; simp⟩
      | refused q => rw [hq] at h2; exact h2
    | failed err t =>
      rw [hr] at h1
      obtain ⟨a, ht, ha, hb, hc, hd⟩ := h1
      exact ⟨[], ⟨e.event, a⟩, by rw [ht]; simp, ⟨rest.map (fun e => e.event), by simp⟩, by simp, ha, hb,
        ⟨e, by simp, hc⟩, hd⟩
    | stalled t =>
      rw [hr] at h1
      obtain ⟨⟨tag, bs, he⟩, ht⟩ := h1
      exact ⟨[], tag, bs, by rw [ht, he]; simp⟩
    | refused q => rw [hr] at h1; exact h1

/-- Where a run has come. -/
def runState (r : Run) : Option State :=
  match r with
  | .done t => some t
  | .failed _ t => some t
  | .stalled t => some t
  | .refused _ => none

/-- A script outside initialize leaves the sequencer alone. -/
theorem runScript_seqStep (es : List Emission) (he : ∀ e ∈ es, e.step = none) :
    ∀ s t : State, runState (runScript es s) = some t → t.seqStep = s.seqStep := by
  induction es with
  | nil => intro s t h; cases h; rfl
  | cons e rest ih =>
    intro s t h
    have h1 : ∀ u, runState (emitOne e s) = some u → u.seqStep = s.seqStep := by
      obtain ⟨st, ev, er⟩ := e
      have hst : st = none := he ⟨st, ev, er⟩ (by simp)
      subst hst
      intro u hu
      cases ev with
      | pin p lvl =>
        have hq := setPin_seqStep p lvl s
        simp only [emitOne, stepOf] at hu
        rcases hp : setPin p lvl s with ⟨a, v⟩
        rw [hp] at hq hu
        cases a with
        | ok => cases hu; exact hq
        | ioError => cases er <;> cases hu <;> exact hq
      | tx tag bs =>
        simp only [emitOne, stepOf] at hu
        cases ha : s.oracle.nextTx with
        | ok => rw [ha] at hu; cases hu; rfl
        | never => rw [ha] at hu; cases hu; rfl
        | ioError => rw [ha] at hu; cases er <;> cases hu <;> rfl
      | delay ms => cases hu; rfl
      | openPort a b c => cases hu; rfl
    rw [runScript] at h
    cases hr : emitOne e s with
    | done u =>
      rw [hr, andThen_done] at h
      exact (ih (fun x hx => he x (by simp [hx])) u t h).trans (h1 u (by rw [hr]; rfl))
    | failed err u => rw [hr] at h; cases h; exact h1 t (by rw [hr]; rfl)
    | stalled u => rw [hr] at h; cases h; exact h1 t (by rw [hr]; rfl)
    | refused q => rw [hr] at h; cases h

/-! The operations are the runs of their scripts. -/

/-- set_window is refused where it has no script, else it is its script's run. -/
theorem setWindowOp_cases (x0 y0 x1 y1 : Int) (s : State) :
    (windowScript s.params s.cfg x0 y0 x1 y1 = none ∧ setWindowOp x0 y0 x1 y1 s = .refused .windowRange) ∨
      ∃ es, windowScript s.params s.cfg x0 y0 x1 y1 = some es ∧ (∀ e ∈ es, e.step = none) ∧
        setWindowOp x0 y0 x1 y1 s = runScript es s := by
  unfold windowScript setWindowOp
  by_cases h : inByteRange (nativeCol s.cfg x0) = true ∧ inByteRange (nativeCol s.cfg x1) = true ∧
      inByteRange (nativeRow s.cfg y0) = true ∧ inByteRange (nativeRow s.cfg y1) = true
  · right
    rw [if_pos h]
    refine ⟨_, rfl, fun e he => ?_, ?_⟩
    · simp only [List.mem_append] at he
      rcases he with (he | he) | he <;> exact unitScript_step_none _ _ e he
    · rw [if_pos (by simp [h]), windowFrames_eq_run]
  · left
    exact ⟨if_neg h, if_neg (by simpa [and_assoc] using h)⟩

theorem backlightOp_eq_run (en : Bool) (s : State) :
    runScript (backlightScript s.params s.cfg en) s = .done (backlightOp en s) := by
  unfold backlightScript backlightOp
  split
  · simp only [runScript, emitOne, stepOf]
    rcases setPin .bl (if en = true then s.params.blOnLevel else opposite s.params.blOnLevel) s with ⟨a, t⟩
    cases a <;> rfl
  · rfl

/-- initialize is the run of its units' scripts, over the table it reads. -/
theorem initializeOp_eq_run (s : State) : initializeOp s =
    (runScript (((initTable s.params s.cfg).mapIdx
      (fun k u => unitScript (some (Fin.ofNat 20 k)) s.params.opc u)).flatten) s).andThen
      (fun t => .done { t with seqStep := .idle }) := by
  rw [initializeOp, initFrom_eq_run]
  simp only [Nat.zero_add]

end Sys2Proof.Safety
end

