-- ==== Sys2Proof/Machine/Text.lean ====
section
/-! DEFINITION. The textual syntax of spec/30_encoding.md R69: the events of a trace and the calls of a host program, one
a line. No step uses it. -/

namespace Sys2Proof.Machine

/-- A hexadecimal digit. -/
def hexDigit (n : Nat) : Char := (['0', '1', '2', '3', '4', '5', '6', '7', '8', '9', 'A', 'B', 'C', 'D', 'E', 'F'])[n]?.getD '?'

/-- A byte as `0xNN` (00 R11, 30 R69). -/
def byteText (b : Byte) : String := "0x" ++ String.ofList [hexDigit (b.toNat / 16), hexDigit (b.toNat % 16)]

/-- Items separated by commas. -/
def commaText (sep : String) (items : List String) : String :=
  match items with
  | [] => ""
  | [a] => a
  | a :: rest => a ++ sep ++ commaText sep rest

/-- A byte sequence as `[b, ...]`. -/
def bytesText (bs : List Byte) : String := "[" ++ commaText ", " (bs.map byteText) ++ "]"

/-- A driven level. -/
def levelText (l : Level) : String :=
  match l with
  | .low => "LOW"
  | .high => "HIGH"

/-- A pin. -/
def pinText (p : Pin) : String :=
  match p with
  | .dc => "DC"
  | .bl => "BL"

/-- An event. `CMD` and `DAT` are the shorthands of 30 R69; a command-phase `Tx` of another length has none and is
written out (95 section 2.4). -/
def eventText (e : Event) : String :=
  match e with
  | .openPort clk mode bits => "OPEN " ++ toString clk ++ " " ++ toString mode ++ " " ++ toString bits
  | .pin p l => "PIN " ++ pinText p ++ " " ++ levelText l
  | .tx .low [b] => "CMD " ++ byteText b
  | .tx .low bs => "Tx(LOW, " ++ bytesText bs ++ ")"
  | .tx .high bs => "DAT " ++ bytesText bs
  | .tx .unknown bs => "Tx(UNKNOWN, " ++ bytesText bs ++ ")"
  | .delay ms => "DLY " ++ toString ms

/-- An answer other than ok "is written after the event" (30 R69). A transaction that never answers leaves nothing. -/
def answerText (a : Answer) : String :=
  match a with
  | .ok => ""
  | .ioError => " -> IoError"
  | .connectionError => " -> ConnectionError"
  | .never => ""

/-- One line of a trace. -/
def entryText (e : Entry) : String := eventText e.event ++ answerText e.answer

/-- A trace as its lines. -/
def traceText (t : List Entry) : List String := t.map entryText

/-- yes or no. -/
def yesNo (b : Bool) : String := if b then "yes" else "no"

/-- true or false. -/
def boolText (b : Bool) : String := if b then "true" else "false"

/-- The geometry operand of connect, with what follows it. -/
def geometryText (g : Option Geometry) : String :=
  match g with
  | none => ""
  | some g =>
    "geometry=(" ++ commaText "," ([g.w, g.h, g.offL, g.offT].map (fun b => toString b.toNat)) ++ "), "

/-- A line of a host program; 30 R69 gives no line for rgb565 and none for a unit. An image is written `IMG`. -/
def callText (i : Instr) : Option String :=
  match i with
  | .connect _ rst bl g =>
    some ("connect(" ++ geometryText g ++ "rst=" ++ yesNo rst.isSome ++ ", bl=" ++ yesNo bl.isSome ++ ")")
  | .initializePanel => some "initialize()"
  | .sendCommand bs => some ("send_command(" ++ bytesText bs ++ ")")
  | .sendData bs => some ("send_data(" ++ bytesText bs ++ ")")
  | .sleep => some "sleep()"
  | .setBacklight v => some ("set_backlight(" ++ boolText v ++ ")")
  | .setWindow x0 y0 x1 y1 => some ("set_window(" ++ commaText "," ([x0, y0, x1, y1].map toString) ++ ")")
  | .displayImage x y _ => some ("display_image(" ++ toString x ++ "," ++ toString y ++ ",IMG)")
  | .display raw => some ("display(" ++ bytesText raw ++ ")")
  | .powersave => some "powersave()"
  | .halt => some "halt()"
  | _ => none

end Sys2Proof.Machine
end

