-- ==== Sys2Proof/Tests/Slice0.lean ====
section
/-! SUPPORT. The model's own tests: well-formedness, one written-out word for every constructor, the vectors and programs of
spec/95_test_vectors.md, and a witness for the hypotheses of every statement. Each expected value is the spec's. -/

set_option maxRecDepth 100000

namespace Sys2Proof.Tests

open Sys2Proof Sys2Proof.Machine Sys2Proof.Safety

/-! Helpers. -/

/-- The connected block of State.reset with these answers scripted. -/
def ready (dc bl : List PinAnswer) (tx : List TxAnswer) : State := { State.reset with oracle := ⟨[], dc, bl, tx, 0⟩ }

/-- The same with enough further answers ok for any one operation here. -/
def granted (dc bl : List PinAnswer) (tx : List TxAnswer) : State :=
  ready (dc ++ List.replicate 40 .ok) (bl ++ List.replicate 40 .ok) (tx ++ List.replicate 40 .ok)

/-- The connected block with every port answering ok (95, opening). -/
def allOk : State := granted [] [] []

/-- The block before connect with this answer of `Open` scripted. -/
def unopened (a : OpenAnswer) : State := { State.beforeConnect with oracle := ⟨[a], [], [], [], 0⟩ }

/-- The same block without a backlight pin. -/
def withoutBl (s : State) : State := { s with cfg := { s.cfg with hasBl := false } }

def nextOf (o : Host.Outcome State Fault Refusal) : Option State :=
  match o with
  | .next t => some t
  | .fault _ => none
  | .refused _ => none

def refusalIn (o : Host.Outcome State Fault Refusal) : Option Refusal :=
  match o with
  | .next _ => none
  | .fault _ => none
  | .refused r => some r

/-- The entries an operation appended, and the results it returned. -/
def emitted (i : Instr) (s : State) : Option (List Entry × List Result) :=
  (nextOf (exec i s)).map (fun t => (t.trace.drop s.trace.length, t.results.drop s.results.length))

/-- The lines of those entries in the syntax of 30 R69. -/
def lines (i : Instr) (s : State) : Option (List String) := (emitted i s).map (fun p => traceText p.1)

/-- The events of those entries, their lengths only for a data phase: for the chunk vectors. -/
def chunkLengths (i : Instr) (s : State) : Option (List Nat) :=
  (emitted i s).map (fun p => p.1.filterMap (fun x => match x.event with
    | .tx .high bs => some bs.length
    | _ => none))

def eventsOf (i : Instr) (s : State) : Option (List Event) := (emitted i s).map (fun p => p.1.map (fun x => x.event))

/-- Program P2's image (95 section 3): the other pixels are any values. -/
def imgP2 : Image where
  minX := 0
  minY := 0
  maxX := 4
  maxY := 3
  pixels :=
    [⟨255, 0, 0, 255⟩, ⟨0, 0, 255, 255⟩, ⟨9, 9, 9, 9⟩, ⟨9, 9, 9, 9⟩,
     ⟨0, 255, 0, 255⟩, ⟨255, 255, 255, 0⟩, ⟨9, 9, 9, 9⟩, ⟨9, 9, 9, 9⟩,
     ⟨9, 9, 9, 9⟩, ⟨9, 9, 9, 9⟩, ⟨9, 9, 9, 9⟩, ⟨9, 9, 9, 9⟩]

/-- Program P5's image (95 section 3): the pixel at `(ix, iy)` is `(8*ix, 4*iy, 0, 255)`. -/
def imgP5 : Image where
  minX := 0
  minY := 0
  maxX := 10
  maxY := 10
  pixels := (List.range 100).map (fun n => ⟨BitVec.ofNat 8 (8 * (n % 10)), BitVec.ofNat 8 (4 * (n / 10)), 0, 255⟩)

/-- An image that lacks a pixel of its bounds. -/
def imgShort : Image := ⟨0, 0, 2, 1, [⟨0, 0, 0, 0⟩]⟩

/-! Well-formedness: the one check there is, and a term it refuses. -/

theorem test_wellformed_image : (Instr.displayImage 0 0 imgP2).wellFormed = true := by decide

theorem test_illformed_image_refused : (Instr.displayImage 0 0 imgShort).wellFormed = false ∧
    decode opcodesDefault (.call ⟨0x08#8, [.int 0, .int 0, .image imgShort]⟩) = .error (.badOperands 0x08#8) := by decide

/-! Decoding: a word for every constructor, written from 30 R61 (the code) and 30 R61's operands. -/

theorem test_decode_host_first :
    decode opcodesDefault (.call ⟨0x01#8, [.pin 7, .optPin none, .optPin (some 5), .optGeometry (some ⟨132, 162, 0, 0⟩)]⟩) =
      .ok (.connect 7 none (some 5) (some ⟨132, 162, 0, 0⟩)) ∧
    decode opcodesDefault (.call ⟨0x02#8, []⟩) = .ok .initializePanel ∧
    decode opcodesDefault (.call ⟨0x03#8, [.bytes [0x2A, 0x00]]⟩) = .ok (.sendCommand [0x2A, 0x00]) ∧
    decode opcodesDefault (.call ⟨0x04#8, [.bytes []]⟩) = .ok (.sendData []) ∧
    decode opcodesDefault (.call ⟨0x05#8, []⟩) = .ok .sleep ∧
    decode opcodesDefault (.call ⟨0x06#8, [.flag true]⟩) = .ok (.setBacklight true) := by decide

theorem test_decode_host_second :
    decode opcodesDefault (.call ⟨0x07#8, [.int (-26), .int (-1), .int 0, .int 1]⟩) = .ok (.setWindow (-26) (-1) 0 1) ∧
    decode opcodesDefault (.call ⟨0x08#8, [.int 78, .int 158, .image imgP2]⟩) = .ok (.displayImage 78 158 imgP2) ∧
    decode opcodesDefault (.call ⟨0x09#8, [.bytes [0xF8, 0x00]]⟩) = .ok (.display [0xF8, 0x00]) ∧
    decode opcodesDefault (.call ⟨0x0A#8, []⟩) = .ok .powersave ∧
    decode opcodesDefault (.call ⟨0x0B#8, []⟩) = .ok .halt ∧
    decode opcodesDefault (.call ⟨0x0C#8, [.byte 1, .byte 2, .byte 3, .byte 4]⟩) = .ok (.rgb565 1 2 3 4) := by decide

/-- 30 R64: the opcode bytes of the commands without parameters. -/
theorem test_decode_plain_units :
    decode opcodesDefault (.unit 0x01#8 []) = .ok .swreset ∧ decode opcodesDefault (.unit 0x10#8 []) = .ok .slpin ∧
    decode opcodesDefault (.unit 0x11#8 []) = .ok .slpout ∧ decode opcodesDefault (.unit 0x13#8 []) = .ok .noron ∧
    decode opcodesDefault (.unit 0x20#8 []) = .ok .invoff ∧ decode opcodesDefault (.unit 0x21#8 []) = .ok .invon ∧
    decode opcodesDefault (.unit 0x29#8 []) = .ok .dispon ∧ decode opcodesDefault (.unit 0x2C#8 []) = .ok .ramwr := by
  decide

/-- 30 R64, R65: the commands with one parameter and the address sets. -/
theorem test_decode_short_units :
    decode opcodesDefault (.unit 0x2A#8 [0x00, 0x1A, 0x00, 0x69]) = .ok (.caset 0x1A 0x69) ∧
    decode opcodesDefault (.unit 0x2B#8 [0x00, 0x01, 0x00, 0xA0]) = .ok (.raset 0x01 0xA0) ∧
    decode opcodesDefault (.unit 0x36#8 [0xC8]) = .ok (.madctl 0xC8) ∧
    decode opcodesDefault (.unit 0x3A#8 [0x05]) = .ok (.colmod 0x05) ∧
    decode opcodesDefault (.unit 0xB4#8 [0x07]) = .ok (.invctr 0x07) ∧
    decode opcodesDefault (.unit 0xC5#8 [0x0E]) = .ok (.vmctr1 0x0E) := by decide

/-- 30 R64: the commands with two parameters or more. -/
theorem test_decode_long_units :
    decode opcodesDefault (.unit 0xB1#8 [1, 2, 3]) = .ok (.frmctr1 #v[1, 2, 3]) ∧
    decode opcodesDefault (.unit 0xB2#8 [1, 2, 3]) = .ok (.frmctr2 #v[1, 2, 3]) ∧
    decode opcodesDefault (.unit 0xB3#8 [1, 2, 3, 4, 5, 6]) = .ok (.frmctr3 #v[1, 2, 3, 4, 5, 6]) ∧
    decode opcodesDefault (.unit 0xC0#8 [1, 2, 3]) = .ok (.pwctr1 #v[1, 2, 3]) ∧
    decode opcodesDefault (.unit 0xC1#8 [1, 2]) = .ok (.pwctr2 #v[1, 2]) ∧
    decode opcodesDefault (.unit 0xC2#8 [1, 2]) = .ok (.pwctr3 #v[1, 2]) ∧
    decode opcodesDefault (.unit 0xC3#8 [1, 2]) = .ok (.pwctr4 #v[1, 2]) ∧
    decode opcodesDefault (.unit 0xC4#8 [1, 2]) = .ok (.pwctr5 #v[1, 2]) ∧
    decode opcodesDefault (.unit 0xE0#8 [0, 1, 2, 3, 4, 5, 6, 7, 8, 9, 10, 11, 12, 13, 14, 15]) =
      .ok (.gmctrp1 #v[0, 1, 2, 3, 4, 5, 6, 7, 8, 9, 10, 11, 12, 13, 14, 15]) ∧
    decode opcodesDefault (.unit 0xE1#8 [0, 1, 2, 3, 4, 5, 6, 7, 8, 9, 10, 11, 12, 13, 14, 15]) =
      .ok (.gmctrn1 #v[0, 1, 2, 3, 4, 5, 6, 7, 8, 9, 10, 11, 12, 13, 14, 15]) := by decide

/-- Requests that are no instruction (30 R61, R64, R65, R67; assumptions 6, 7). -/
theorem test_decode_refuses :
    decode opcodesDefault (.call ⟨0x00#8, []⟩) = .error (.unknownOp 0x00) ∧
    decode opcodesDefault (.call ⟨0x0D#8, []⟩) = .error (.unknownOp 0x0D) ∧
    decode opcodesDefault (.call ⟨0x05#8, [.int 0]⟩) = .error (.badOperands 0x05) ∧
    decode opcodesDefault (.unit 0x12#8 []) = .error (.unknownCommand 0x12) ∧
    decode opcodesDefault (.unit 0xC2#8 [1]) = .error (.badParameters 0xC2) ∧
    decode opcodesDefault (.unit 0x2A#8 [0x01, 0x1A, 0x00, 0x69]) = .error (.badParameters 0x2A) := by decide

/-- Words numbered as the opcode table numbers them; byte 0x01 reads as connect (assumption 8). -/
theorem test_table_words :
    decodeTableWord 8 0x0A = some .powersave ∧ decodeTableWord 8 0x29 = some .dispon ∧
    decodeTableWord 40 0x69001A002A = some (.caset 0x1A 0x69) ∧ decodeTableWord 8 0xC2 = some (.pwctr3 #v[0, 0]) ∧
    decodeTableWord 8 0x01 = some (.connect 0 none none none) ∧ decodeTableWord 8 0x00 = none := by decide

/-- The very next step runs the placed word: SLPIN's frame (95 2.6). -/
theorem test_placed_word_runs :
    (nextOf (step (allOk.withFetchWord 8 0x10))).map (fun t => t.trace.drop 1) =
      some [⟨.pin .dc .low, .ok⟩, ⟨.tx .low [0x10], .ok⟩] := by decide

/-! The vectors of 95 sections 1 and 2, and the programs of section 3. -/

/-- 95 2.7: connect with no geometry. -/
theorem test_connect : lines (.connect 0 none (some 1) none) (unopened .ok) = some ["OPEN 4000000 0 8"] ∧
    (nextOf (exec (.connect 0 none (some 1) none) (unopened .ok))).map (fun t => t.cfg) =
      some ⟨80, 160, 26, 1, false, true, false⟩ := by decide

/-- 95 2.7: the geometries that are refused, and the one at the edge that is not. -/
theorem test_connect_geometries :
    refusalIn (exec (.connect 0 none none (some ⟨80, 160, 53, 1⟩)) (unopened .ok)) = some .geometryInvalid ∧
    refusalIn (exec (.connect 0 none none (some ⟨80, 162, 26, 1⟩)) (unopened .ok)) = some .geometryInvalid ∧
    refusalIn (exec (.connect 0 none none (some ⟨0, 160, 26, 1⟩)) (unopened .ok)) = some .geometryInvalid ∧
    (emitted (.connect 0 none none (some ⟨132, 162, 0, 0⟩)) (unopened .ok)).map (fun p => p.2) = some [.ok] ∧
    lines (.connect 0 none none none) (unopened .connectionError) = some ["OPEN 4000000 0 8 -> ConnectionError"] := by
  decide

/-- 95 P1: the command bytes in order, every data byte, the count of events, and the delays. -/
theorem test_initialize_p1 :
    (eventsOf .initializePanel allOk).map (fun es => (commandBytes es, dataBytes es, es.length, delaysOf es)) =
      some ([0x01, 0x11, 0xB1, 0xB2, 0xB3, 0xB4, 0xC0, 0xC1, 0xC3, 0xC4, 0xC5, 0x20, 0x36, 0x3A, 0x2A, 0x2B, 0xE0, 0xE1,
        0x13, 0x29],
        [0x01, 0x2C, 0x2D, 0x01, 0x2C, 0x2D, 0x01, 0x2C, 0x2D, 0x01, 0x2C, 0x2D, 0x07, 0xA2, 0x02, 0x84, 0x0A, 0x00,
         0x8A, 0x2A, 0x8A, 0xEE, 0x0E, 0xC8, 0x05, 0x00, 0x1A, 0x00, 0x69, 0x00, 0x01, 0x00, 0xA0, 0x02, 0x1C, 0x07, 0x12,
         0x37, 0x32, 0x29, 0x2D, 0x29, 0x25, 0x2B, 0x39, 0x00, 0x01, 0x03, 0x10, 0x03, 0x1D, 0x07, 0x06, 0x2E, 0x2C, 0x29,
         0x2D, 0x2E, 0x2E, 0x37, 0x3F, 0x00, 0x00, 0x02, 0x10], 74, [150, 500, 100, 100]) := by decide

/-- 95 V-INIT-4 and program P4: the fourth transaction fails. -/
theorem test_initialize_fails_at_step_2 :
    (emitted .initializePanel (granted [] [] [.ok, .ok, .ok, .ioError])).map (fun p =>
      (traceText (p.1.drop 6), p.1.length, p.2)) =
      some (["PIN DC LOW", "CMD 0xB1", "PIN DC HIGH", "DAT [0x01, 0x2C, 0x2D] -> IoError"], 10,
        [.error (.protocolError 2 (.tx 0))]) := by decide

/-- 95 2.4: two command bytes in one transaction. -/
theorem test_send_command_two_bytes :
    lines (.sendCommand [0x2A, 0x00]) allOk = some ["PIN DC LOW", "Tx(LOW, [0x2A, 0x00])"] := by decide

/-- 95 2.4: the DC pin fails. -/
theorem test_send_command_dc_fails :
    (nextOf (exec (.sendCommand [0x2C]) (granted [.ioError] [] []))).map (fun t => (t.dc, t.results.drop 1)) =
      some (.unknown, [.error (.ioError .dcPin)]) := by decide

/-- 95 2.4 and S10: 4097 bytes are two transactions, the second of one byte. -/
theorem test_send_data_chunks :
    chunkLengths (.sendData (List.replicate 4097 0)) allOk = some [4096, 1] := by decide

/-- 95 2.4: the second transaction of 8192 bytes fails, at offset 4096. -/
theorem test_send_data_fails :
    (emitted (.sendData (List.replicate 8192 0)) (granted [] [] [.ok, .ioError])).map (fun p =>
      (p.1.map (fun x => x.answer), p.2)) = some ([.ok, .ok, .ioError], [.error (.ioError (.tx 4096))]) := by decide

/-- 95 2.6: sleep and powersave. -/
theorem test_sleep : lines .sleep allOk = some ["PIN DC LOW", "CMD 0x10"] := by decide

theorem test_powersave : lines .powersave allOk = some ["PIN DC LOW", "CMD 0x10"] := by decide

/-- 95 2.6: set_backlight with the pin failing, and without a pin. -/
theorem test_set_backlight_fails :
    (nextOf (exec (.setBacklight true) (granted [] [.ioError] []))).map (fun t => (t.bl, traceText (t.trace.drop 1), t.results)) =
      some (.unknown, ["PIN BL HIGH -> IoError"], [.ok, .ok]) := by decide

theorem test_set_backlight_without_pin :
    emitted (.setBacklight false) (withoutBl allOk) = some ([], [.ok]) := by decide

/-- 95 2.2: set_window(-26,-1,0,0), all ten events. -/
theorem test_set_window :
    lines (.setWindow (-26) (-1) 0 0) allOk = some
      ["PIN DC LOW", "CMD 0x2A", "PIN DC HIGH", "DAT [0x00, 0x00, 0x00, 0x1A]", "PIN DC LOW", "CMD 0x2B", "PIN DC HIGH",
       "DAT [0x00, 0x00, 0x00, 0x01]", "PIN DC LOW", "CMD 0x2C"] := by decide

/-- 95 2.2: the edges of the refusal, and a start after the end. -/
theorem test_set_window_edges :
    refusalIn (exec (.setWindow (-27) 0 0 0) allOk) = some .windowRange ∧
    refusalIn (exec (.setWindow 0 0 230 0) allOk) = some .windowRange ∧
    (eventsOf (.setWindow 0 0 229 0) allOk).map dataBytes = some [0x00, 0x1A, 0x00, 0xFF, 0x00, 0x01, 0x00, 0x01] ∧
    (eventsOf (.setWindow 10 20 5 3) allOk).map dataBytes = some [0x00, 0x24, 0x00, 0x1F, 0x00, 0x15, 0x00, 0x04] := by
  decide

/-- 95 P2: the window and the eight pixel bytes, column by column. -/
theorem test_display_image_p2 :
    (eventsOf (.displayImage 78 158 imgP2) allOk).map (fun es => (es.length, dataBytes es)) =
      some (12, [0x00, 0x68, 0x00, 0x69, 0x00, 0x9F, 0x00, 0xA0, 0xF8, 0x00, 0x07, 0xE0, 0x00, 0x1F, 0xFF, 0xFF]) := by
  decide

/-- 95 P5 and V-CLIP-3: a negative origin; V-CLIP-1: an empty clip. -/
theorem test_display_image_p5 :
    (eventsOf (.displayImage (-5) (-5) imgP5) allOk).map (fun es =>
      ((dataBytes es).take 16, (dataBytes es).drop 56, (dataBytes es).length)) =
      some ([0x00, 0x1A, 0x00, 0x1E, 0x00, 0x01, 0x00, 0x05, 0x28, 0xA0, 0x28, 0xC0, 0x28, 0xE0, 0x29, 0x00],
        [0x49, 0x20], 58) ∧
    emitted (.displayImage 1000 0 imgP2) allOk = some ([], [.ok]) := by decide

/-- 95 P3 and 41 R124: the full window, then the bytes as they are, however few. -/
theorem test_display :
    (eventsOf (.display [0xAA, 0xBB, 0xCC]) allOk).map dataBytes =
      some [0x00, 0x1A, 0x00, 0x69, 0x00, 0x01, 0x00, 0xA0, 0xAA, 0xBB, 0xCC] := by decide

/-- 95 2.6: halt, and halt with both ports failing. -/
theorem test_halt : lines .halt allOk = some ["PIN BL LOW", "PIN DC LOW", "CMD 0x10"] := by decide

theorem test_halt_fails :
    emitted .halt (granted [] [.ioError] [.ioError]) =
      some ([⟨.pin .bl .low, .ioError⟩, ⟨.pin .dc .low, .ok⟩, ⟨.tx .low [0x10], .ioError⟩],
        [.error (.ioError (.tx 0))]) := by decide

/-- 95 2.1. -/
theorem test_rgb565 :
    packRgb565 0x12 0x34 0x56 0 = 0x11AA#16 ∧ packRgb565 0xAB 0xCD 0xEF 9 = 0xAE7D#16 ∧
    packRgb565 0x10 0x20 0x30 0 = 0x1106#16 ∧ packRgb565 0x80 0x80 0x80 255 = 0x8410#16 ∧
    packRgb565 7 3 7 0 = 0x0000#16 ∧ packRgb565 8 4 8 0 = 0x0821#16 ∧ packRgb565 0xF8 0xFC 0xF8 0 = 0xFFFF#16 ∧
    packRgb565 0x07 0xFF 0x00 0 = 0x07E0#16 ∧ pixelBytes ⟨0x12, 0x34, 0x56, 0⟩ = [0x11, 0xAA] := by decide

/-- rgb565 runs before connect too (42 R140). -/
theorem test_rgb565_before_connect :
    emitted (.rgb565 255 0 0 0) State.beforeConnect = some ([], [.colour 0xF800#16]) := by decide

/-- Units as they stand in P1 (95 section 3): lines 1 to 3, 4 to 6, 69 to 71, 72 to 74. -/
theorem test_settling_units :
    lines .swreset allOk = some ["PIN DC LOW", "CMD 0x01", "DLY 150"] ∧
    lines .slpout allOk = some ["PIN DC LOW", "CMD 0x11", "DLY 500"] ∧
    lines .noron allOk = some ["PIN DC LOW", "CMD 0x13", "DLY 100"] ∧
    lines .dispon allOk = some ["PIN DC LOW", "CMD 0x29", "DLY 100"] := by decide

/-- 95 P1 lines 43, 44 and 2.2, 2.5, 2.6: one command phase. -/
theorem test_plain_units :
    lines .slpin allOk = some ["PIN DC LOW", "CMD 0x10"] ∧
    lines .invoff allOk = some ["PIN DC LOW", "CMD 0x20"] ∧
    lines .invon allOk = some ["PIN DC LOW", "CMD 0x21"] ∧
    lines .ramwr allOk = some ["PIN DC LOW", "CMD 0x2C"] := by decide

/-- 95 P1 lines 7 to 22: the frame rate units and INVCTR. -/
theorem test_frame_rate_units :
    lines (.frmctr1 #v[0x01, 0x2C, 0x2D]) allOk =
      some ["PIN DC LOW", "CMD 0xB1", "PIN DC HIGH", "DAT [0x01, 0x2C, 0x2D]"] ∧
    lines (.frmctr2 #v[0x01, 0x2C, 0x2D]) allOk =
      some ["PIN DC LOW", "CMD 0xB2", "PIN DC HIGH", "DAT [0x01, 0x2C, 0x2D]"] ∧
    lines (.frmctr3 #v[0x01, 0x2C, 0x2D, 0x01, 0x2C, 0x2D]) allOk =
      some ["PIN DC LOW", "CMD 0xB3", "PIN DC HIGH", "DAT [0x01, 0x2C, 0x2D, 0x01, 0x2C, 0x2D]"] ∧
    lines (.invctr 0x07) allOk = some ["PIN DC LOW", "CMD 0xB4", "PIN DC HIGH", "DAT [0x07]"] := by decide

/-- 95 P1 lines 23 to 42: the power units; PWCTR3 from 30 R88's opcode. -/
theorem test_power_units :
    lines (.pwctr1 #v[0xA2, 0x02, 0x84]) allOk =
      some ["PIN DC LOW", "CMD 0xC0", "PIN DC HIGH", "DAT [0xA2, 0x02, 0x84]"] ∧
    lines (.pwctr2 #v[0x0A, 0x00]) allOk = some ["PIN DC LOW", "CMD 0xC1", "PIN DC HIGH", "DAT [0x0A, 0x00]"] ∧
    lines (.pwctr3 #v[0x0A, 0x00]) allOk = some ["PIN DC LOW", "CMD 0xC2", "PIN DC HIGH", "DAT [0x0A, 0x00]"] ∧
    lines (.pwctr4 #v[0x8A, 0x2A]) allOk = some ["PIN DC LOW", "CMD 0xC3", "PIN DC HIGH", "DAT [0x8A, 0x2A]"] ∧
    lines (.pwctr5 #v[0x8A, 0xEE]) allOk = some ["PIN DC LOW", "CMD 0xC4", "PIN DC HIGH", "DAT [0x8A, 0xEE]"] ∧
    lines (.vmctr1 0x0E) allOk = some ["PIN DC LOW", "CMD 0xC5", "PIN DC HIGH", "DAT [0x0E]"] := by decide

/-- 95 P1 lines 45 to 60: MADCTL, COLMOD and the address sets. -/
theorem test_format_and_address_units :
    lines (.madctl 0xC8) allOk = some ["PIN DC LOW", "CMD 0x36", "PIN DC HIGH", "DAT [0xC8]"] ∧
    lines (.colmod 0x05) allOk = some ["PIN DC LOW", "CMD 0x3A", "PIN DC HIGH", "DAT [0x05]"] ∧
    lines (.caset 0x1A 0x69) allOk =
      some ["PIN DC LOW", "CMD 0x2A", "PIN DC HIGH", "DAT [0x00, 0x1A, 0x00, 0x69]"] ∧
    lines (.raset 0x01 0xA0) allOk =
      some ["PIN DC LOW", "CMD 0x2B", "PIN DC HIGH", "DAT [0x00, 0x01, 0x00, 0xA0]"] := by decide

/-- 95 P1 lines 61 to 68: the gamma units. -/
theorem test_gamma_units :
    (eventsOf (.gmctrp1 initBytesDefault.gmctrp1) allOk).map dataBytes =
      some [0x02, 0x1C, 0x07, 0x12, 0x37, 0x32, 0x29, 0x2D, 0x29, 0x25, 0x2B, 0x39, 0x00, 0x01, 0x03, 0x10] ∧
    (eventsOf (.gmctrn1 initBytesDefault.gmctrn1) allOk).map dataBytes =
      some [0x03, 0x1D, 0x07, 0x06, 0x2E, 0x2C, 0x29, 0x2D, 0x2E, 0x2E, 0x37, 0x3F, 0x00, 0x00, 0x02, 0x10] ∧
    (eventsOf (.gmctrp1 initBytesDefault.gmctrp1) allOk).map commandBytes = some [0xE0] ∧
    (eventsOf (.gmctrn1 initBytesDefault.gmctrn1) allOk).map commandBytes = some [0xE1] := by decide

/-- 30 R69: lines of a host program as 95 section 3 writes them. -/
theorem test_call_text :
    callText (.setWindow (-26) (-1) 0 0) = some "set_window(-26,-1,0,0)" ∧
    callText (.displayImage 78 158 imgP2) = some "display_image(78,158,IMG)" ∧
    callText (.setBacklight true) = some "set_backlight(true)" ∧ callText .halt = some "halt()" := by decide

/-! Witnesses: for every statement with hypotheses, a state and operands that meet all of them, clause by clause, at a
boundary value where a clause has a range. -/

theorem test_witness_decode_of_encode :
    opcodesDefault.distinct ∧ (Instr.displayImage (-5) (-5) imgP5).wellFormed = true := by decide

theorem test_witness_decode_accepts :
    decode opcodesDefault (.unit 0x2A#8 [0, 0xFF, 0, 0]) = .ok (.caset 0xFF 0) := by decide

theorem test_witness_unassigned_codes :
    ((0x00#8).toNat = 0 ∨ 0x0D ≤ (0x00#8).toNat) ∧ ((0x0D#8).toNat = 0 ∨ 0x0D ≤ (0x0D#8).toNat) ∧
      ((0xFF#8).toNat = 0 ∨ 0x0D ≤ (0xFF#8).toNat) ∧
      ({ State.reset with port := [.call ⟨0x0D#8, []⟩] } : State).port = .call ⟨0x0D#8, []⟩ :: [] := by decide

theorem test_witness_step_runs :
    (State.reset.withFetchWord 8 0x0B).port = hostRequest .halt [] :: [] ∧
      decode (State.reset.withFetchWord 8 0x0B).params.opc (hostRequest .halt []) = .ok .halt := by decide

theorem test_witness_step_waits : State.reset.port = [] := by decide

theorem test_witness_step_refuses :
    (State.reset.withFetchWord 8 0x00).port = .unit 0x00#8 [] :: [] ∧
      decode (State.reset.withFetchWord 8 0x00).params.opc (.unit 0x00#8 []) = .error (.unknownCommand 0x00) := by decide

theorem test_witness_connect_default :
    (unopened .ok).conn = .closed ∧ (⟨80, 160, 26, 1⟩ : Geometry) = (none : Option Geometry).getD ⟨80, 160, 26, 1⟩ ∧
      1 ≤ (80#8).toNat ∧ 1 ≤ (160#8).toNat ∧ (26#8).toNat + (80#8).toNat ≤ 132 ∧ (1#8).toNat + (160#8).toNat ≤ 162 ∧
      (unopened .ok).oracle.opens = .ok :: [] := by decide

theorem test_witness_connect_edge :
    (⟨132, 162, 0, 0⟩ : Geometry) = (some (⟨132, 162, 0, 0⟩ : Geometry)).getD ⟨80, 160, 26, 1⟩ ∧ 1 ≤ (132#8).toNat ∧
      1 ≤ (162#8).toNat ∧ (0#8).toNat + (132#8).toNat ≤ 132 ∧ (0#8).toNat + (162#8).toNat ≤ 162 := by decide

theorem test_witness_connect_refused :
    Connected State.reset ∧ State.beforeConnect.conn = .closed ∧
      (⟨80, 160, 53, 1⟩ : Geometry) = (some (⟨80, 160, 53, 1⟩ : Geometry)).getD ⟨80, 160, 26, 1⟩ ∧
      ¬(1 ≤ (80#8).toNat ∧ 1 ≤ (160#8).toNat ∧ (53#8).toNat + (80#8).toNat ≤ 132 ∧ (1#8).toNat + (160#8).toNat ≤ 162) ∧
      ¬(1 ≤ (80#8).toNat ∧ 1 ≤ (162#8).toNat ∧ (26#8).toNat + (80#8).toNat ≤ 132 ∧ (1#8).toNat + (162#8).toNat ≤ 162) := by
  decide

/-- With a geometry at the edge, and without one. -/
theorem test_witness_connect_fails :
    (unopened .connectionError).conn = .closed ∧ (unopened .connectionError).oracle.opens = .connectionError :: [] ∧
      (⟨132, 162, 0, 0⟩ : Geometry) = (some (⟨132, 162, 0, 0⟩ : Geometry)).getD ⟨80, 160, 26, 1⟩ ∧ 1 ≤ (132#8).toNat ∧
      1 ≤ (162#8).toNat ∧ (0#8).toNat + (132#8).toNat ≤ 132 ∧ (0#8).toNat + (162#8).toNat ≤ 162 ∧
      (⟨80, 160, 26, 1⟩ : Geometry) = (none : Option Geometry).getD ⟨80, 160, 26, 1⟩ ∧ 1 ≤ (80#8).toNat ∧
      1 ≤ (160#8).toNat ∧ (26#8).toNat + (80#8).toNat ≤ 132 ∧ (1#8).toNat + (160#8).toNat ≤ 162 := by decide

theorem test_witness_unconnected :
    State.beforeConnect.conn = .closed ∧ (∀ sel rst bl geom, Instr.sleep ≠ .connect sel rst bl geom) ∧
      ∀ r g b a, Instr.sleep ≠ .rgb565 r g b a :=
  ⟨by decide, fun _ _ _ _ h => (by cases h), fun _ _ _ _ h => (by cases h)⟩

theorem test_witness_initialize :
    Connected (ready (List.replicate 40 .ok) [] (List.replicate 40 .ok)) ∧
      Grants (ready (List.replicate 40 .ok) [] (List.replicate 40 .ok))
        (initEvents (ready (List.replicate 40 .ok) [] (List.replicate 40 .ok)).params
          (ready (List.replicate 40 .ok) [] (List.replicate 40 .ok)).cfg) := by decide

/-- The last event of the frame of step 2 (V-INIT-4), the first event of step 0, and the DC write of step 19 (V-INIT-6). -/
theorem test_witness_initialize_fails :
    (∃ u e, (initUnits paramsDefault State.reset.cfg)[2]? = some u ∧ (unitEvents opcodesDefault u)[3]? = some e ∧
      FailsAt (ready (List.replicate 5 .ok) [] [.ok, .ok, .ok, .ioError])
        (((initUnits paramsDefault State.reset.cfg).take 2).flatMap (unitEvents opcodesDefault) ++
          (unitEvents opcodesDefault u).take 3) e) ∧
    (∃ u e, (initUnits paramsDefault State.reset.cfg)[0]? = some u ∧ (unitEvents opcodesDefault u)[0]? = some e ∧
      FailsAt (ready [.ioError] [] [])
        (((initUnits paramsDefault State.reset.cfg).take 0).flatMap (unitEvents opcodesDefault) ++
          (unitEvents opcodesDefault u).take 0) e) ∧
    (∃ u e, (initUnits paramsDefault State.reset.cfg)[19]? = some u ∧ (unitEvents opcodesDefault u)[0]? = some e ∧
      FailsAt (ready (List.replicate 34 .ok ++ [.ioError]) [] (List.replicate 34 .ok))
        (((initUnits paramsDefault State.reset.cfg).take 19).flatMap (unitEvents opcodesDefault) ++
          (unitEvents opcodesDefault u).take 0) e) :=
  ⟨⟨_, _, rfl, rfl, by decide, rfl⟩, ⟨_, _, rfl, rfl, by decide, rfl⟩, ⟨_, _, rfl, rfl, by decide, rfl⟩⟩

theorem test_witness_send_command :
    Connected (ready [.ok] [] [.ok]) ∧ ([0x2C] : List Byte) ≠ [] ∧
      (ready [.ok] [] [.ok]).oracle.dc = .ok :: [] ∧ (ready [.ok] [] [.ok]).oracle.tx = .ok :: [] ∧
      (ready [.ioError] [] []).oracle.dc = .ioError :: [] ∧ (ready [.ok] [] [.ioError]).oracle.tx = .ioError :: [] := by
  decide

/-- No byte, and one more than a chunk. -/
theorem test_witness_send_data :
    Connected (ready [.ok] [] [.ok, .ok]) ∧ Grants (ready [.ok] [] [.ok, .ok]) (dataEvents []) ∧
      Grants (ready [.ok] [] [.ok, .ok]) (dataEvents (List.replicate 4097 0)) := by decide

/-- The first and the last chunk of 4097 bytes. -/
theorem test_witness_send_data_aborts :
    Connected (ready [.ioError] [] []) ∧ (ready [.ioError] [] []).oracle.dc = .ioError :: [] ∧
      0 < ((List.replicate 4097 (0 : Byte)).length + 4095) / 4096 ∧
      (ready [.ok] [] [.ioError]).oracle.tx = List.replicate 0 .ok ++ .ioError :: [] ∧
      1 < ((List.replicate 4097 (0 : Byte)).length + 4095) / 4096 ∧ (ready [.ok] [] [.ok, .ioError]).oracle.dc = .ok :: [] ∧
      (ready [.ok] [] [.ok, .ioError]).oracle.tx = List.replicate 1 .ok ++ .ioError :: [] := by decide

/-- A payload of exactly one chunk, and the last chunk of one more byte. -/
theorem test_witness_chunks :
    (chunks (List.replicate 4096 0))[0]? = some (List.replicate 4096 0) ∧
      (chunks (List.replicate 4097 0))[1]? = some [0] := by decide

theorem test_witness_faults :
    Connected (ready [.ok] [] [.never]) ∧ (ready [.ok] [] [.never]).oracle.dc = .ok :: [] ∧
      (ready [.ok] [] [.never]).oracle.tx = .never :: [] ∧ ([0x2C] : List Byte) ≠ [] ∧
      ∃ f, exec .sleep (ready [.ok] [] [.never]) = .fault f :=
  ⟨by decide, by decide, by decide, by decide, _, rfl⟩

theorem test_witness_sleep :
    (Connected (ready [.ok] [] [.ok]) ∧ (ready [.ok] [] [.ok]).oracle.dc = .ok :: [] ∧
      (ready [.ok] [] [.ok]).oracle.tx = .ok :: []) ∧
    (Connected (ready [.ioError] [] []) ∧ (ready [.ioError] [] []).oracle.dc = .ioError :: []) ∧
    (Connected (ready [.ok] [] [.ioError]) ∧ (ready [.ok] [] [.ioError]).oracle.dc = .ok :: [] ∧
      (ready [.ok] [] [.ioError]).oracle.tx = .ioError :: []) := by decide

/-- Both answers of the backlight pin, and no pin. -/
theorem test_witness_halt :
    (Connected (ready [.ok] [.ioError] [.ok]) ∧ (ready [.ok] [.ioError] [.ok]).cfg.hasBl = true ∧
      (ready [.ok] [.ioError] [.ok]).oracle.bl = .ioError :: [] ∧ (ready [.ok] [.ioError] [.ok]).oracle.dc = .ok :: [] ∧
      (ready [.ok] [.ioError] [.ok]).oracle.tx = .ok :: []) ∧
    (ready [.ok] [.ok] [.ok]).oracle.bl = .ok :: [] ∧ (withoutBl State.reset).cfg.hasBl = false := by decide

theorem test_witness_halt_reports :
    Connected (ready [.ok] [.ioError] [.ioError]) ∧ (ready [.ok] [.ioError] [.ioError]).cfg.hasBl = true ∧
      (ready [.ok] [.ioError] [.ioError]).oracle.bl = .ioError :: [] ∧
      (ready [.ok] [.ioError] [.ioError]).oracle.dc = .ok :: [] ∧
      (ready [.ok] [.ioError] [.ioError]).oracle.tx = .ioError :: [] := by decide

theorem test_witness_set_backlight :
    (Connected (withoutBl State.reset) ∧ (withoutBl State.reset).cfg.hasBl = false) ∧
    (Connected (ready [] [.ioError] []) ∧ (ready [] [.ioError] []).cfg.hasBl = true ∧
      (ready [] [.ioError] []).oracle.bl = .ioError :: [] ∧
      Level.high = (if true then (ready [] [.ioError] []).params.blOnLevel
        else opposite (ready [] [.ioError] []).params.blOnLevel)) := by decide

/-- The first and the last visible pixel. -/
theorem test_witness_visible_pixels :
    geometryOk ⟨80, 160, 26, 1⟩ = true ∧ geometryOk ⟨132, 162, 0, 0⟩ = true ∧ (0 : Int) < (80#8).toNat ∧
      (79 : Int) < (80#8).toNat ∧ (159 : Int) < (160#8).toNat ∧ (131 : Int) < (132#8).toNat ∧
      (161 : Int) < (162#8).toNat := by decide

/-- 95 2.2: the least and the greatest coordinates a byte holds. -/
theorem test_witness_set_window :
    Connected (ready (List.replicate 5 .ok) [] (List.replicate 5 .ok)) ∧
      (-26 : Int) + (26#8).toNat = (0#8).toNat ∧ (-1 : Int) + (1#8).toNat = (0#8).toNat ∧
      (229 : Int) + (26#8).toNat = (255#8).toNat ∧ (254 : Int) + (1#8).toNat = (255#8).toNat ∧
      State.reset.cfg.offL = 26#8 ∧ State.reset.cfg.offT = 1#8 ∧
      Grants (ready (List.replicate 5 .ok) [] (List.replicate 5 .ok)) (windowEvents opcodesDefault 0 0 255 255) := by
  decide

/-- 95 2.2: one below and one above. -/
theorem test_witness_set_window_refused :
    Connected State.reset ∧ ¬(0 ≤ (-27 : Int) + (State.reset.cfg.offL.toNat : Int)) ∧
      ¬((230 : Int) + (State.reset.cfg.offL.toNat : Int) ≤ 255) ∧ ¬(0 ≤ (-2 : Int) + (State.reset.cfg.offT.toNat : Int)) ∧
      ¬((255 : Int) + (State.reset.cfg.offT.toNat : Int) ≤ 255) := by decide

/-- The first event, and the last. -/
theorem test_witness_set_window_stops :
    Connected (ready [.ioError] [] []) ∧
    (∃ e, (windowEvents opcodesDefault 26 1 105 160)[0]? = some e ∧
      FailsAt (ready [.ioError] [] []) ((windowEvents opcodesDefault 26 1 105 160).take 0) e) ∧
    (∃ e, (windowEvents opcodesDefault 26 1 105 160)[9]? = some e ∧
      FailsAt (ready (List.replicate 5 .ok) [] (List.replicate 4 .ok ++ [.ioError]))
        ((windowEvents opcodesDefault 26 1 105 160).take 9) e) ∧
    (0 : Int) + (26#8).toNat = (26#8).toNat ∧ (0 : Int) + (1#8).toNat = (1#8).toNat ∧
    (79 : Int) + (26#8).toNat = (105#8).toNat ∧ (159 : Int) + (1#8).toNat = (160#8).toNat :=
  ⟨by decide, ⟨_, rfl, by decide, rfl⟩, ⟨_, rfl, by decide, rfl⟩, by decide, by decide, by decide, by decide⟩

theorem test_witness_display :
    Connected (ready (List.replicate 6 .ok) [] (List.replicate 6 .ok)) ∧ geometryOk ⟨80, 160, 26, 1⟩ = true ∧
      Grants (ready (List.replicate 6 .ok) [] (List.replicate 6 .ok))
        (windowEvents opcodesDefault 26 1 (26 + 80 - 1) (1 + 160 - 1) ++ dataEvents [0xAA]) := by decide

/-- V-CLIP-5: a clip of one column; its first and its last pixel. -/
theorem test_witness_clip :
    (clipOf State.reset.cfg 79 0 imgP2).empty = false ∧ geometryOk ⟨80, 160, 26, 1⟩ = true ∧
      (clipOf State.reset.cfg 79 0 imgP2).cx0 ≤ 79 ∧ 79 < (clipOf State.reset.cfg 79 0 imgP2).cx1 ∧
      (clipOf State.reset.cfg 79 0 imgP2).cy0 ≤ 0 ∧ 2 < (clipOf State.reset.cfg 79 0 imgP2).cy1 := by decide

/-- V-CLIP-4 and V-CLIP-6: placed just outside, on the right and above. -/
theorem test_witness_empty_clip :
    Connected State.reset ∧
      min (imgP2.maxX + 80) (State.reset.cfg.w.toNat : Int) ≤ max (imgP2.minX + 80) 0 ∧
      min (imgP2.maxY + (-3)) (State.reset.cfg.h.toNat : Int) ≤ max (imgP2.minY + (-3)) 0 := by decide

/-- P2: the 2 by 2 corner. -/
theorem test_witness_display_image :
    Connected (ready (List.replicate 6 .ok) [] (List.replicate 6 .ok)) ∧ geometryOk ⟨80, 160, 26, 1⟩ = true ∧
      ((78 : Nat) : Int) = max (imgP2.minX + 78) 0 ∧ ((78 + 2 : Nat) : Int) = min (imgP2.maxX + 78) ((80#8).toNat : Int) ∧
      ((158 : Nat) : Int) = max (imgP2.minY + 158) 0 ∧ ((158 + 2 : Nat) : Int) = min (imgP2.maxY + 158) ((160#8).toNat : Int) ∧
      Grants (ready (List.replicate 6 .ok) [] (List.replicate 6 .ok))
        (windowEvents opcodesDefault (BitVec.ofNat 8 (78 + 26)) (BitVec.ofNat 8 (158 + 1)) (BitVec.ofNat 8 (78 + 2 - 1 + 26))
            (BitVec.ofNat 8 (158 + 2 - 1 + 1)) ++
          dataEvents (imageBytes 78 158 imgP2 78 158 2 2)) := by decide

/-- The last pixel of P2's clip, by column and row. -/
theorem test_witness_pixel_stream :
    1 < (clipOf State.reset.cfg 78 158 imgP2).cw ∧ 1 < (clipOf State.reset.cfg 78 158 imgP2).ch ∧
      0xFFFF#16 = packRgb565 (imgAt imgP2 (78 + 1 - 78) (158 + 1 - 158)).r (imgAt imgP2 (78 + 1 - 78) (158 + 1 - 158)).g
        (imgAt imgP2 (78 + 1 - 78) (158 + 1 - 158)).b (imgAt imgP2 (78 + 1 - 78) (158 + 1 - 158)).a := by decide

/-- The first and the last pixel of an image. -/
theorem test_witness_img_at :
    imgP2.wellFormed = true ∧ imgP2.minX ≤ 0 ∧ (0 : Int) < imgP2.maxX ∧ imgP2.minY ≤ 0 ∧ (0 : Int) < imgP2.maxY ∧
      imgP2.minX ≤ 3 ∧ (3 : Int) < imgP2.maxX ∧ imgP2.minY ≤ 2 ∧ (2 : Int) < imgP2.maxY := by decide

/-- V-CLIP-9's kind of failure, in display's window and in display_image's. -/
theorem test_witness_failed_window :
    Connected (ready (List.replicate 5 .ok) [] (List.replicate 4 .ok ++ [.ioError])) ∧ geometryOk ⟨80, 160, 26, 1⟩ = true ∧
    (∃ e, (windowEvents opcodesDefault 26 1 (26 + 80 - 1) (1 + 160 - 1))[9]? = some e ∧
      FailsAt (ready (List.replicate 5 .ok) [] (List.replicate 4 .ok ++ [.ioError]))
        ((windowEvents opcodesDefault 26 1 (26 + 80 - 1) (1 + 160 - 1)).take 9) e) ∧
    (clipOf State.reset.cfg 0 0 imgP2).empty = false ∧
    (∃ e, (windowEvents opcodesDefault (lo8 (nativeCol State.reset.cfg (clipOf State.reset.cfg 0 0 imgP2).cx0))
        (lo8 (nativeRow State.reset.cfg (clipOf State.reset.cfg 0 0 imgP2).cy0))
        (lo8 (nativeCol State.reset.cfg ((clipOf State.reset.cfg 0 0 imgP2).cx1 - 1)))
        (lo8 (nativeRow State.reset.cfg ((clipOf State.reset.cfg 0 0 imgP2).cy1 - 1))))[0]? = some e ∧
      FailsAt (ready [.ioError] [] []) [] e) :=
  ⟨by decide, by decide, ⟨_, rfl, by decide, rfl⟩, by decide, ⟨_, rfl, by decide, rfl⟩⟩

theorem test_witness_rgb565 :
    (0x07E0 : Nat) = (((0x07#8).toNat &&& 0xF8) <<< 8) ||| (((0xFF#8).toNat &&& 0xFC) <<< 3) ||| ((0x00#8).toNat >>> 3) := by
  decide

theorem test_witness_wide_channels :
    (0xFFFF : Nat) = (255#8).toNat * 0x101 ∧ (0 : Nat) = (0#8).toNat * 0x101 := by decide

theorem test_witness_units :
    (Connected (ready [.ok] [] [.ok]) ∧ (ready [.ok] [] [.ok]).oracle.dc = .ok :: [] ∧
      (ready [.ok] [] [.ok]).oracle.tx = .ok :: []) ∧
    (Connected (ready [.ok, .ok] [] [.ok, .ok]) ∧ (ready [.ok, .ok] [] [.ok, .ok]).oracle.dc = .ok :: [.ok] ∧
      ([.ok] : List PinAnswer) = .ok :: [] ∧ (ready [.ok, .ok] [] [.ok, .ok]).oracle.tx = .ok :: .ok :: []) := by decide

/-- For the statements over any instruction that answers a next state. -/
theorem test_witness_next :
    (∃ t, exec .halt allOk = .next t ∧ ∀ sel rst bl geom, Instr.halt ≠ .connect sel rst bl geom) ∧
    (∃ t, exec .ramwr allOk = .next t ∧ ∀ bs, Instr.ramwr ≠ .sendCommand bs) :=
  ⟨⟨_, rfl, fun _ _ _ _ h => (by cases h)⟩, ⟨_, rfl, fun _ h => (by cases h)⟩⟩

theorem test_witness_lines :
    (∃ t, exec .sleep allOk = .next t ∧ (∀ sel rst bl geom, Instr.sleep ≠ .connect sel rst bl geom) ∧
      (∀ en, Instr.sleep ≠ .setBacklight en) ∧ Instr.sleep ≠ .halt) ∧
    (∃ t, exec (.connect 0 none none none) (unopened .ok) = .next t) ∧
    (∃ t, exec (.setBacklight true) allOk = .next t) ∧ (∃ t, exec (.rgb565 0 0 0 0) allOk = .next t) :=
  ⟨⟨_, rfl, fun _ _ _ _ h => (by cases h), fun _ h => (by cases h), fun h => (by cases h)⟩, ⟨_, rfl⟩, ⟨_, rfl⟩, ⟨_, rfl⟩⟩

theorem test_witness_connected_step :
    Connected (allOk.withFetchWord 8 0x05) ∧ ∃ t, step (allOk.withFetchWord 8 0x05) = .next t :=
  ⟨by decide, _, rfl⟩

/-- Each kind of error: a DC write, a later chunk, a unit of initialize, and `Open`. -/
theorem test_witness_error :
    (∃ t, exec .sleep (ready [.ioError] [] []) = .next t ∧
      t.results = (ready [.ioError] [] []).results ++ [.error (.ioError .dcPin)]) ∧
    (∃ t, exec (.sendData (List.replicate 4097 0)) (granted [] [] [.ok, .ioError]) = .next t ∧
      t.results = (granted [] [] [.ok, .ioError]).results ++ [.error (.ioError (.tx 4096))]) ∧
    (∃ t, exec .initializePanel (granted [] [] [.ok, .ok, .ok, .ioError]) = .next t ∧
      t.results = (granted [] [] [.ok, .ok, .ok, .ioError]).results ++ [.error (.protocolError 2 (.tx 0))]) ∧
    ∃ t, exec (.connect 0 none none none) (unopened .connectionError) = .next t ∧
      t.results = (unopened .connectionError).results ++ [.error .connectionError] :=
  ⟨⟨_, rfl, rfl⟩, ⟨_, rfl, rfl⟩, ⟨_, rfl, rfl⟩, ⟨_, rfl, rfl⟩⟩

theorem test_witness_command_phase :
    ∃ t, exec .ramwr allOk = .next t ∧
      t.trace = allOk.trace ++ [⟨.pin .dc .low, .ok⟩, ⟨.tx .low [0x2C], .ok⟩] := ⟨_, rfl, rfl⟩

/-- Two states that differ in their lines and their past. -/
theorem test_witness_past :
    ∃ t, ({ ready [.ioError] [] [] with dc := .high, trace := [] } : State).oracle = (ready [.ioError] [] []).oracle ∧
      exec .sleep (ready [.ioError] [] []) = .next t := ⟨_, rfl, rfl⟩

/-- An initialize that returns ok, and one that returns an error. -/
theorem test_witness_settle_delays :
    (∃ t, exec .initializePanel allOk = .next t ∧ t.results = allOk.results ++ [.ok]) ∧
    ∃ t, exec .initializePanel (granted [.ioError] [] []) = .next t :=
  ⟨⟨_, rfl, rfl⟩, ⟨_, rfl⟩⟩

/-- A payload of one byte more than a chunk, and a full default frame. -/
theorem test_witness_bus_time :
    (∃ t, exec (.sendData (List.replicate 4097 0)) allOk = .next t ∧ t.results = allOk.results ++ [.ok]) ∧
    (∃ t, exec (.display (List.replicate 25600 0)) allOk = .next t ∧ t.results = allOk.results ++ [.ok]) ∧
    (List.replicate 25600 (0 : Byte)).length = 25600 :=
  ⟨⟨_, rfl, rfl⟩, ⟨_, rfl, rfl⟩, List.length_replicate⟩

/-- A connected block with a call waiting meets the invariant and steps. -/
theorem test_witness_invariant :
    Inv ({ ready [.ioError] [] [] with port := [hostRequest .sleep []] }) ∧
      ∃ t, step { ready [.ioError] [] [] with port := [hostRequest .sleep []] } = .next t :=
  ⟨{ geometry := fun _ => by decide
     idle := rfl
     rst := rfl
     noBl := fun _ (h : true = false) => (by cases h)
     framed := by decide
     answered := by decide }, _, rfl⟩

theorem test_witness_script :
    Connected State.reset ∧ State.reset.seqStep = .idle ∧
      scriptOf State.reset.params State.reset.cfg .halt = some
        [⟨none, .pin .bl .low, none⟩, ⟨none, .pin .dc .low, some (.ioError .dcPin)⟩,
         ⟨none, .tx .low [0x10], some (.ioError (.tx 0))⟩] := by decide

end Sys2Proof.Tests
end

section
/-! Proofs for 00 R14 to R19: a step runs the call it serves, every operation on a connected block is the run of its
script, and an operation that ends returns one result of its row of 60 R162. -/

namespace Sys2Proof.Safety

open Sys2Proof.Machine

/-- Settles O6: fetch takes the oldest call and step runs what it stands for. -/
theorem stepRunsTheDecodedInstruction : Obligations.StepRunsTheDecodedInstruction := by
  intro s req rest i hport hdecode
  have hfetch : fetch s = .instr i { s with port := rest } := by simp only [fetch, hport, hdecode]
  rw [step, hfetch]

/-! The form of the scripts. -/

/-- What holds of every event of a script: it belongs to the step, its failure is the step's error (60 R164 (a)), and only
a backlight write or a delay goes unreported. -/
structure EmittedAt (st : Option (Fin 20)) (e : Emission) : Prop where
  step    : e.step = st
  reports : Reports e
  error   : ∀ err, e.error = some err → ∃ cause, err = reported st cause

/-- An event whose failure is reported as the step's error. -/
theorem emittedAt_reported (st : Option (Fin 20)) (ev : Event) (cause : IoCause) :
    EmittedAt st ⟨st, ev, some (reported st cause)⟩ :=
  ⟨rfl, nofun, fun _ h => ⟨cause, (Option.some.inj h).symm⟩⟩

theorem commandScript_emittedAt (st : Option (Fin 20)) (bs : List Byte) : ∀ e ∈ commandScript st bs, EmittedAt st e := by
  simp [commandScript, emittedAt_reported]

theorem dataScript_emittedAt (st : Option (Fin 20)) (bs : List Byte) : ∀ e ∈ dataScript st bs, EmittedAt st e := by
  simp only [dataScript, List.mem_cons, List.mem_map]
  rintro e (rfl | ⟨k, -, rfl⟩) <;> exact emittedAt_reported st _ _

theorem unitScript_emittedAt (st : Option (Fin 20)) (o : Opcodes) (u : CmdUnit) :
    ∀ e ∈ unitScript st o u, EmittedAt st e := by
  simp only [unitScript, List.mem_append, List.mem_map]
  rintro e ((he | he) | ⟨ms, -, rfl⟩)
  · exact commandScript_emittedAt st _ e he
  · split at he
    · cases he
    · exact dataScript_emittedAt st _ e he
  · exact ⟨rfl, fun _ => .inr ⟨ms, rfl⟩, nofun⟩

theorem windowScript_emittedAt {p : Params} {c : Cfg} {x0 y0 x1 y1 : Int} {w : List Emission}
    (h : windowScript p c x0 y0 x1 y1 = some w) : ∀ e ∈ w, EmittedAt none e := by
  unfold windowScript at h
  split at h
  · cases h
    simp only [List.mem_append]
    rintro e ((he | he) | he) <;> exact unitScript_emittedAt none _ _ e he
  · cases h

/-- A window and the data phase after it (41 R121, R124). -/
theorem windowScript_data_emittedAt {p : Params} {c : Cfg} {x0 y0 x1 y1 : Int} {bs : List Byte} {es : List Emission}
    (h : (windowScript p c x0 y0 x1 y1).map (fun w => w ++ dataScript none bs) = some es) :
    ∀ e ∈ es, EmittedAt none e := by
  obtain ⟨w, hw, rfl⟩ := Option.map_eq_some_iff.1 h
  intro e he
  rcases List.mem_append.1 he with he | he
  · exact windowScript_emittedAt hw e he
  · exact dataScript_emittedAt none bs e he

theorem backlightScript_error (p : Params) (c : Cfg) (en : Bool) : ∀ e ∈ backlightScript p c en, e.error = none := by
  unfold backlightScript
  split <;> simp

theorem backlightScript_emittedAt (p : Params) (c : Cfg) (en : Bool) :
    ∀ e ∈ backlightScript p c en, EmittedAt none e := by
  unfold backlightScript
  split
  · simp only [List.mem_singleton, forall_eq]
    exact ⟨rfl, fun _ => .inl ⟨_, rfl⟩, nofun⟩
  · nofun

theorem initScript_emittedAt (p : Params) (c : Cfg) : ∀ e ∈ initScript p c, ∃ k, EmittedAt (some k) e := by
  intro e he
  obtain ⟨us, hus, he⟩ := List.mem_flatten.1 he
  obtain ⟨k, _, rfl⟩ := List.mem_mapIdx.1 hus
  exact ⟨_, unitScript_emittedAt _ _ _ e he⟩

/-- The events of every operation but the initialisation belong to no step. -/
theorem scriptOf_emittedAt {p : Params} {c : Cfg} {i : Instr} {es : List Emission} (h : scriptOf p c i = some es)
    (hi : i ≠ .initializePanel) : ∀ e ∈ es, EmittedAt none e := by
  cases i with
  | initializePanel => exact absurd rfl hi
  | sendCommand bs =>
    simp only [scriptOf] at h
    split at h
    · cases h
    · cases h; exact commandScript_emittedAt none bs
  | sendData bs => cases h; exact dataScript_emittedAt none bs
  | sleep | powersave => cases h; exact commandScript_emittedAt none _
  | setBacklight v => cases h; exact backlightScript_emittedAt p c v
  | setWindow x0 y0 x1 y1 => exact windowScript_emittedAt h
  | displayImage x y img =>
    simp only [scriptOf] at h
    split at h
    · cases h; nofun
    · exact windowScript_data_emittedAt h
  | display raw => exact windowScript_data_emittedAt h
  | halt =>
    cases h
    intro e he
    rcases List.mem_append.1 he with he | he
    · exact backlightScript_emittedAt p c false e he
    · exact commandScript_emittedAt none _ e he
  | connect | rgb565 => cases h
  | _ => cases h; exact unitScript_emittedAt none _ _

/-- In every script, the initialisation's too, only a backlight write or a delay goes unreported. -/
theorem scriptOf_reports {p : Params} {c : Cfg} {i : Instr} {es : List Emission} (h : scriptOf p c i = some es) :
    ∀ e ∈ es, Reports e := by
  intro e he
  by_cases hi : i = .initializePanel
  · subst hi
    rw [← Option.some.inj h] at he
    obtain ⟨k, hk⟩ := initScript_emittedAt p c e he
    exact hk.reports
  · exact (scriptOf_emittedAt h hi e he).reports

/-! Every operation on a connected block is the run of its script. -/

theorem initParams_eq_powerBytes (p : Params) (c : Cfg) (cmd : Command) : initParams p c cmd = powerBytes p c cmd := by
  cases cmd with
  | caset | raset => simp [initParams, powerBytes, addressParams, lo8_byteInt, lo8_last]
  | _ => rfl

/-- The table the initialisation reads is the listed one (40 R102 to R104). -/
theorem initTable_eq_initUnits (p : Params) (c : Cfg) : initTable p c = initUnits p c := by
  rw [initTable, initCommands, vector5_toList, initUnits]
  simp only [initParams_eq_powerBytes, List.cons_append, List.nil_append, List.mapIdx_cons, List.mapIdx_nil]
  cases c.invert <;> rfl

theorem initializeOp_eq_follow (s : State) : initializeOp s = follow (initScript s.params s.cfg) s := by
  rw [initializeOp_eq_run, initTable_eq_initUnits, follow_eq_runScript]
  rfl

theorem sleepOp_eq_run (s : State) : sleepOp s = runScript (commandScript none [s.params.opc.slpin]) s :=
  sendCommandOp_eq_run (by simp) s

theorem setWindowOp_refused {x0 y0 x1 y1 : Int} {s : State} (h : windowScript s.params s.cfg x0 y0 x1 y1 = none) :
    setWindowOp x0 y0 x1 y1 s = .refused .windowRange := by
  rcases setWindowOp_cases x0 y0 x1 y1 s with ⟨-, hop⟩ | ⟨w, hw, -, -⟩
  · exact hop
  · rw [hw] at h; cases h

theorem setWindowOp_eq_run {x0 y0 x1 y1 : Int} {s : State} {w : List Emission}
    (h : windowScript s.params s.cfg x0 y0 x1 y1 = some w) : setWindowOp x0 y0 x1 y1 s = runScript w s := by
  rcases setWindowOp_cases x0 y0 x1 y1 s with ⟨hw, -⟩ | ⟨w, hw, -, hop⟩
  · rw [hw] at h; cases h
  · rw [hw] at h; cases h; exact hop

/-- A window without a script is refused, and nothing follows it (41 R120). -/
theorem windowThenData_refused {x0 y0 x1 y1 : Int} {bs : List Byte} {s : State}
    (h : (windowScript s.params s.cfg x0 y0 x1 y1).map (fun w => w ++ dataScript none bs) = none) :
    (setWindowOp x0 y0 x1 y1 s).andThen (sendDataOp bs) = .refused .windowRange := by
  rw [setWindowOp_refused (Option.map_eq_none_iff.1 h), andThen_refused]

/-- A window and the data phase after it are the run of both scripts (41 R121, R124). -/
theorem windowThenData_eq_run {x0 y0 x1 y1 : Int} {bs : List Byte} {s : State} {es : List Emission}
    (h : (windowScript s.params s.cfg x0 y0 x1 y1).map (fun w => w ++ dataScript none bs) = some es) :
    (setWindowOp x0 y0 x1 y1 s).andThen (sendDataOp bs) = runScript es s := by
  obtain ⟨w, hw, rfl⟩ := Option.map_eq_some_iff.1 h
  rw [setWindowOp_eq_run hw, runScript_append, funext (sendDataOp_eq_run bs)]

theorem haltOp_eq_run (s : State) :
    haltOp s = runScript (backlightScript s.params s.cfg false ++ commandScript none [s.params.opc.slpin]) s := by
  rw [haltOp, sleepOp_eq_run, (backlightOp_keeps false s).params, runScript_append, backlightOp_eq_run, andThen_done]

/-- On a connected block every operation that has a script, but the initialisation, is that script's run. -/
theorem exec_eq_run {i : Instr} {s : State} {es : List Emission} (hc : Connected s)
    (h : scriptOf s.params s.cfg i = some es) (hi : i ≠ .initializePanel) : exec i s = (runScript es s).finish := by
  have run : ∀ op : State → Run, op s = runScript es s → (whenConnected op s).finish = (runScript es s).finish :=
    fun op hop => by rw [whenConnected_opened op hc, hop]
  cases i with
  | initializePanel => exact absurd rfl hi
  | sendCommand bs =>
    simp only [scriptOf] at h
    split at h
    · cases h
    · cases h; exact run _ (sendCommandOp_eq_run ‹_› s)
  | sendData bs => cases h; exact run _ (sendDataOp_eq_run bs s)
  | sleep | powersave => cases h; exact run _ (sleepOp_eq_run s)
  | setBacklight v => cases h; exact run _ (backlightOp_eq_run v s).symm
  | setWindow x0 y0 x1 y1 => exact run _ (setWindowOp_eq_run h)
  | displayImage x y img =>
    refine run _ ?_
    simp only [scriptOf] at h
    rw [displayImageOp]
    split at h
    · cases h; rw [if_pos ‹_›]; rfl
    · rw [if_neg ‹_›]; exact windowThenData_eq_run h
  | display raw => exact run _ (windowThenData_eq_run h)
  | halt => cases h; exact run _ (haltOp_eq_run s)
  | connect | rgb565 => cases h
  | _ => cases h; exact run _ (emitUnit_eq_run _ s)

theorem exec_initialize_eq_follow {s : State} (hc : Connected s) :
    exec .initializePanel s = (follow (initScript s.params s.cfg) s).finish := by
  rw [exec, execInitialize, whenConnected_opened _ hc, initializeOp_eq_follow]

/-- From an IDLE sequencer, a script outside the initialisation has it IDLE at its end, as `follow` leaves it. -/
theorem follow_eq_runScript_of_idle {es : List Emission} {s : State} (hs : s.seqStep = .idle)
    (he : ∀ e ∈ es, e.step = none) : follow es s = runScript es s := by
  rw [follow_eq_runScript]
  cases hr : runScript es s with
  | done t =>
    have ht : t.seqStep = .idle := (runScript_seqStep es he s t (by rw [hr]; rfl)).trans hs
    rw [andThen_done, ← ht]
  | failed e t => rfl
  | stalled t => rfl
  | refused q => rfl

/-- Settles O54: the initialisation follows its script by its own loop, and every other operation is its script's run,
which leaves the sequencer where it was. -/
theorem operationsFollowTheirScripts : Obligations.OperationsFollowTheirScripts := by
  intro i s es hc hidle h
  by_cases hi : i = .initializePanel
  · subst hi
    rw [← Option.some.inj h]
    exact exec_initialize_eq_follow hc
  · have hstep : ∀ e ∈ es, e.step = none := fun e he => (scriptOf_emittedAt h hi e he).step
    rw [exec_eq_run hc h hi, follow_eq_runScript_of_idle hidle hstep]

/-! The result of an operation that ends (60 R162). -/

/-- An operation that is neither connect nor rgb565 is refused on a block that is not connected (10 R26). -/
theorem exec_closed {i : Instr} {s : State} (h : s.conn = .closed) (hcon : ∀ sel rst bl geom, i ≠ .connect sel rst bl geom)
    (hcol : ∀ r g b a, i ≠ .rgb565 r g b a) : exec i s = .refused .notConnected := by
  have refuse : ∀ op : State → Run, (whenConnected op s).finish = .refused .notConnected :=
    fun op => by rw [whenConnected_closed op h]; rfl
  cases i with
  | connect => exact absurd rfl (hcon _ _ _ _)
  | rgb565 => exact absurd rfl (hcol _ _ _ _)
  | _ => exact refuse _

/-- On a connected block an operation without a script is refused, but for rgb565 (60 R165). -/
theorem exec_refused_of_no_script {i : Instr} {s : State} (hc : Connected s) (h : scriptOf s.params s.cfg i = none)
    (hcol : ∀ r g b a, i ≠ .rgb565 r g b a) : ∃ q, exec i s = .refused q := by
  have refuse : ∀ (op : State → Run) (q : Refusal), op s = .refused q → ∃ q, (whenConnected op s).finish = .refused q :=
    fun op q hop => ⟨q, by rw [whenConnected_opened op hc, hop]; rfl⟩
  cases i with
  | connect sel rst bl geom =>
    refine ⟨.alreadyConnected, ?_⟩
    cases hs : s.conn with
    | closed => exact absurd hs hc
    | opened => simp [exec, execConnect, connectOp, hs, Run.finish]
  | sendCommand bs =>
    simp only [scriptOf] at h
    split at h
    · exact refuse _ .emptyCommand (by rw [sendCommandOp, if_pos (by simpa using ‹bs = []›)])
    · cases h
  | setWindow x0 y0 x1 y1 => exact refuse _ _ (setWindowOp_refused h)
  | displayImage x y img =>
    simp only [scriptOf] at h
    split at h
    · cases h
    · exact refuse _ .windowRange (by rw [displayImageOp, if_neg ‹_›]; exact windowThenData_refused h)
  | display raw => exact refuse _ _ (windowThenData_refused h)
  | rgb565 => exact absurd rfl (hcol _ _ _ _)
  | _ => cases h

/-- Every operation with a script may return ok: rgb565 has none. -/
theorem mayReturn_ok_of_script {p : Params} {c : Cfg} {i : Instr} {es : List Emission}
    (h : scriptOf p c i = some es) : mayReturn i .ok = true := by
  cases i with
  | rgb565 => cases h
  | _ => rfl

/-- Each error a script reports is in the operation's row of 60 R162. -/
theorem mayReturn_error_of_script {p : Params} {c : Cfg} {i : Instr} {es : List Emission} {e : Emission}
    {err : BlockError} (h : scriptOf p c i = some es) (he : e ∈ es) (herr : e.error = some err) :
    mayReturn i (.error err) = true := by
  by_cases hi : i = .initializePanel
  · subst hi
    rw [← Option.some.inj h] at he
    obtain ⟨k, hk⟩ := initScript_emittedAt p c e he
    obtain ⟨cause, rfl⟩ := hk.error err herr
    rfl
  · obtain ⟨cause, rfl⟩ := (scriptOf_emittedAt h hi e he).error err herr
    cases i with
    | connect | rgb565 => cases h
    | initializePanel => exact absurd rfl hi
    | setBacklight v =>
      cases h
      rw [backlightScript_error p c v e he] at herr
      cases herr
    | _ => rfl

/-- A failing run fails with the error of one of its events. -/
theorem runScript_failed {es : List Emission} {s t : State} {err : BlockError} (h : ∀ e ∈ es, Reports e)
    (hr : runScript es s = .failed err t) : ∃ e ∈ es, e.error = some err := by
  have hleaves := runScript_leaves es h s
  rw [hr] at hleaves
  obtain ⟨_, _, -, -, -, -, -, herr, -⟩ := hleaves
  exact herr

/-- A script that fails when followed fails as a run: leaving the sequencer IDLE adds no failure. -/
theorem follow_failed {es : List Emission} {s t : State} {err : BlockError} (h : follow es s = .failed err t) :
    runScript es s = .failed err t := by
  rw [follow_eq_runScript] at h
  cases hr : runScript es s with
  | done u => rw [hr] at h; cases h
  | failed e u => rw [hr] at h; exact h
  | stalled u => rw [hr] at h; cases h
  | refused q => rw [hr] at h; cases h

/-- From `s` to `t` an instruction only appended to the trace and returned one result of its row of 60 R162. -/
def ReturnsListed (i : Instr) (s t : State) : Prop :=
  ∃ (es : List Entry) (r : Result), t.trace = s.trace ++ es ∧ t.results = s.results ++ [r] ∧ mayReturn i r = true

/-- A run that kept the results and only fails with listed errors ends in a listed result. -/
theorem finish_returnsListed {i : Instr} {s t : State} {r : Run} (hk : RunKeeps s r) (hok : mayReturn i .ok = true)
    (herr : ∀ err u, r = .failed err u → mayReturn i (.error err) = true) (ht : r.finish = .next t) :
    ReturnsListed i s t := by
  rcases finish_next ht with ⟨u, rfl, rfl⟩ | ⟨err, u, rfl, rfl⟩
  · obtain ⟨es, hes⟩ := Keeps.trace hk
    exact ⟨es, .ok, hes, by rw [← Keeps.results hk]; rfl, hok⟩
  · obtain ⟨es, hes⟩ := Keeps.trace hk
    exact ⟨es, .error err, hes, by rw [← Keeps.results hk]; rfl, herr err u rfl⟩

theorem script_returnsListed {i : Instr} {s t : State} {es : List Emission} (hc : Connected s)
    (h : scriptOf s.params s.cfg i = some es) (ht : exec i s = .next t) : ReturnsListed i s t := by
  have hlisted : ∀ err u, runScript es s = .failed err u → mayReturn i (.error err) = true := by
    intro err u hr
    obtain ⟨e, he, herr⟩ := runScript_failed (scriptOf_reports h) hr
    exact mayReturn_error_of_script h he herr
  by_cases hi : i = .initializePanel
  · subst hi
    rw [exec, execInitialize, whenConnected_opened _ hc] at ht
    refine finish_returnsListed (initializeOp_keeps s) rfl (fun err u hr => hlisted err u ?_) ht
    rw [initializeOp_eq_follow, Option.some.inj h] at hr
    exact follow_failed hr
  · rw [exec_eq_run hc h hi] at ht
    exact finish_returnsListed (runScript_keeps es s) (mayReturn_ok_of_script h) hlisted ht

/-- connect is refused, fails with the transport's ConnectionError, or connects (40 R100). -/
theorem connectOp_cases (rst bl : Bool) (geom : Option Geometry) (s : State) :
    (∃ q, connectOp rst bl geom s = .refused q) ∨
      connectOp rst bl geom s = .failed .connectionError
        (State.log (.openPort s.params.spiClockHz s.params.spiMode s.params.spiWordBits) .connectionError
          { s with oracle := s.oracle.takeOpen }) ∨
      connectOp rst bl geom s = .done
        ((State.log (.openPort s.params.spiClockHz s.params.spiMode s.params.spiWordBits) .ok
          { s with oracle := s.oracle.takeOpen }).connected (geom.getD geomDefault) rst bl) := by
  cases hs : s.conn with
  | opened => exact .inl ⟨.alreadyConnected, by simp [connectOp, hs]⟩
  | closed =>
    by_cases hg : geometryOk (geom.getD geomDefault) = true
    · cases ha : s.oracle.nextOpen with
      | connectionError => exact .inr (.inl (by simp [connectOp, hs, hg, openTransport, ha]))
      | ok => exact .inr (.inr (by simp [connectOp, hs, hg, openTransport, ha]))
    · exact .inl ⟨.geometryInvalid, by simp [connectOp, hs, hg]⟩

theorem connect_returnsListed {sel : PinId} {rst bl : Option PinId} {geom : Option Geometry} {s t : State}
    (ht : exec (.connect sel rst bl geom) s = .next t) : ReturnsListed (.connect sel rst bl geom) s t := by
  rw [exec, execConnect] at ht
  rcases connectOp_cases rst.isSome bl.isSome geom s with ⟨q, hop⟩ | hop | hop
  · rw [hop] at ht; cases ht
  · rw [hop] at ht; cases ht; exact ⟨_, _, rfl, rfl, rfl⟩
  · rw [hop] at ht; cases ht; exact ⟨_, _, rfl, rfl, rfl⟩

/-- Settles O47: connect and rgb565 by their own cases; any other operation that ends is on a connected block and has a
script, which it runs. -/
theorem everyOperationReturnsOneListedResult : Obligations.EveryOperationReturnsOneListedResult := by
  intro i s t ht
  by_cases hcon : ∃ sel rst bl geom, i = .connect sel rst bl geom
  · obtain ⟨sel, rst, bl, geom, rfl⟩ := hcon
    exact connect_returnsListed ht
  by_cases hcol : ∃ r g b a, i = .rgb565 r g b a
  · obtain ⟨r, g, b, a, rfl⟩ := hcol
    cases ht
    exact ⟨[], _, (List.append_nil _).symm, rfl, rfl⟩
  push Not at hcon hcol
  have hc : Connected s := fun hs => by rw [exec_closed hs hcon hcol] at ht; cases ht
  cases h : scriptOf s.params s.cfg i with
  | some es => exact script_returnsListed hc h ht
  | none =>
    obtain ⟨q, hq⟩ := exec_refused_of_no_script hc h hcol
    rw [hq] at ht
    cases ht

end Sys2Proof.Safety
end

section
/-! Proofs for 10 R21 to R31: what reset leaves, which fields an operation may write, that nothing it does depends on the
past, and the block's invariant. -/

namespace Sys2Proof.Safety

open Sys2Proof.Machine

/-! Reset, and the block before connect. -/

/-- Settles O8: the fields of `State.reset`, read off its definition. -/
theorem resetLeavesTheStatedValues : Obligations.ResetLeavesTheStatedValues :=
  ⟨rfl, rfl, rfl, rfl, rfl, rfl, rfl, rfl, rfl, rfl, rfl⟩

/-- Settles O52: the default geometry is legal, every line is UNKNOWN, and the one entry of the trace is the answered
`Open`. -/
theorem resetMeetsTheInvariant : Obligations.ResetMeetsTheInvariant where
  geometry := fun _ => by decide
  idle := rfl
  rst := rfl
  noBl := fun _ _ => rfl
  framed := by decide
  answered := by decide

/-- Settles O12: each of these operations checks the connection first. -/
theorem unconnectedOperationsAreRefused : Obligations.UnconnectedOperationsAreRefused :=
  fun _ _ hs hcon hcol => exec_closed hs hcon hcol

/-! What an instruction that ends has done. -/

/-- A step that answers a next state waited, or served the oldest call. -/
theorem step_next_cases {s t : State} (h : step s = .next t) :
    t = s ∨ ∃ i rest, exec i { s with port := rest } = .next t := by
  cases hp : s.port with
  | nil =>
    simp only [step, fetch, hp, Host.Outcome.next.injEq] at h
    exact .inl h.symm
  | cons req rest =>
    cases hd : decode s.params.opc req with
    | error e => simp only [step, fetch, hp, hd] at h; cases h
    | ok i => simp only [step, fetch, hp, hd] at h; exact .inr ⟨i, rest, h⟩

/-- A run ends in a state: its lines completed, or an error was raised there. -/
def EndsIn (r : Run) (u : State) : Prop := r = .done u ∨ ∃ err, r = .failed err u

/-- From `s` to `t` the script was run to its end or its first reported failure, one result was returned, and an IDLE
sequencer is IDLE again. -/
def Completes (es : List Emission) (s t : State) : Prop :=
  ∃ (u : State) (q : SeqStep) (r : Result), EndsIn (runScript es s) u ∧
    t = { u with seqStep := q, results := u.results ++ [r] } ∧ (s.seqStep = .idle → q = .idle)

theorem script_completes {i : Instr} {s t : State} {es : List Emission} (hc : Connected s)
    (h : scriptOf s.params s.cfg i = some es) (ht : exec i s = .next t) : Completes es s t := by
  by_cases hi : i = .initializePanel
  · subst hi
    rw [exec_initialize_eq_follow hc, Option.some.inj h, follow_eq_runScript] at ht
    cases hr : runScript es s with
    | done u => rw [hr] at ht; cases ht; exact ⟨u, .idle, .ok, .inl hr, rfl, fun _ => rfl⟩
    | failed err u => rw [hr] at ht; cases ht; exact ⟨u, .idle, .error err, .inr ⟨err, hr⟩, rfl, fun _ => rfl⟩
    | stalled u => rw [hr] at ht; cases ht
    | refused q => rw [hr] at ht; cases ht
  · rw [exec_eq_run hc h hi] at ht
    rcases finish_next ht with ⟨u, hr, rfl⟩ | ⟨err, u, hr, rfl⟩
    · have hseq : u.seqStep = s.seqStep :=
        runScript_seqStep es (fun e he => (scriptOf_emittedAt h hi e he).step) s u (by rw [hr]; rfl)
      exact ⟨u, u.seqStep, .ok, .inl hr, rfl, hseq.trans⟩
    · exact ⟨u, .idle, .error err, .inr ⟨err, hr⟩, rfl, fun _ => rfl⟩

/-- An instruction that ends is connect, rgb565, or an operation on a connected block that completed its script. -/
theorem exec_next_cases {i : Instr} {s t : State} (ht : exec i s = .next t) :
    (∃ sel rst bl geom, i = .connect sel rst bl geom) ∨
      (∃ r g b a, i = .rgb565 r g b a ∧ t = s.complete (.colour (packRgb565 r g b a))) ∨
      ∃ es, Connected s ∧ scriptOf s.params s.cfg i = some es ∧ Completes es s t := by
  by_cases hcon : ∃ sel rst bl geom, i = .connect sel rst bl geom
  · exact .inl hcon
  by_cases hcol : ∃ r g b a, i = .rgb565 r g b a
  · obtain ⟨r, g, b, a, rfl⟩ := hcol
    cases ht
    exact .inr (.inl ⟨r, g, b, a, rfl, rfl⟩)
  push Not at hcon hcol
  have hc : Connected s := fun hs => by rw [exec_closed hs hcon hcol] at ht; cases ht
  cases h : scriptOf s.params s.cfg i with
  | some es => exact .inr (.inr ⟨es, hc, rfl, script_completes hc h ht⟩)
  | none =>
    obtain ⟨q, hq⟩ := exec_refused_of_no_script hc h hcol
    rw [hq] at ht
    cases ht

/-- A connect that ends left the `Open` that failed on the trace, or a handle of a legal geometry (40 R100, 00 R9). -/
theorem connect_next_cases {sel : PinId} {rst bl : Option PinId} {geom : Option Geometry} {s t : State}
    (ht : exec (.connect sel rst bl geom) s = .next t) :
    t = (State.log (.openPort s.params.spiClockHz s.params.spiMode s.params.spiWordBits) .connectionError
          { s with oracle := s.oracle.takeOpen }).raiseError .connectionError ∨
      geometryOk (geom.getD geomDefault) = true ∧
      t = ((State.log (.openPort s.params.spiClockHz s.params.spiMode s.params.spiWordBits) .ok
          { s with oracle := s.oracle.takeOpen }).connected (geom.getD geomDefault) rst.isSome bl.isSome).complete .ok := by
  rw [exec, execConnect] at ht
  by_cases hg : geometryOk (geom.getD geomDefault) = true
  · rcases connectOp_cases rst.isSome bl.isSome geom s with ⟨q, hop⟩ | hop | hop
    · rw [hop] at ht; cases ht
    · rw [hop] at ht; cases ht; exact .inl rfl
    · rw [hop] at ht; cases ht; exact .inr ⟨hg, rfl⟩
  · cases hs : s.conn <;> simp [connectOp, hs, hg, Run.finish] at ht

/-! The handle: connection, configuration and parameters (10 R21, R26). -/

theorem EndsIn.keeps {es : List Emission} {s u : State} (h : EndsIn (runScript es s) u) : Keeps s u := by
  have hk := runScript_keeps es s
  rcases h with h | ⟨err, h⟩ <;> rw [h] at hk <;> exact hk

/-- Settles O44: rgb565 writes only its result, and a run keeps all these fields. -/
theorem onlyConnectWritesTheHandle : Obligations.OnlyConnectWritesTheHandle := by
  intro i s t ht hcon
  rcases exec_next_cases ht with ⟨sel, rst, bl, geom, rfl⟩ | ⟨r, g, b, a, -, rfl⟩ | ⟨es, -, -, u, q, r, hu, rfl, -⟩
  · exact absurd rfl (hcon sel rst bl geom)
  · exact ⟨rfl, rfl, rfl, rfl, rfl, rfl⟩
  · have hk := hu.keeps
    exact ⟨hk.params, hk.conn, hk.cfg, hk.rst, hk.port, hk.opens⟩

/-- A connect on a connected block does not end: it is refused (10 R26). -/
theorem not_connect_of_next {i : Instr} {s t : State} (hc : Connected s) (ht : exec i s = .next t) :
    ∀ sel rst bl geom, i ≠ .connect sel rst bl geom := by
  rintro sel rst bl geom rfl
  obtain ⟨q, hq⟩ := exec_refused_of_no_script (i := .connect sel rst bl geom) hc rfl nofun
  rw [hq] at ht
  cases ht

/-- Settles O46: a step that waits changes nothing, a second connect is refused, and no other call writes the handle. -/
theorem noStepReconstructsTheHandle : Obligations.NoStepReconstructsTheHandle := by
  intro s t hstep hc
  rcases step_next_cases hstep with rfl | ⟨i, rest, ht⟩
  · exact ⟨rfl, rfl, rfl⟩
  · have hcon := not_connect_of_next (s := { s with port := rest }) hc ht
    obtain ⟨hparams, hconn, hcfg, -⟩ := onlyConnectWritesTheHandle i _ t ht hcon
    exact ⟨hconn, hcfg, hparams⟩

/-! The events of the scripts, and the lines they drive. -/

/-- An event of the panel's own: framed (10 R23, 20 R46), and no write of the backlight. -/
def PanelEvent (ev : Event) : Prop := framed ev = true ∧ ∀ lvl, ev ≠ .pin .bl lvl

theorem commandScript_panelEvent {st : Option (Fin 20)} {bs : List Byte} (h : bs ≠ []) :
    ∀ e ∈ commandScript st bs, PanelEvent e.event := by
  have hlen : 1 ≤ bs.length := List.length_pos_iff.2 h
  simp [commandScript, PanelEvent, framed, hlen]

/-- Each chunk begins inside the payload, so it is not empty, and it is cut at 4096 bytes (20 R46). -/
theorem dataScript_panelEvent (st : Option (Fin 20)) (bs : List Byte) :
    ∀ e ∈ dataScript st bs, PanelEvent e.event := by
  simp only [dataScript, List.mem_cons, List.mem_map, List.mem_range]
  rintro e (rfl | ⟨k, hk, rfl⟩)
  · exact ⟨rfl, nofun⟩
  · refine ⟨decide_eq_true ?_, nofun⟩
    rw [List.length_take, List.length_drop]
    omega

theorem unitScript_panelEvent (st : Option (Fin 20)) (o : Opcodes) (u : CmdUnit) :
    ∀ e ∈ unitScript st o u, PanelEvent e.event := by
  simp only [unitScript, List.mem_append, List.mem_map]
  rintro e ((he | he) | ⟨ms, -, rfl⟩)
  · exact commandScript_panelEvent (by simp) e he
  · split at he
    · cases he
    · exact dataScript_panelEvent st _ e he
  · exact ⟨rfl, nofun⟩

theorem windowScript_panelEvent {p : Params} {c : Cfg} {x0 y0 x1 y1 : Int} {w : List Emission}
    (h : windowScript p c x0 y0 x1 y1 = some w) : ∀ e ∈ w, PanelEvent e.event := by
  unfold windowScript at h
  split at h
  · cases h
    simp only [List.mem_append]
    rintro e ((he | he) | he) <;> exact unitScript_panelEvent none _ _ e he
  · cases h

/-- A window and the data phase after it (41 R121, R124). -/
theorem windowScript_data_panelEvent {p : Params} {c : Cfg} {x0 y0 x1 y1 : Int} {bs : List Byte} {es : List Emission}
    (h : (windowScript p c x0 y0 x1 y1).map (fun w => w ++ dataScript none bs) = some es) :
    ∀ e ∈ es, PanelEvent e.event := by
  obtain ⟨w, hw, rfl⟩ := Option.map_eq_some_iff.1 h
  intro e he
  rcases List.mem_append.1 he with he | he
  · exact windowScript_panelEvent hw e he
  · exact dataScript_panelEvent none bs e he

theorem initScript_panelEvent (p : Params) (c : Cfg) : ∀ e ∈ initScript p c, PanelEvent e.event := by
  intro e he
  obtain ⟨us, hus, he⟩ := List.mem_flatten.1 he
  obtain ⟨k, _, rfl⟩ := List.mem_mapIdx.1 hus
  exact unitScript_panelEvent _ _ _ e he

/-- Only set_backlight and halt write the backlight (40 R108, 41 R126): the other scripts hold panel events only. -/
theorem scriptOf_panelEvent {p : Params} {c : Cfg} {i : Instr} {es : List Emission} (h : scriptOf p c i = some es)
    (hset : ∀ en, i ≠ .setBacklight en) (hhalt : i ≠ .halt) : ∀ e ∈ es, PanelEvent e.event := by
  cases i with
  | initializePanel => rw [← Option.some.inj h]; exact initScript_panelEvent p c
  | sendCommand bs =>
    simp only [scriptOf] at h
    split at h
    · cases h
    · cases h; exact commandScript_panelEvent ‹_›
  | sendData bs => cases h; exact dataScript_panelEvent none bs
  | sleep | powersave => cases h; exact commandScript_panelEvent (by simp)
  | setBacklight en => exact absurd rfl (hset en)
  | setWindow x0 y0 x1 y1 => exact windowScript_panelEvent h
  | displayImage x y img =>
    simp only [scriptOf] at h
    split at h
    · cases h; nofun
    · exact windowScript_data_panelEvent h
  | display raw => exact windowScript_data_panelEvent h
  | halt => exact absurd rfl hhalt
  | connect | rgb565 => cases h
  | _ => cases h; exact unitScript_panelEvent none _ _

/-- A backlight write, on a block that has the pin (10 R24). -/
def BacklightEvent (c : Cfg) (ev : Event) : Prop := c.hasBl = true ∧ ∃ lvl, ev = .pin .bl lvl

theorem backlightScript_backlightEvent (p : Params) (c : Cfg) (en : Bool) :
    ∀ e ∈ backlightScript p c en, BacklightEvent c e.event := by
  unfold backlightScript
  split
  · simp only [List.mem_singleton, forall_eq]
    exact ⟨‹_›, _, rfl⟩
  · nofun

theorem scriptOf_event {p : Params} {c : Cfg} {i : Instr} {es : List Emission} (h : scriptOf p c i = some es) :
    ∀ e ∈ es, PanelEvent e.event ∨ BacklightEvent c e.event := by
  intro e he
  by_cases hset : ∃ en, i = .setBacklight en
  · obtain ⟨en, rfl⟩ := hset
    cases h
    exact .inr (backlightScript_backlightEvent p c en e he)
  by_cases hhalt : i = .halt
  · subst hhalt
    cases h
    rcases List.mem_append.1 he with he | he
    · exact .inr (backlightScript_backlightEvent p c false e he)
    · exact .inl (commandScript_panelEvent (by simp) e he)
  · push Not at hset
    exact .inl (scriptOf_panelEvent h hset hhalt e he)

theorem scriptOf_framed {p : Params} {c : Cfg} {i : Instr} {es : List Emission} (h : scriptOf p c i = some es) :
    ∀ e ∈ es, framed e.event = true := by
  intro e he
  rcases scriptOf_event h e he with hpanel | ⟨-, lvl, hev⟩
  · exact hpanel.1
  · rw [hev]; rfl

/-- From `s` to `t` the backlight line was not driven and none of its answers drawn. -/
structure BlKept (s t : State) : Prop where
  line  : t.bl = s.bl
  draws : t.oracle.bl = s.oracle.bl

theorem BlKept.trans {s t u : State} (h : BlKept s t) (k : BlKept t u) : BlKept s u :=
  ⟨k.line.trans h.line, k.draws.trans h.draws⟩

theorem setPin_dc_blKept (lvl : Level) (s : State) : BlKept s (setPin .dc lvl s).2 := by
  cases h : s.oracle.nextDc <;> exact ⟨by simp [setPin, drawPin_dc_eq, h], by simp [setPin, drawPin_dc_eq, h]⟩

theorem emitOne_blKept {e : Emission} (he : ∀ lvl, e.event ≠ .pin .bl lvl) {s u : State}
    (h : runState (emitOne e s) = some u) : BlKept s u := by
  obtain ⟨st, ev, er⟩ := e
  have hst : BlKept s (stepOf st s) := by cases st <;> exact ⟨rfl, rfl⟩
  cases ev with
  | pin p lvl =>
    cases p with
    | bl => exact absurd rfl (he lvl)
    | dc =>
      have hset := hst.trans (setPin_dc_blKept lvl (stepOf st s))
      simp only [emitOne] at h
      rcases hp : setPin .dc lvl (stepOf st s) with ⟨a, v⟩
      rw [hp] at h hset
      cases a with
      | ok => cases h; exact hset
      | ioError => cases er <;> cases h <;> exact hset
  | tx tag bs =>
    have hlog : ∀ a, BlKept s (State.log (.tx tag bs) a { stepOf st s with oracle := (stepOf st s).oracle.takeTx }) :=
      fun a => hst.trans ⟨rfl, Oracle.takeTx_bl _⟩
    simp only [emitOne] at h
    cases ha : (stepOf st s).oracle.nextTx with
    | ok | never => rw [ha] at h; cases h; exact hlog _
    | ioError => rw [ha] at h; cases er <;> cases h <;> exact hlog _
  | delay ms => cases h; exact hst.trans ⟨rfl, rfl⟩
  | openPort clk mode bits => cases h; exact hst.trans ⟨rfl, rfl⟩

/-- A script without a backlight write leaves the backlight alone. -/
theorem runScript_blKept (es : List Emission) (hes : ∀ e ∈ es, ∀ lvl, e.event ≠ .pin .bl lvl) :
    ∀ s u : State, runState (runScript es s) = some u → BlKept s u := by
  induction es with
  | nil => intro s u h; cases h; exact ⟨rfl, rfl⟩
  | cons e rest ih =>
    intro s u h
    have hone : ∀ v, runState (emitOne e s) = some v → BlKept s v := fun v => emitOne_blKept (hes e (by simp))
    rw [runScript] at h
    cases hr : emitOne e s with
    | done v =>
      rw [hr, andThen_done] at h
      exact (hone v (by rw [hr]; rfl)).trans (ih (fun x hx => hes x (by simp [hx])) v u h)
    | failed err v => rw [hr] at h hone; exact hone u h
    | stalled v => rw [hr] at h hone; exact hone u h
    | refused q => rw [hr] at h; cases h

theorem EndsIn.blKept {es : List Emission} {s u : State} (hu : EndsIn (runScript es s) u)
    (hes : ∀ e ∈ es, PanelEvent e.event) : BlKept s u := by
  refine runScript_blKept es (fun e he => (hes e he).2) s u ?_
  rcases hu with hr | ⟨err, hr⟩ <;> rw [hr] <;> rfl

/-- set_backlight draws no DC or SPI answer and leaves DC and the sequencer alone, whatever the pin answers (40 R108). -/
theorem backlightOp_frame (en : Bool) (s : State) :
    (backlightOp en s).dc = s.dc ∧ (backlightOp en s).seqStep = s.seqStep ∧
      (backlightOp en s).oracle.dc = s.oracle.dc ∧ (backlightOp en s).oracle.tx = s.oracle.tx := by
  unfold backlightOp
  split
  · cases h : s.oracle.nextBl <;> simp [setPin, drawPin_bl_eq, h]
  · exact ⟨rfl, rfl, rfl, rfl⟩

theorem exec_setBacklight_next {en : Bool} {s t : State} (ht : exec (.setBacklight en) s = .next t) :
    t = (backlightOp en s).complete .ok := by
  cases hs : s.conn with
  | closed => rw [exec, execSetBacklight, whenConnected_closed _ hs] at ht; cases ht
  | opened => rw [exec, execSetBacklight, whenConnected_opened _ (by simp [hs])] at ht; cases ht; rfl

/-- Settles O45: an operation that is neither set_backlight nor halt runs a script without a backlight write; connect
draws from `Open` alone; set_backlight and rgb565 make no other port call. -/
theorem linesChangeOnlyWhereDriven : Obligations.LinesChangeOnlyWhereDriven := by
  intro i s t ht
  refine ⟨fun hcon hset hhalt => ?_, ?_, ?_⟩
  · rcases exec_next_cases ht with ⟨sel, rst, bl, geom, rfl⟩ | ⟨r, g, b, a, -, rfl⟩ | ⟨es, -, h, u, q, r, hu, rfl, -⟩
    · exact absurd rfl (hcon sel rst bl geom)
    · exact ⟨rfl, rfl⟩
    · obtain ⟨hline, hdraws⟩ := hu.blKept (scriptOf_panelEvent h hset hhalt)
      exact ⟨hline, hdraws⟩
  · rintro sel rst bl geom rfl
    rcases connect_next_cases ht with rfl | ⟨-, rfl⟩ <;> simp
  · rintro (⟨en, rfl⟩ | ⟨r, g, b, a, rfl⟩)
    · rw [exec_setBacklight_next ht]
      exact backlightOp_frame en s
    · cases ht
      exact ⟨rfl, rfl, rfl, rfl⟩

/-! The invariant. -/

/-- What a run that ends appends: events of its script, each of them answered (20 R51). -/
theorem EndsIn.entries {es : List Emission} {s u : State} (hu : EndsIn (runScript es s) u)
    (hes : ∀ e ∈ es, Reports e) :
    ∃ xs : List Entry, u.trace = s.trace ++ xs ∧ ∀ x ∈ xs, x.answer ≠ .never ∧ ∃ e ∈ es, e.event = x.event := by
  have hleaves := runScript_leaves es hes s
  rcases hu with hr | ⟨err, hr⟩ <;> rw [hr] at hleaves
  · obtain ⟨xs, htrace, hevents, hpassed⟩ := hleaves
    refine ⟨xs, htrace, fun x hx => ⟨(hpassed x hx).1, List.mem_map.1 ?_⟩⟩
    rw [← hevents]
    exact List.mem_map_of_mem hx
  · obtain ⟨xs, last, htrace, ⟨post, hevents⟩, hpassed, hlast, -⟩ := hleaves
    refine ⟨xs ++ [last], by rw [htrace, List.append_assoc], List.forall_mem_append.2 ⟨fun x hx => ?_, ?_⟩⟩
    · refine ⟨(hpassed x hx).1, List.mem_map.1 ?_⟩
      rw [hevents]
      exact List.mem_append_left _ (List.mem_map_of_mem hx)
    · refine List.forall_mem_singleton.2 ⟨hlast, List.mem_map.1 ?_⟩
      rw [hevents]
      simp

/-- The invariant does not speak of the calls waiting (assumption 2). -/
theorem Inv.withPort {s : State} (hinv : Inv s) (rest : List Request) : Inv { s with port := rest } :=
  ⟨hinv.geometry, hinv.idle, hinv.rst, hinv.noBl, hinv.framed, hinv.answered⟩

/-- The invariant does not speak of the results. -/
theorem Inv.complete {s : State} (hinv : Inv s) (r : Result) : Inv (s.complete r) :=
  ⟨hinv.geometry, hinv.idle, hinv.rst, hinv.noBl, hinv.framed, hinv.answered⟩

theorem Completes.inv {i : Instr} {s t : State} {es : List Emission} (hinv : Inv s) (hc : Connected s)
    (h : scriptOf s.params s.cfg i = some es) (ht : Completes es s t) : Inv t := by
  obtain ⟨u, q, r, hu, rfl, hidle⟩ := ht
  have hk := hu.keeps
  obtain ⟨xs, htrace, hxs⟩ := hu.entries (scriptOf_reports h)
  refine ⟨fun _ => ?_, hidle hinv.idle, hk.rst.trans hinv.rst, fun _ hbl => ?_, ?_, ?_⟩
  · rw [hk.cfg]
    exact hinv.geometry hc
  · rw [hk.cfg] at hbl
    have hpanel : ∀ e ∈ es, PanelEvent e.event := fun e he =>
      (scriptOf_event h e he).resolve_right (fun hb => by rw [hb.1] at hbl; cases hbl)
    exact (hu.blKept hpanel).line.trans (hinv.noBl hc hbl)
  · rw [htrace]
    refine List.forall_mem_append.2 ⟨hinv.framed, fun x hx => ?_⟩
    obtain ⟨-, e, he, hev⟩ := hxs x hx
    rw [← hev]
    exact scriptOf_framed h e he
  · rw [htrace]
    exact List.forall_mem_append.2 ⟨hinv.answered, fun x hx => (hxs x hx).1⟩

/-- A connect that fails adds only its answered `Open`; one that ends well writes a legal geometry and UNKNOWN lines. -/
theorem connect_inv {sel : PinId} {rst bl : Option PinId} {geom : Option Geometry} {s t : State} (hinv : Inv s)
    (ht : exec (.connect sel rst bl geom) s = .next t) : Inv t := by
  rcases connect_next_cases ht with rfl | ⟨hgeom, rfl⟩
  · exact ⟨hinv.geometry, rfl, hinv.rst, hinv.noBl, List.forall_mem_append.2 ⟨hinv.framed, by simp [framed]⟩,
      List.forall_mem_append.2 ⟨hinv.answered, by simp⟩⟩
  · exact ⟨fun _ => hgeom, rfl, rfl, fun _ _ => rfl, List.forall_mem_append.2 ⟨hinv.framed, by simp [framed]⟩,
      List.forall_mem_append.2 ⟨hinv.answered, by simp⟩⟩

theorem exec_inv {i : Instr} {s t : State} (hinv : Inv s) (ht : exec i s = .next t) : Inv t := by
  rcases exec_next_cases ht with ⟨sel, rst, bl, geom, rfl⟩ | ⟨r, g, b, a, -, rfl⟩ | ⟨es, hc, h, hes⟩
  · exact connect_inv hinv ht
  · exact hinv.complete _
  · exact hes.inv hinv hc h

/-- Settles O53: a step that waits changes nothing, and a call is served by an instruction, each of which keeps the
invariant. -/
theorem everyStepKeepsTheInvariant : Obligations.EveryStepKeepsTheInvariant := by
  intro s t hinv hstep
  rcases step_next_cases hstep with rfl | ⟨i, rest, ht⟩
  · exact hinv
  · exact exec_inv (hinv.withPort rest) ht

/-! Two blocks with one future: the same handle, parameters and answers, and whatever lines, sequencer, calls and past. -/

/-- From `s` to `u` and from `t` to `v` the same entries were appended, the results kept, and the same answers are
left. -/
structure Alike (s t u v : State) : Prop where
  oracle   : v.oracle = u.oracle
  appended : ∃ es, u.trace = s.trace ++ es ∧ v.trace = t.trace ++ es
  results  : u.results = s.results ∧ v.results = t.results

theorem Alike.trans {s t u v u' v' : State} (h : Alike s t u v) (k : Alike u v u' v') : Alike s t u' v' := by
  obtain ⟨-, ⟨es, hu, hv⟩, hru, hrv⟩ := h
  obtain ⟨ho, ⟨fs, hu', hv'⟩, hru', hrv'⟩ := k
  exact ⟨ho, ⟨es ++ fs, by rw [hu', hu, List.append_assoc], by rw [hv', hv, List.append_assoc]⟩,
    hru'.trans hru, hrv'.trans hrv⟩

/-- Two runs came equally far, by the same entries. -/
inductive SameRun (s t : State) : Run → Run → Prop
  | done {u v : State} (h : Alike s t u v) : SameRun s t (.done u) (.done v)
  | failed {u v : State} (err : BlockError) (h : Alike s t u v) : SameRun s t (.failed err u) (.failed err v)
  | stalled {u v : State} (h : Alike s t u v) : SameRun s t (.stalled u) (.stalled v)
  | refused (q : Refusal) : SameRun s t (.refused q) (.refused q)

/-- Equally far from the ends of two such paths is equally far from their beginnings. -/
theorem SameRun.of_alike {s t u v : State} {r r' : Run} (h : Alike s t u v) (k : SameRun u v r r') :
    SameRun s t r r' := by
  cases k with
  | done k => exact .done (h.trans k)
  | failed err k => exact .failed err (h.trans k)
  | stalled k => exact .stalled (h.trans k)
  | refused q => exact .refused q

theorem SameRun.andThen {s t : State} {r r' : Run} {k : State → Run} (h : SameRun s t r r')
    (hk : ∀ u v, v.oracle = u.oracle → SameRun u v (k u) (k v)) : SameRun s t (r.andThen k) (r'.andThen k) := by
  cases h with
  | done h => exact (hk _ _ h.oracle).of_alike h
  | failed err h => exact .failed err h
  | stalled h => exact .stalled h
  | refused q => exact .refused q

theorem Alike.log {s t u v : State} (h : Alike s t u v) (ev : Event) (a : Answer) :
    Alike s t (u.log ev a) (v.log ev a) :=
  h.trans ⟨h.oracle, ⟨[⟨ev, a⟩], rfl, rfl⟩, rfl, rfl⟩

/-- Two paths that touched neither trace nor results, and left the same answers. -/
theorem alike_of_silent {s t u v : State} (ho : v.oracle = u.oracle) (hu : u.trace = s.trace ∧ u.results = s.results)
    (hv : v.trace = t.trace ∧ v.results = t.results) : Alike s t u v :=
  ⟨ho, ⟨[], by rw [hu.1, List.append_nil], by rw [hv.1, List.append_nil]⟩, hu.2, hv.2⟩

theorem stepOf_alike (st : Option (Fin 20)) {s t : State} (h : t.oracle = s.oracle) :
    Alike s t (stepOf st s) (stepOf st t) := by
  cases st <;> exact alike_of_silent h ⟨rfl, rfl⟩ ⟨rfl, rfl⟩

/-- The same draw answers both blocks. -/
theorem setPin_alike (p : Pin) (lvl : Level) {s t : State} (h : t.oracle = s.oracle) :
    (setPin p lvl t).1 = (setPin p lvl s).1 ∧ Alike s t (setPin p lvl s).2 (setPin p lvl t).2 := by
  cases p with
  | dc =>
    simp only [setPin, drawPin_dc_eq, h]
    cases s.oracle.nextDc <;> exact ⟨rfl, rfl, ⟨_, rfl, rfl⟩, rfl, rfl⟩
  | bl =>
    simp only [setPin, drawPin_bl_eq, h]
    cases s.oracle.nextBl <;> exact ⟨rfl, rfl, ⟨_, rfl, rfl⟩, rfl, rfl⟩

theorem emitOne_sameRun (e : Emission) {s t : State} (h : t.oracle = s.oracle) :
    SameRun s t (emitOne e s) (emitOne e t) := by
  obtain ⟨st, ev, er⟩ := e
  have hst := stepOf_alike st h
  cases ev with
  | pin p lvl =>
    obtain ⟨hanswer, hset⟩ := setPin_alike p lvl hst.oracle
    simp only [emitOne]
    rcases hs : setPin p lvl (stepOf st s) with ⟨a, u⟩
    rcases ht : setPin p lvl (stepOf st t) with ⟨b, v⟩
    rw [hs, ht] at hanswer hset
    subst hanswer
    have huv := hst.trans hset
    cases b with
    | ok => exact .done huv
    | ioError => cases er with
      | none => exact .done huv
      | some err => exact .failed err huv
  | tx tag bs =>
    have hlog : ∀ (o : Oracle) (a : Answer), Alike s t (State.log (.tx tag bs) a { stepOf st s with oracle := o })
        (State.log (.tx tag bs) a { stepOf st t with oracle := o }) :=
      fun o a => hst.trans ⟨rfl, ⟨_, rfl, rfl⟩, rfl, rfl⟩
    simp only [emitOne, hst.oracle]
    cases (stepOf st s).oracle.nextTx with
    | ok => exact .done (hlog _ _)
    | never => exact .stalled (hlog _ _)
    | ioError => cases er with
      | none => exact .done (hlog _ _)
      | some err => exact .failed err (hlog _ _)
  | delay ms => exact .done (hst.log _ _)
  | openPort clk mode bits => exact .done (hst.log _ _)

/-- A script's events and tags are its own, so a run of it depends on the answers alone. -/
theorem runScript_sameRun (es : List Emission) :
    ∀ s t : State, t.oracle = s.oracle → SameRun s t (runScript es s) (runScript es t) := by
  induction es with
  | nil => exact fun _ _ h => .done (alike_of_silent h ⟨rfl, rfl⟩ ⟨rfl, rfl⟩)
  | cons e rest ih => exact fun _ _ h => (emitOne_sameRun e h).andThen ih

theorem follow_sameRun (es : List Emission) {s t : State} (h : t.oracle = s.oracle) :
    SameRun s t (follow es s) (follow es t) := by
  rw [follow_eq_runScript, follow_eq_runScript]
  exact (runScript_sameRun es s t h).andThen (fun _ _ h => .done (alike_of_silent h ⟨rfl, rfl⟩ ⟨rfl, rfl⟩))

/-- connect reads the connection, the parameters and the answer of `Open`, and nothing else (40 R100). -/
theorem connectOp_sameRun (rst bl : Bool) (geom : Option Geometry) {s t : State} (hparams : t.params = s.params)
    (hconn : t.conn = s.conn) (ho : t.oracle = s.oracle) :
    SameRun s t (connectOp rst bl geom s) (connectOp rst bl geom t) := by
  simp only [connectOp, openTransport, hparams, hconn, ho]
  cases s.conn with
  | opened => exact .refused _
  | closed =>
    by_cases hg : geometryOk (geom.getD geomDefault) = true
    · simp only [if_pos hg]
      cases s.oracle.nextOpen with
      | ok => exact .done ⟨rfl, ⟨_, rfl, rfl⟩, rfl, rfl⟩
      | connectionError => exact .failed _ ⟨rfl, ⟨_, rfl, rfl⟩, rfl, rfl⟩
    · simp only [if_neg hg]
      exact .refused _

/-- Operations that came equally far return the same result. -/
theorem SameRun.finish {s t s' : State} {r r' : Run} (h : SameRun s t r r') (hs : r.finish = .next s') :
    ∃ (t' : State) (es : List Entry) (res : Result), r'.finish = .next t' ∧ s'.trace = s.trace ++ es ∧
      t'.trace = t.trace ++ es ∧ s'.results = s.results ++ [res] ∧ t'.results = t.results ++ [res] ∧
      t'.oracle = s'.oracle := by
  cases h with
  | done h =>
    obtain ⟨ho, ⟨es, hu, hv⟩, hru, hrv⟩ := h
    cases hs
    exact ⟨_, es, .ok, rfl, hu, hv, by rw [← hru]; rfl, by rw [← hrv]; rfl, ho⟩
  | failed err h =>
    obtain ⟨ho, ⟨es, hu, hv⟩, hru, hrv⟩ := h
    cases hs
    exact ⟨_, es, .error err, rfl, hu, hv, by rw [← hru]; rfl, by rw [← hrv]; rfl, ho⟩
  | stalled h => cases hs
  | refused q => cases hs

/-- Settles O50: the script of an operation is read off the parameters and the configuration, and both blocks come
equally far in it; connect and rgb565 by their own cases. -/
theorem operationsDoNotDependOnThePast : Obligations.OperationsDoNotDependOnThePast := by
  intro i s t s' hparams hconn hcfg ho hs
  rcases exec_next_cases hs with ⟨sel, rst, bl, geom, rfl⟩ | ⟨r, g, b, a, rfl, rfl⟩ | ⟨es, hc, h, -⟩
  · exact (connectOp_sameRun rst.isSome bl.isSome geom hparams hconn ho).finish hs
  · exact ⟨_, [], _, rfl, (List.append_nil _).symm, (List.append_nil _).symm, rfl, rfl, ho⟩
  · have hct : Connected t := by rw [Connected, hconn]; exact hc
    have ht : scriptOf t.params t.cfg i = some es := by rw [hparams, hcfg]; exact h
    by_cases hi : i = .initializePanel
    · subst hi
      rw [exec_initialize_eq_follow hc, Option.some.inj h] at hs
      rw [exec_initialize_eq_follow hct, Option.some.inj ht]
      exact (follow_sameRun es ho).finish hs
    · rw [exec_eq_run hc h hi] at hs
      rw [exec_eq_run hct ht hi]
      exact (runScript_sameRun es s t ho).finish hs

end Sys2Proof.Safety
end

section
/-! Proofs for 20 R41, R44 and R46: the chunks of a payload, the pixels of an image's buffer, and the native addresses of
visible pixels. -/

namespace Sys2Proof.Safety

open Sys2Proof.Machine

theorem chunk_length (k : Nat) (bs : List Byte) : (chunk k bs).length = min 4096 (bs.length - k * 4096) := by
  simp only [chunk, chunkSize, List.length_take, List.length_drop]

/-- The first `m` chunks put back together: each goes on where the one before it was cut. -/
theorem flatten_range_chunk (bs : List Byte) (m : Nat) :
    ((List.range m).map (fun k => chunk k bs)).flatten = bs.take (m * chunkSize) := by
  induction m with
  | zero => rw [Nat.zero_mul]; rfl
  | succ m ih =>
    rw [List.range_succ, List.map_append, List.flatten_append, ih, Nat.succ_mul, List.take_add]
    simp [chunk]

theorem chunks_length (bs : List Byte) : (chunks bs).length = (bs.length + 4095) / 4096 := by
  rw [chunks, List.length_map, List.length_range, chunkCount_eq]

theorem chunks_flatten (bs : List Byte) : (chunks bs).flatten = bs := by
  rw [chunks, flatten_range_chunk, chunkCount_eq, chunkSize]
  exact List.take_of_length_le (by omega)

/-- Entry `k` of the chunks is chunk `k`, and it begins inside the payload. -/
theorem chunk_of_getElem?_chunks {bs c : List Byte} {k : Nat} (h : (chunks bs)[k]? = some c) :
    c = chunk k bs ∧ k * 4096 < bs.length := by
  obtain ⟨hk, hc⟩ := List.getElem?_eq_some_iff.1 h
  rw [chunks_length] at hk
  refine ⟨?_, by omega⟩
  rw [← hc]
  simp [chunks]

/-- Settles O20: a chunk begins inside the payload, so it has the lesser of 4096 bytes and what is left, at least one. -/
theorem chunksPartitionThePayload : Obligations.ChunksPartitionThePayload := by
  intro bs
  refine ⟨chunks_flatten bs, chunks_length bs, fun k c h => ?_⟩
  obtain ⟨rfl, hk⟩ := chunk_of_getElem?_chunks h
  rw [chunk_length]
  split <;> omega

/-- Item `col` of row `row` lies in a buffer of `rows` rows of `cols` items each. -/
theorem row_major_lt {row rows col cols : Nat} (hrow : row < rows) (hcol : col < cols) :
    row * cols + col < rows * cols := by
  have hnext : (row + 1) * cols ≤ rows * cols := Nat.mul_le_mul_right cols hrow
  rw [Nat.succ_mul] at hnext
  omega

theorem image_wellFormed_iff (img : Image) : img.wellFormed = true ↔ img.pixels.length = img.width * img.height :=
  beq_iff_eq

/-- Where the buffer reaches, `ImgAt` reads it. -/
theorem getElem?_eq_some_imgAt {img : Image} {ix iy : Int}
    (h : (iy - img.minY).toNat * img.width + (ix - img.minX).toNat < img.pixels.length) :
    img.pixels[(iy - img.minY).toNat * img.width + (ix - img.minX).toNat]? = some (imgAt img ix iy) := by
  rw [imgAt, List.getElem?_eq_getElem h, Option.getD_some]

/-- Settles O35: the row and the column lie inside the bounds, so the pixel lies inside the whole buffer. -/
theorem imgAtReadsTheBufferInsideTheBounds : Obligations.ImgAtReadsTheBufferInsideTheBounds := by
  intro img ix iy hwhole hx0 hx1 hy0 hy1
  have hcol : (ix - img.minX).toNat < img.width := by rw [Image.width]; omega
  have hrow : (iy - img.minY).toNat < img.height := by rw [Image.height]; omega
  refine getElem?_eq_some_imgAt ?_
  rw [(image_wellFormed_iff img).1 hwhole, Nat.mul_comm img.width]
  exact row_major_lt hrow hcol

theorem nativeCol_eq (c : Cfg) (x : Int) : nativeCol c x = x + c.offL.toNat := rfl

theorem nativeRow_eq (c : Cfg) (y : Int) : nativeRow c y = y + c.offT.toNat := rfl

/-- Settles O26: under a legal geometry the visible area, moved by its offsets, ends inside the native RAM (00 R9). -/
theorem visiblePixelsMapInsideNativeRam : Obligations.VisiblePixelsMapInsideNativeRam := by
  intro c x y
  refine ⟨nativeCol_eq c x, nativeRow_eq c y, fun hgeom hx0 hx1 hy0 hy1 => ?_⟩
  obtain ⟨-, -, hcols, hrows⟩ := (geometryOk_iff _).1 hgeom
  dsimp only at hcols hrows
  rw [nativeCol_eq, nativeRow_eq]
  omega

end Sys2Proof.Safety
end

section
/-! Proofs for 30 R60 to R93: requests and instructions stand for each other, host codes outside 30 R61 are refused, the
unit of each catalogue command, and which opcode bytes the command phases carry. -/

namespace Sys2Proof.Safety

open Sys2Proof.Machine

/-! The two tables of codes (30 R61, R64). -/

theorem mem_allCommands (c : Command) : c ∈ allCommands := by cases c <;> decide

theorem mem_allHostOps (op : HostOp) : op ∈ allHostOps := by cases op <;> decide

/-- Where the codes of a list are all different, looking one up finds its own entry. -/
theorem find?_code_of_nodup {α : Type} {code : α → Byte} {l : List α} (h : (l.map code).Nodup) {a : α} (ha : a ∈ l) :
    l.find? (fun x => code x == code a) = some a := by
  obtain ⟨b, hb⟩ : ∃ b, l.find? (fun x => code x == code a) = some b :=
    Option.isSome_iff_exists.1 (List.find?_isSome.2 ⟨a, ha, by simp⟩)
  have hcode : code b = code a := by simpa using List.find?_some hb
  rw [hb, List.inj_on_of_nodup_map h (List.mem_of_find?_eq_some hb) ha hcode]

theorem hostOpOf_hostCode (op : HostOp) : hostOpOf (hostCode op) = some op :=
  find?_code_of_nodup (by decide) (mem_allHostOps op)

theorem commandOf_opcodeOf {o : Opcodes} (ho : o.distinct) (c : Command) : commandOf o (opcodeOf o c) = some c :=
  find?_code_of_nodup ho (mem_allCommands c)

theorem hostCode_of_hostOpOf {code : Byte} {op : HostOp} (h : hostOpOf code = some op) : hostCode op = code :=
  beq_iff_eq.1 (List.find?_some (p := fun op => hostCode op == code) h)

theorem opcodeOf_of_commandOf {o : Opcodes} {opcode : Byte} {c : Command} (h : commandOf o opcode = some c) :
    opcodeOf o c = opcode :=
  beq_iff_eq.1 (List.find?_some (p := fun c => opcodeOf o c == opcode) h)

/-! What each form of parameter bytes decodes to (30 R64, R65). -/

theorem decodeNone_eq_some_iff {i j : Instr} {ps : List Byte} : decodeNone i ps = some j ↔ ps = [] ∧ i = j := by
  simp [decodeNone]

theorem decodeOne_eq_some_iff {f : Byte → Instr} {j : Instr} {ps : List Byte} :
    decodeOne f ps = some j ↔ ∃ v, ps = [v] ∧ f v = j := by
  constructor
  · intro h
    unfold decodeOne at h
    split at h
    · exact ⟨_, rfl, Option.some.inj h⟩
    · cases h
  · rintro ⟨v, rfl, rfl⟩
    rfl

theorem decodeAddress_eq_some_iff {f : Byte → Byte → Instr} {j : Instr} {ps : List Byte} :
    decodeAddress f ps = some j ↔ ∃ a0 a1, ps = [0, a0, 0, a1] ∧ f a0 a1 = j := by
  constructor
  · intro h
    unfold decodeAddress at h
    split at h
    · obtain ⟨⟨rfl, rfl⟩, hj⟩ := Option.ite_none_right_eq_some.1 h
      exact ⟨_, _, rfl, Option.some.inj hj⟩
    · cases h
  · rintro ⟨a0, a1, rfl, rfl⟩
    simp [decodeAddress]

theorem exactBytes_eq_some_iff {n : Nat} {bs : List Byte} {v : Vector Byte n} :
    exactBytes n bs = some v ↔ bs = v.toList := by
  constructor
  · intro h
    unfold exactBytes at h
    split at h
    · rw [← Option.some.inj h]; rfl
    · cases h
  · rintro rfl
    exact dif_pos v.length_toList

theorem map_exactBytes_eq_some_iff {n : Nat} {f : Vector Byte n → Instr} {ps : List Byte} {j : Instr} :
    (exactBytes n ps).map f = some j ↔ ∃ v : Vector Byte n, ps = v.toList ∧ f v = j := by
  simp only [Option.map_eq_some_iff, exactBytes_eq_some_iff]

/-! Decoding an encoded instruction. -/

theorem decode_hostRequest {op : HostOp} {args : List Arg} {i : Instr} (o : Opcodes) (h : decodeArgs op args = some i) :
    decode o (hostRequest op args) = .ok i := by
  simp only [decode, hostRequest, hostOpOf_hostCode, h]

theorem decode_unitRequest {o : Opcodes} (ho : o.distinct) {c : Command} {ps : List Byte} {i : Instr}
    (h : decodeParams c ps = some i) : decode o (unitRequest o c ps) = .ok i := by
  simp only [decode, unitRequest, commandOf_opcodeOf ho, h]

/-- Settles O1: a host code and, where they are distinct, an opcode byte find their own row again, and the operands or
parameter bytes are read back by the form of that row. -/
theorem decodeOfEncodeIsTheInstruction : Obligations.DecodeOfEncodeIsTheInstruction := by
  intro o i ho hi
  cases i with
  | displayImage x y img => exact decode_hostRequest o (if_pos hi)
  | connect | initializePanel | sendCommand | sendData | sleep | setBacklight | setWindow | display | powersave | halt
  | rgb565 => exact decode_hostRequest o rfl
  | swreset | slpin | slpout | noron | invoff | invon | dispon | ramwr =>
    exact decode_unitRequest ho (decodeNone_eq_some_iff.2 ⟨rfl, rfl⟩)
  | madctl v | colmod v | invctr v | vmctr1 v => exact decode_unitRequest ho (decodeOne_eq_some_iff.2 ⟨v, rfl, rfl⟩)
  | caset a0 a1 | raset a0 a1 => exact decode_unitRequest ho (decodeAddress_eq_some_iff.2 ⟨a0, a1, rfl, rfl⟩)
  | frmctr1 v | frmctr2 v | frmctr3 v | pwctr1 v | pwctr2 v | pwctr3 v | pwctr4 v | pwctr5 v | gmctrp1 v | gmctrn1 v =>
    exact decode_unitRequest ho (map_exactBytes_eq_some_iff.2 ⟨v, rfl, rfl⟩)

/-! Encoding a decoded request. -/

/-- Only the operands of display_image are checked further, for the image's pixels (20 R44). -/
theorem encode_of_decodeArgs (o : Opcodes) {op : HostOp} {args : List Arg} {i : Instr}
    (h : decodeArgs op args = some i) : encode o i = hostRequest op args ∧ i.wellFormed = true := by
  unfold decodeArgs at h
  split at h
  case h_8 x y img =>
    obtain ⟨hwhole, hi⟩ := Option.ite_none_right_eq_some.1 h
    cases hi
    exact ⟨rfl, hwhole⟩
  all_goals cases h
  all_goals exact ⟨rfl, rfl⟩

theorem encode_of_decodeParams (o : Opcodes) {c : Command} {ps : List Byte} {i : Instr}
    (h : decodeParams c ps = some i) : encode o i = unitRequest o c ps ∧ i.wellFormed = true := by
  cases c with
  | swreset | slpin | slpout | noron | invoff | invon | dispon | ramwr =>
    obtain ⟨rfl, rfl⟩ := decodeNone_eq_some_iff.1 h
    exact ⟨rfl, rfl⟩
  | madctl | colmod | invctr | vmctr1 =>
    obtain ⟨v, rfl, rfl⟩ := decodeOne_eq_some_iff.1 h
    exact ⟨rfl, rfl⟩
  | caset | raset =>
    obtain ⟨a0, a1, rfl, rfl⟩ := decodeAddress_eq_some_iff.1 h
    exact ⟨rfl, rfl⟩
  | frmctr1 | frmctr2 | frmctr3 | pwctr1 | pwctr2 | pwctr3 | pwctr4 | pwctr5 | gmctrp1 | gmctrn1 =>
    obtain ⟨v, rfl, rfl⟩ := map_exactBytes_eq_some_iff.1 h
    exact ⟨rfl, rfl⟩

/-- A call that decodes has the code of an operation and that operation's operands. -/
theorem decode_call_eq_ok {o : Opcodes} {code : Byte} {args : List Arg} {i : Instr}
    (h : decode o (.call ⟨code, args⟩) = .ok i) : ∃ op, hostOpOf code = some op ∧ decodeArgs op args = some i := by
  cases hop : hostOpOf code with
  | none => simp only [decode, hop] at h; cases h
  | some op =>
    cases hargs : decodeArgs op args with
    | none => simp only [decode, hop, hargs] at h; cases h
    | some j => simp only [decode, hop, hargs] at h; cases h; exact ⟨op, rfl, hargs⟩

/-- A unit that decodes has the opcode byte of a command and that command's parameter bytes. -/
theorem decode_unit_eq_ok {o : Opcodes} {opcode : Byte} {ps : List Byte} {i : Instr}
    (h : decode o (.unit opcode ps) = .ok i) : ∃ c, commandOf o opcode = some c ∧ decodeParams c ps = some i := by
  cases hc : commandOf o opcode with
  | none => simp only [decode, hc] at h; cases h
  | some c =>
    cases hparams : decodeParams c ps with
    | none => simp only [decode, hc, hparams] at h; cases h
    | some j => simp only [decode, hc, hparams] at h; cases h; exact ⟨c, rfl, hparams⟩

/-- Settles O2: the row that is found is one whose code is the request's, so its encoding has the same code, and the
operands or parameter bytes are those of the form of that row. -/
theorem decodeAcceptsOnlyEncodings : Obligations.DecodeAcceptsOnlyEncodings := by
  intro o r i h
  cases r with
  | call call =>
    obtain ⟨op, hop, hargs⟩ := decode_call_eq_ok h
    obtain ⟨hencode, hwf⟩ := encode_of_decodeArgs o hargs
    exact ⟨by rw [hencode, hostRequest, hostCode_of_hostOpOf hop], hwf⟩
  | unit opcode ps =>
    obtain ⟨c, hc, hparams⟩ := decode_unit_eq_ok h
    obtain ⟨hencode, hwf⟩ := encode_of_decodeParams o hparams
    exact ⟨by rw [hencode, unitRequest, opcodeOf_of_commandOf hc], hwf⟩

/-! Requests that are no instruction, and the written-out ones. -/

theorem hostCode_range (op : HostOp) : 1 ≤ (hostCode op).toNat ∧ (hostCode op).toNat ≤ 0x0C := by
  cases op <;> decide

theorem hostOpOf_unassigned {code : Byte} (h : code.toNat = 0 ∨ 0x0D ≤ code.toNat) : hostOpOf code = none := by
  refine List.find?_eq_none.2 fun op _ hop => ?_
  have hrange := hostCode_range op
  rw [beq_iff_eq.1 hop] at hrange
  omega

theorem step_refused_of_decode_error {s : State} {req : Request} {rest : List Request} {e : DecodeError}
    (hport : s.port = req :: rest) (hdecode : decode s.params.opc req = .error e) :
    step s = .refused (refusalOf e) := by
  simp only [step, fetch, hport, hdecode]

/-- Settles O3: no host operation has a code outside 0x01 to 0x0C. -/
theorem unassignedHostCodesAreRefused : Obligations.UnassignedHostCodesAreRefused := by
  intro s code args rest hcode hport
  refine step_refused_of_decode_error (e := .unknownOp code) hport ?_
  simp only [decode, hostOpOf_unassigned hcode]

/-- Settles O5: the default bytes are literals, and so is the list of commands. -/
theorem defaultOpcodesAreDistinct : Obligations.DefaultOpcodesAreDistinct := ⟨by decide, rfl⟩

/-- Settles O4: four of the requests are encodings under the default catalogue, whose bytes are distinct; the other two
are refused as the decoder computes. -/
theorem statedWordsDecode : Obligations.StatedWordsDecode := by
  have decodes : ∀ i : Instr, i.wellFormed = true → decode opcodesDefault (encode opcodesDefault i) = .ok i :=
    fun i => decodeOfEncodeIsTheInstruction opcodesDefault i defaultOpcodesAreDistinct.1
  exact ⟨decodes (.setWindow (-26) (-1) 0 300) rfl, decodes (.rgb565 255 0 1 2) rfl, decodes (.caset 0x1A 0x69) rfl, rfl,
    decodes .slpin rfl, rfl⟩

/-! The unit of a catalogue command, where every answer is ok (30 R60, R62). -/

/-- A unit on its own whose events are granted leaves them played, and returns ok. -/
theorem execUnit_of_grants {cmd : Command} {ps : List Byte} {s : State} {evs : List Event} (hc : Connected s)
    (hevs : unitEvents s.params.opc ⟨cmd, ps, settleDelay cmd⟩ = evs) (h : Grants s evs) :
    execUnit cmd ps s = .next ((played evs s).complete .ok) := by
  subst hevs
  rw [← unitScript_events none] at h
  rw [execUnit, whenConnected_opened _ hc, emitUnit_eq_run, runScript_granted _ s h,
    stepAfter_none (unitScript_step_none _ _), unitScript_events]
  rfl

theorem unitEvents_of_no_params (o : Opcodes) (cmd : Command) (d : Option Nat) :
    unitEvents o ⟨cmd, [], d⟩ = commandEvents [opcodeOf o cmd] ++ d.toList.map (fun ms => .delay ms) := by
  simp [unitEvents, frameEvents]

/-- A payload of one chunk is one transaction (20 R46). -/
theorem dataEvents_of_one_chunk {bs : List Byte} (hpos : 0 < bs.length) (hle : bs.length ≤ 4096) :
    dataEvents bs = [.pin .dc .high, .tx .high bs] := by
  have hcount : (bs.length + 4095) / 4096 = 1 := by omega
  simp [dataEvents, hcount, List.take_of_length_le hle]

theorem paramCount_le (c : Command) : paramCount c ≤ 16 := by cases c <;> decide

/-- No command has both parameter bytes and a settle delay (30 R70 to R93). -/
theorem settleDelay_of_paramCount_pos {c : Command} (h : 0 < paramCount c) : settleDelay c = none := by
  cases c with
  | swreset | slpout | noron | dispon => cases h
  | _ => rfl

theorem unitEvents_of_params (o : Opcodes) {cmd : Command} {ps : List Byte} (hpos : 0 < paramCount cmd)
    (hlen : ps.length = paramCount cmd) :
    unitEvents o ⟨cmd, ps, settleDelay cmd⟩ =
      [.pin .dc .low, .tx .low [opcodeOf o cmd], .pin .dc .high, .tx .high ps] := by
  have hle := paramCount_le cmd
  have hne : ps ≠ [] := List.ne_nil_of_length_pos (by omega)
  simp [unitEvents, frameEvents, commandEvents, hne, dataEvents_of_one_chunk (bs := ps) (by omega) (by omega),
    settleDelay_of_paramCount_pos hpos]

/-- A command without parameters is its command phase and its settle delay, if it has one. -/
theorem execUnit_of_no_params {cmd : Command} {s : State} {ds : List PinAnswer} {xs : List TxAnswer} (hc : Connected s)
    (hdc : s.oracle.dc = .ok :: ds) (htx : s.oracle.tx = .ok :: xs) :
    execUnit cmd [] s = .next { s with
      dc := .low
      oracle := { s.oracle with dc := ds, tx := xs }
      trace := s.trace ++ [⟨.pin .dc .low, .ok⟩, ⟨.tx .low [opcodeOf s.params.opc cmd], .ok⟩] ++
        (settleDelay cmd).toList.map (fun ms => ⟨.delay ms, .ok⟩)
      results := s.results ++ [.ok] } := by
  rw [execUnit_of_grants hc (unitEvents_of_no_params _ _ _)]
  · cases settleDelay cmd <;>
      simp [played, commandEvents, lineAfter, lineOf, pinCount, txCount, State.complete, hdc, htx]
  · cases settleDelay cmd <;> simp [Grants, commandEvents, pinCount, txCount, hdc, htx]

/-- A command with parameters is its command phase and one data phase. -/
theorem execUnit_of_params {cmd : Command} {ps : List Byte} {s : State} {ds : List PinAnswer} {xs : List TxAnswer}
    (hc : Connected s) (hdc : s.oracle.dc = .ok :: .ok :: ds) (htx : s.oracle.tx = .ok :: .ok :: xs)
    (hpos : 0 < paramCount cmd) (hlen : ps.length = paramCount cmd) :
    execUnit cmd ps s = .next { s with
      dc := .high
      oracle := { s.oracle with dc := ds, tx := xs }
      trace := s.trace ++ [⟨.pin .dc .low, .ok⟩, ⟨.tx .low [opcodeOf s.params.opc cmd], .ok⟩,
        ⟨.pin .dc .high, .ok⟩, ⟨.tx .high ps, .ok⟩]
      results := s.results ++ [.ok] } := by
  rw [execUnit_of_grants hc (unitEvents_of_params _ hpos hlen)]
  · simp [played, lineAfter, lineOf, pinCount, txCount, State.complete, hdc, htx]
  · simp [Grants, pinCount, txCount, hdc, htx]

/-- Settles O41: these four have no parameter and no settle delay. -/
theorem plainCommandsSendOneByte : Obligations.PlainCommandsSendOneByte := by
  intro s ds xs after hc hdc htx hafter
  have plain : ∀ cmd, settleDelay cmd = none → execUnit cmd [] s = .next (after (opcodeOf s.params.opc cmd)) := by
    intro cmd hdelay
    rw [execUnit_of_no_params hc hdc htx, hafter, hdelay, Option.toList_none, List.map_nil, List.append_nil]
  exact ⟨plain .slpin rfl, plain .invoff rfl, plain .invon rfl, plain .ramwr rfl⟩

/-- Settles O42: these four have no parameter, and the settle delay of their row. -/
theorem settlingCommandsWaitAfterTheirByte : Obligations.SettlingCommandsWaitAfterTheirByte := by
  intro s ds xs after hc hdc htx hafter
  have settles : ∀ cmd ms, settleDelay cmd = some ms →
      execUnit cmd [] s = .next (after (opcodeOf s.params.opc cmd) ms) := by
    intro cmd ms hdelay
    rw [execUnit_of_no_params hc hdc htx, hafter, hdelay, List.append_assoc]
    rfl
  exact ⟨settles .swreset 150 rfl, settles .slpout 500 rfl, settles .noron 100 rfl, settles .dispon 100 rfl⟩

/-- Settles O43: each of these has as many bytes as its row counts, and no settle delay. -/
theorem parameterCommandsSendTheirBytes : Obligations.ParameterCommandsSendTheirBytes := by
  rintro s _ ds xs after hc hdc rfl htx hafter
  have sends : ∀ cmd ps, 0 < paramCount cmd → ps.length = paramCount cmd →
      execUnit cmd ps s = .next (after (opcodeOf s.params.opc cmd) ps) := by
    intro cmd ps hpos hlen
    rw [execUnit_of_params hc hdc htx hpos hlen, hafter]
  have sendsVector : ∀ cmd (ps : Vector Byte (paramCount cmd)), 0 < paramCount cmd →
      execUnit cmd ps.toList s = .next (after (opcodeOf s.params.opc cmd) ps.toList) :=
    fun cmd ps hpos => sends cmd ps.toList hpos ps.length_toList
  exact ⟨fun x0 x1 => sends .caset [0, x0, 0, x1] (by decide) rfl,
    fun y0 y1 => sends .raset [0, y0, 0, y1] (by decide) rfl,
    fun v => sends .madctl [v] (by decide) rfl,
    fun v => sends .colmod [v] (by decide) rfl,
    fun ps => sendsVector .frmctr1 ps (by decide),
    fun ps => sendsVector .frmctr2 ps (by decide),
    fun ps => sendsVector .frmctr3 ps (by decide),
    fun v => sends .invctr [v] (by decide) rfl,
    fun ps => sendsVector .pwctr1 ps (by decide),
    fun ps => sendsVector .pwctr2 ps (by decide),
    fun ps => sendsVector .pwctr3 ps (by decide),
    fun ps => sendsVector .pwctr4 ps (by decide),
    fun ps => sendsVector .pwctr5 ps (by decide),
    fun v => sends .vmctr1 [v] (by decide) rfl,
    fun ps => sendsVector .gmctrp1 ps (by decide),
    fun ps => sendsVector .gmctrn1 ps (by decide)⟩

/-! The parts of a script, and the opcode bytes of its command phases (30 R67 (a)). -/

/-- What a script is made of, but for send_command's: units of the catalogue, data phases and backlight writes. -/
inductive PartOf (p : Params) (c : Cfg) (e : Emission) : Prop
  | unit (st : Option (Fin 20)) (u : CmdUnit) (h : e ∈ unitScript st p.opc u)
  | data (bs : List Byte) (h : e ∈ dataScript none bs)
  | backlight (en : Bool) (h : e ∈ backlightScript p c en)

/-- sleep's script is SLPIN's unit without parameters (40 R107). -/
theorem sleepScript_partOf (p : Params) (c : Cfg) : ∀ e ∈ commandScript none [p.opc.slpin], PartOf p c e :=
  fun _ he => .unit none ⟨.slpin, [], none⟩ he

theorem windowScript_partOf {p : Params} {c : Cfg} {x0 y0 x1 y1 : Int} {w : List Emission}
    (h : windowScript p c x0 y0 x1 y1 = some w) : ∀ e ∈ w, PartOf p c e := by
  unfold windowScript at h
  split at h
  · cases h
    simp only [List.mem_append]
    rintro e ((he | he) | he) <;> exact .unit none _ he
  · cases h

/-- A window and the data phase after it (41 R121, R124). -/
theorem windowScript_data_partOf {p : Params} {c : Cfg} {x0 y0 x1 y1 : Int} {bs : List Byte} {es : List Emission}
    (h : (windowScript p c x0 y0 x1 y1).map (fun w => w ++ dataScript none bs) = some es) :
    ∀ e ∈ es, PartOf p c e := by
  obtain ⟨w, hw, rfl⟩ := Option.map_eq_some_iff.1 h
  exact List.forall_mem_append.2 ⟨windowScript_partOf hw, fun _ he => .data bs he⟩

theorem initScript_partOf (p : Params) (c : Cfg) : ∀ e ∈ initScript p c, PartOf p c e := by
  intro e he
  obtain ⟨us, hus, he⟩ := List.mem_flatten.1 he
  obtain ⟨k, _, rfl⟩ := List.mem_mapIdx.1 hus
  exact .unit _ _ he

theorem scriptOf_partOf {p : Params} {c : Cfg} {i : Instr} {es : List Emission} (h : scriptOf p c i = some es)
    (hi : ∀ bs, i ≠ .sendCommand bs) : ∀ e ∈ es, PartOf p c e := by
  cases i with
  | initializePanel => rw [← Option.some.inj h]; exact initScript_partOf p c
  | sendCommand bs => exact absurd rfl (hi bs)
  | sendData bs => cases h; exact fun _ he => .data bs he
  | sleep | powersave => cases h; exact sleepScript_partOf p c
  | setBacklight en => cases h; exact fun _ he => .backlight en he
  | setWindow x0 y0 x1 y1 => exact windowScript_partOf h
  | displayImage x y img =>
    simp only [scriptOf] at h
    split at h
    · cases h; nofun
    · exact windowScript_data_partOf h
  | display raw => exact windowScript_data_partOf h
  | halt =>
    cases h
    exact List.forall_mem_append.2 ⟨fun _ he => .backlight false he, sleepScript_partOf p c⟩
  | connect | rgb565 => cases h
  | _ => cases h; exact fun _ he => .unit none _ he

/-- A data phase holds no command phase: DC is HIGH. -/
theorem dataScript_event_ne_command {st : Option (Fin 20)} {ds bs : List Byte} {e : Emission}
    (he : e ∈ dataScript st ds) : e.event ≠ .tx .low bs := by
  simp only [dataScript, List.mem_cons, List.mem_map] at he
  rcases he with rfl | ⟨k, -, rfl⟩ <;> nofun

/-- The only command phase of a unit carries its command's opcode byte (30 R60). -/
theorem unitScript_command {st : Option (Fin 20)} {o : Opcodes} {u : CmdUnit} {e : Emission} {bs : List Byte}
    (he : e ∈ unitScript st o u) (hev : e.event = .tx .low bs) : bs = [opcodeOf o u.cmd] := by
  simp only [unitScript, commandScript, List.mem_append, List.mem_cons, List.mem_map, List.not_mem_nil, or_false] at he
  rcases he with ((rfl | rfl) | he) | ⟨ms, -, rfl⟩
  · cases hev
  · cases hev; rfl
  · split at he
    · cases he
    · exact absurd hev (dataScript_event_ne_command he)
  · cases hev

theorem PartOf.command {p : Params} {c : Cfg} {e : Emission} {bs : List Byte} (h : PartOf p c e)
    (hev : e.event = .tx .low bs) : ∃ cmd, bs = [opcodeOf p.opc cmd] := by
  cases h with
  | unit st u he => exact ⟨u.cmd, unitScript_command he hev⟩
  | data ds he => exact absurd hev (dataScript_event_ne_command he)
  | backlight en he =>
    obtain ⟨-, lvl, hbl⟩ := backlightScript_backlightEvent p c en e he
    rw [hbl] at hev
    cases hev

/-- The one event of a connect that ends is an `Open` (40 R100). -/
theorem connect_next_trace {sel : PinId} {rst bl : Option PinId} {geom : Option Geometry} {s t : State}
    (ht : exec (.connect sel rst bl geom) s = .next t) :
    ∃ clk mode bits a, t.trace = s.trace ++ [⟨.openPort clk mode bits, a⟩] := by
  rcases connect_next_cases ht with rfl | ⟨-, rfl⟩ <;> exact ⟨_, _, _, _, rfl⟩

/-- Settles O49: connect and rgb565 issue no transaction; any other operation's entries are events of its script, whose
command phases are those of units of the catalogue. -/
theorem commandPhasesCarryCatalogueOpcodes : Obligations.CommandPhasesCarryCatalogueOpcodes := by
  intro i s t ht hi es x bs htrace hx hev
  rcases exec_next_cases ht with ⟨sel, rst, bl, geom, rfl⟩ | ⟨r, g, b, a, -, rfl⟩ | ⟨script, -, h, u, q, r, hu, rfl, -⟩
  · obtain ⟨clk, mode, bits, a, hopen⟩ := connect_next_trace ht
    rw [hopen, List.append_cancel_left_eq] at htrace
    rw [← htrace, List.mem_singleton] at hx
    rw [hx] at hev
    cases hev
  · rw [State.complete_trace, List.self_eq_append_right] at htrace
    rw [htrace] at hx
    cases hx
  · obtain ⟨xs, hxs, hentries⟩ := hu.entries (scriptOf_reports h)
    have hes : es = xs := List.append_cancel_left (htrace.symm.trans hxs)
    obtain ⟨-, e, he, hevent⟩ := hentries x (hes ▸ hx)
    exact (scriptOf_partOf h hi e he).command (hevent.trans hev)

end Sys2Proof.Safety
end

section
/-! Proofs for 40 R100 to R108: the sends, the initialisation, connect, sleep and the backlight, each by the answers of the
ports. -/

namespace Sys2Proof.Safety

open Sys2Proof.Machine

/-! Every operation with a script, by the answers: all granted, or the first failure. -/

/-- Where every event of its script is granted, an operation leaves them played and returns ok. The initialisation moves the
sequencer, so its own is `follow_granted`. -/
theorem exec_of_grants {i : Instr} {s : State} {es : List Emission} (hc : Connected s)
    (h : scriptOf s.params s.cfg i = some es) (hi : i ≠ .initializePanel) (hg : Grants s (es.map (fun e => e.event))) :
    exec i s = .next ((played (es.map (fun e => e.event)) s).complete .ok) := by
  have hstep : ∀ e ∈ es, e.step = none := fun e he => (scriptOf_emittedAt h hi e he).step
  rw [exec_eq_run hc h hi, runScript_granted es s hg, stepAfter_none hstep]
  rfl

theorem follow_granted (es : List Emission) {s : State} (hg : Grants s (es.map (fun e => e.event))) :
    follow es s = .done { played (es.map (fun e => e.event)) s with seqStep := .idle } := by
  rw [follow_eq_runScript, runScript_granted es s hg, andThen_done]

theorem stoppedAt_results (es : List Event) (e : Event) (s : State) : (stoppedAt es e s).results = s.results := by
  cases e with
  | pin p lvl => cases p <;> rfl
  | _ => rfl

/-- Where the events before it are granted and a reported event fails, an operation stops there and returns the error
(60 R166). -/
theorem exec_of_failsAt {i : Instr} {s : State} {a b : List Emission} {e : Emission} {err : BlockError}
    (hc : Connected s) (h : scriptOf s.params s.cfg i = some (a ++ e :: b)) (herr : e.error = some err)
    (hf : FailsAt s (a.map (fun x => x.event)) e.event) :
    exec i s = .next { stoppedAt (a.map (fun x => x.event)) e.event s with
      seqStep := .idle
      results := s.results ++ [.error err] } := by
  obtain ⟨q, hrun⟩ := runScript_fails (b := b) herr hf
  have hfinish : exec i s = (runScript (a ++ e :: b) s).finish := by
    by_cases hi : i = .initializePanel
    · subst hi
      rw [exec_initialize_eq_follow hc, Option.some.inj h, follow_eq_runScript, hrun, andThen_failed]
    · exact exec_eq_run hc h hi
  rw [hfinish, hrun]
  simp only [Run.finish, State.raiseError, stoppedAt_results]

/-- A list is what stands before its entry `n`, that entry, and the rest. -/
theorem eq_take_append_cons_drop {α : Type} {l : List α} {n : Nat} {a : α} (h : l[n]? = some a) :
    l = l.take n ++ a :: l.drop (n + 1) := by
  obtain ⟨hn, rfl⟩ := List.getElem?_eq_some_iff.1 h
  rw [← List.drop_eq_getElem_cons hn, List.take_append_drop]

/-! initialize. -/

/-- Settles O13: the table is the listed one. -/
theorem initTableIsTheListedTable : Obligations.InitTableIsTheListedTable := initTable_eq_initUnits

/-- The scripts of units, whatever their steps, emit the units. -/
theorem flatten_unitScript_events (o : Opcodes) (us : List CmdUnit) : ∀ st : Nat → Option (Fin 20),
    ((us.mapIdx (fun k u => unitScript (st k) o u)).flatten).map (fun e => e.event) = us.flatMap (unitEvents o) := by
  induction us with
  | nil => intro st; rfl
  | cons u rest ih =>
    intro st
    rw [List.mapIdx_cons, List.flatten_cons, List.map_append, unitScript_events, ih, List.flatMap_cons]

theorem initScript_events (p : Params) (c : Cfg) : (initScript p c).map (fun e => e.event) = initEvents p c :=
  flatten_unitScript_events p.opc (initUnits p c) _

theorem lineAfter_append (p : Pin) (a b : List Event) (l : LineLevel) :
    lineAfter p (a ++ b) l = lineAfter p b (lineAfter p a l) :=
  List.foldl_append

/-- The last unit is DISPON's, a command phase and a delay, so the initialisation leaves DC LOW. -/
theorem lineAfter_initEvents (p : Params) (c : Cfg) (l : LineLevel) : lineAfter .dc (initEvents p c) l = .low := by
  have hlast : initUnits p c = (initUnits p c).dropLast ++ [⟨.dispon, [], some 100⟩] := rfl
  rw [initEvents, hlast, List.flatMap_append, lineAfter_append]
  rfl

/-- Settles O14: the initialisation's script, every event granted. -/
theorem initializeEmitsTheWholeTable : Obligations.InitializeEmitsTheWholeTable := by
  intro s hc hg
  rw [← initScript_events] at hg
  rw [exec_initialize_eq_follow hc, follow_granted _ hg, initScript_events, ← lineAfter_initEvents s.params s.cfg s.dc]
  rfl

theorem initParams_length (p : Params) (c : Cfg) (cmd : Command) : (initParams p c cmd).length = paramCount cmd := by
  cases cmd <;> simp [initParams, paramCount, addressParams]

/-- Each unit of the table carries as many bytes as its command counts (30 R64), so at most one chunk (20 R46). -/
theorem initUnits_params_length_le {p : Params} {c : Cfg} {u : CmdUnit} (hu : u ∈ initUnits p c) :
    u.params.length ≤ 4096 := by
  rw [← initTable_eq_initUnits] at hu
  obtain ⟨k, hk, rfl⟩ := List.mem_mapIdx.1 hu
  have hle := paramCount_le (initCommands p c)[k]
  simp only [initParams_length]
  omega

/-- In a unit whose data is at most one chunk every transaction is the first of its send, so its failure is reported at
offset 0; only the delay has no failure. -/
theorem unitScript_error {st : Option (Fin 20)} {o : Opcodes} {u : CmdUnit} (hlen : u.params.length ≤ 4096) :
    ∀ e ∈ unitScript st o u, (∃ ms, e.event = .delay ms) ∨ e.error = some (reported st (causeAt e.event 0)) := by
  simp only [unitScript, commandScript, List.mem_append, List.mem_cons, List.not_mem_nil, or_false, List.mem_map]
  rintro e (((rfl | rfl) | hdata) | ⟨ms, -, rfl⟩)
  · exact .inr rfl
  · exact .inr rfl
  · split at hdata
    · cases hdata
    · simp only [dataScript, List.mem_cons, List.mem_map, List.mem_range] at hdata
      obtain rfl | ⟨k, hk, rfl⟩ := hdata
      · exact .inr rfl
      · have hfirst : k = 0 := by omega
        subst hfirst
        exact .inr rfl
  · exact .inl ⟨ms, rfl⟩

/-- A unit's script, cut at its event `j`. -/
theorem unitScript_split {o : Opcodes} {u : CmdUnit} {j : Nat} {ev : Event} (st : Option (Fin 20))
    (hj : (unitEvents o u)[j]? = some ev) :
    ∃ a e b, unitScript st o u = a ++ e :: b ∧ a.map (fun x => x.event) = (unitEvents o u).take j ∧ e.event = ev := by
  rw [← unitScript_events st] at hj ⊢
  rw [List.getElem?_map, Option.map_eq_some_iff] at hj
  obtain ⟨e, he, hev⟩ := hj
  exact ⟨_, e, _, eq_take_append_cons_drop he, List.map_take, hev⟩

/-- The initialisation's script, cut before and after unit `k`. -/
theorem initScript_split_unit {p : Params} {c : Cfg} {k : Fin 20} {u : CmdUnit}
    (hu : (initUnits p c)[k.val]? = some u) :
    ∃ pre post, initScript p c = pre ++ (unitScript (some k) p.opc u ++ post) ∧
      pre.map (fun e => e.event) = ((initUnits p c).take k.val).flatMap (unitEvents p.opc) := by
  have hlen : ((initUnits p c).take k.val).length = k.val :=
    List.length_take_of_le (Nat.le_of_lt (List.getElem?_eq_some_iff.1 hu).1)
  have hsplit := congrArg (fun us => (us.mapIdx (fun i v => unitScript (some (Fin.ofNat 20 i)) p.opc v)).flatten)
    (eq_take_append_cons_drop hu)
  simp only [List.mapIdx_append, List.mapIdx_cons, List.flatten_append, List.flatten_cons, hlen, Nat.zero_add,
    Fin.ofNat_val_eq_self] at hsplit
  exact ⟨_, _, hsplit, flatten_unitScript_events _ _ _⟩

/-- Settles O15: the failing event's unit reports it as its step's error, and no delay fails. -/
theorem initializeStopsAtItsFirstFailure : Obligations.InitializeStopsAtItsFirstFailure := by
  rintro s k u _ j ev hc hu rfl hj hf
  obtain ⟨pre, post, hscript, hpre⟩ := initScript_split_unit hu
  obtain ⟨a, e, b, hunit, ha, rfl⟩ := unitScript_split (some k) hj
  have herr : e.error = some (.protocolError k (causeAt e.event 0)) := by
    have hmem : e ∈ unitScript (some k) s.params.opc u := by simp [hunit]
    rcases unitScript_error (initUnits_params_length_le (List.mem_of_getElem? hu)) e hmem with ⟨ms, hdelay⟩ | herr
    · rw [hdelay] at hf
      exact absurd hf.2 id
    · exact herr
  have hcut : initScript s.params s.cfg = (pre ++ a) ++ e :: (b ++ post) := by
    rw [hscript, hunit, List.append_assoc, List.append_assoc, List.cons_append]
  rw [← hpre, ← ha, ← List.map_append] at hf ⊢
  exact exec_of_failsAt hc (congrArg some hcut) herr hf

/-! send_data. -/

/-- What a data phase draws: one answer of the DC pin, and one of the transport for each transaction. -/
theorem counts_high_map_tx {α : Type} (xs : List α) (g : α → List Byte) :
    pinCount .dc (.pin .dc .high :: xs.map (fun x => .tx .high (g x))) = 1 ∧
      pinCount .bl (.pin .dc .high :: xs.map (fun x => .tx .high (g x))) = 0 ∧
      txCount (.pin .dc .high :: xs.map (fun x => .tx .high (g x))) = xs.length := by
  simp [pinCount, txCount, List.countP_map, Function.comp_def]

theorem lineAfter_map_tx {α : Type} (p : Pin) (xs : List α) (g : α → List Byte) (l : LineLevel) :
    lineAfter p (xs.map (fun x => .tx .high (g x))) l = l := by
  induction xs with
  | nil => rfl
  | cons x rest ih => exact ih

/-- The state after DC was driven HIGH and transactions were sent under it. -/
theorem played_high_map_tx {α : Type} (xs : List α) (g : α → List Byte) (s : State) :
    played (.pin .dc .high :: xs.map (fun x => .tx .high (g x))) s = { s with
      dc := .high
      oracle := { s.oracle with dc := s.oracle.dc.drop 1, tx := s.oracle.tx.drop xs.length }
      trace := s.trace ++ ⟨.pin .dc .high, .ok⟩ :: xs.map (fun x => ⟨.tx .high (g x), .ok⟩) } := by
  obtain ⟨hdc, hbl, htx⟩ := counts_high_map_tx xs g
  have hline : ∀ p, lineAfter p (.pin .dc .high :: xs.map (fun x => .tx .high (g x))) =
      lineAfter p [.pin .dc .high] := fun p => funext (fun l => lineAfter_map_tx p xs g _)
  rw [played, hdc, hbl, htx, hline, hline]
  simp [lineAfter, lineOf, Function.comp_def]

/-- Settles O18: send_data's script, every event granted. -/
theorem sendDataStreamsTheChunks : Obligations.SendDataStreamsTheChunks := by
  intro s bs hc hg
  rw [← dataScript_events none] at hg
  rw [exec_of_grants (i := .sendData bs) (es := dataScript none bs) hc rfl (by simp) hg, dataScript_events, dataEvents,
    played_high_map_tx, List.length_range]
  rfl

/-- send_data's script, cut at chunk `k`. -/
theorem dataScript_split {bs : List Byte} {k : Nat} (hk : k < (bs.length + 4095) / 4096) :
    ∃ a b, dataScript none bs =
        a ++ ⟨none, .tx .high ((bs.drop (k * 4096)).take 4096), some (.ioError (.tx (k * 4096)))⟩ :: b ∧
      a.map (fun x => x.event) =
        .pin .dc .high :: (List.range k).map (fun j => .tx .high ((bs.drop (j * 4096)).take 4096)) := by
  have hget : (dataScript none bs)[k + 1]? =
      some ⟨none, .tx .high ((bs.drop (k * 4096)).take 4096), some (.ioError (.tx (k * 4096)))⟩ := by
    simp [dataScript, hk, reported]
  refine ⟨_, _, eq_take_append_cons_drop hget, ?_⟩
  rw [List.map_take, dataScript_events, dataEvents, List.take_succ_cons, ← List.map_take, List.take_range,
    Nat.min_eq_left (Nat.le_of_lt hk)]

/-- Settles O19: send_data's script fails at its first event, or at chunk `k`'s. -/
theorem sendDataAbortsAtTheFailingChunk : Obligations.SendDataAbortsAtTheFailingChunk := by
  refine ⟨fun s bs ds hc hdc => ?_, fun s bs k ds xs hc hk hdc htx => ?_⟩
  · have hf : FailsAt s [] (.pin .dc .high) := ⟨⟨rfl, rfl, rfl⟩, by simp [hdc, pinCount]⟩
    rw [exec_of_failsAt (i := .sendData bs) (a := []) hc rfl rfl hf]
    simp [stoppedAt, played_nil, hdc, reported]
  · obtain ⟨a, b, hscript, hevents⟩ := dataScript_split hk
    have hf : FailsAt s (a.map (fun x => x.event)) (.tx .high ((bs.drop (k * 4096)).take 4096)) := by
      obtain ⟨hd, hb, ht⟩ := counts_high_map_tx (List.range k) (fun j => (bs.drop (j * 4096)).take 4096)
      rw [hevents, FailsAt, Grants, hd, hb, ht]
      simp [hdc, htx]
    rw [exec_of_failsAt (i := .sendData bs) hc (congrArg some hscript) rfl hf, hevents]
    simp only [stoppedAt, played_high_map_tx, List.length_range]
    simp [hdc, htx]

/-! send_command, sleep and powersave: one command phase. -/

/-- How a command phase ends, its pin and its transaction answered ok. -/
theorem finish_sendCommandOp_ok {s : State} {bs : List Byte} {ds : List PinAnswer} {xs : List TxAnswer}
    (hbs : bs ≠ []) (hdc : s.oracle.dc = .ok :: ds) (htx : s.oracle.tx = .ok :: xs) :
    (sendCommandOp bs s).finish = .next { s with
      dc := .low
      oracle := { s.oracle with dc := ds, tx := xs }
      trace := s.trace ++ [⟨.pin .dc .low, .ok⟩, ⟨.tx .low bs, .ok⟩]
      results := s.results ++ [.ok] } := by
  rw [sendCommandOp, if_neg (by simpa using hbs), selectDc_ok .low hdc, andThen_done, sendTx_ok 0 bs (by exact htx)]
  simp [Run.finish, State.complete, lineOf]

theorem finish_sendCommandOp_pinFails {s : State} {bs : List Byte} {ds : List PinAnswer} (hbs : bs ≠ [])
    (hdc : s.oracle.dc = .ioError :: ds) :
    (sendCommandOp bs s).finish = .next { s with
      dc := .unknown
      seqStep := .idle
      oracle := { s.oracle with dc := ds }
      trace := s.trace ++ [⟨.pin .dc .low, .ioError⟩]
      results := s.results ++ [.error (.ioError .dcPin)] } := by
  rw [sendCommandOp, if_neg (by simpa using hbs), selectDc_ioError .low hdc]
  rfl

theorem finish_sendCommandOp_txFails {s : State} {bs : List Byte} {ds : List PinAnswer} {xs : List TxAnswer}
    (hbs : bs ≠ []) (hdc : s.oracle.dc = .ok :: ds) (htx : s.oracle.tx = .ioError :: xs) :
    (sendCommandOp bs s).finish = .next { s with
      dc := .low
      seqStep := .idle
      oracle := { s.oracle with dc := ds, tx := xs }
      trace := s.trace ++ [⟨.pin .dc .low, .ok⟩, ⟨.tx .low bs, .ioError⟩]
      results := s.results ++ [.error (.ioError (.tx 0))] } := by
  rw [sendCommandOp, if_neg (by simpa using hbs), selectDc_ok .low hdc, andThen_done, sendTx_ioError 0 bs (by exact htx)]
  simp [Run.finish, State.raiseError, lineOf]

theorem exec_sendCommand {s : State} (bs : List Byte) (hc : Connected s) :
    exec (.sendCommand bs) s = (sendCommandOp bs s).finish := by
  rw [exec, execSendCommand, whenConnected_opened _ hc]

/-- Settles O17: no byte is refused; else the command phase ends by its pin's answer and its transaction's. -/
theorem sendCommandDrivesLowThenSendsOnce : Obligations.SendCommandDrivesLowThenSendsOnce := by
  refine ⟨fun s hc => ?_, fun s bs ds xs hc hbs hdc htx => ?_, fun s bs ds hc hbs hdc => ?_,
    fun s bs ds xs hc hbs hdc htx => ?_⟩ <;> rw [exec_sendCommand _ hc]
  · rfl
  · exact finish_sendCommandOp_ok hbs hdc htx
  · exact finish_sendCommandOp_pinFails hbs hdc
  · exact finish_sendCommandOp_txFails hbs hdc htx

/-- sleep and powersave are the command phase of SLPIN (40 R107, 41 R125). -/
theorem exec_sleep_powersave {s t : State} (hc : Connected s)
    (h : (sendCommandOp [s.params.opc.slpin] s).finish = .next t) :
    exec .sleep s = .next t ∧ exec .powersave s = .next t := by
  have hsleep : (whenConnected sleepOp s).finish = .next t := by rw [whenConnected_opened _ hc]; exact h
  exact ⟨hsleep, hsleep⟩

/-- Settles O22: SLPIN's command phase ends by its pin's answer and its transaction's. -/
theorem sleepAndPowersaveSendSleepIn : Obligations.SleepAndPowersaveSendSleepIn := by
  refine ⟨?_, ?_, ?_⟩
  · rintro s ds xs _ hc hdc htx rfl
    exact exec_sleep_powersave hc (finish_sendCommandOp_ok (List.cons_ne_nil _ _) hdc htx)
  · rintro s ds _ hc hdc rfl
    exact exec_sleep_powersave hc (finish_sendCommandOp_pinFails (List.cons_ne_nil _ _) hdc)
  · rintro s ds xs _ hc hdc htx rfl
    exact exec_sleep_powersave hc (finish_sendCommandOp_txFails (List.cons_ne_nil _ _) hdc htx)

/-! set_backlight. -/

theorem exec_setBacklight {s : State} (en : Bool) (hc : Connected s) :
    exec (.setBacklight en) s = .next ((backlightOp en s).complete .ok) := by
  rw [exec, execSetBacklight, whenConnected_opened _ hc]
  rfl

theorem setPin_bl_of {s : State} {a : PinAnswer} {bs : List PinAnswer} (lvl : Level) (h : s.oracle.bl = a :: bs) :
    (setPin .bl lvl s).2 = { s with
      bl := if a = .ok then lineOf lvl else .unknown
      oracle := { s.oracle with bl := bs }
      trace := s.trace ++ [⟨.pin .bl lvl, if a = .ok then .ok else .ioError⟩] } := by
  cases a <;> simp [setPin, drawPin_bl_eq, Oracle.nextBl_of h, Oracle.takeBl_of h, State.setLine, State.log]

/-- Settles O25: without a pin the state is left alone, with one the pin is written, and the result is ok. -/
theorem setBacklightNeverFails : Obligations.SetBacklightNeverFails := by
  refine ⟨fun s en hc hbl => ?_, ?_⟩
  · rw [exec_setBacklight en hc, backlightOp, hbl]
    rfl
  · rintro s en bs a _ hc hbl hans rfl
    rw [exec_setBacklight en hc, backlightOp, if_pos hbl, setPin_bl_of _ hans]
    rfl

/-! connect. -/

theorem openTransport_ok {s : State} {os : List OpenAnswer} (clk mode bits : Nat) (h : s.oracle.opens = .ok :: os) :
    openTransport clk mode bits s = (.ok, { s with
      oracle := { s.oracle with opens := os }, trace := s.trace ++ [⟨.openPort clk mode bits, .ok⟩] }) := by
  simp [openTransport, Oracle.nextOpen_of h, Oracle.takeOpen_of h, State.log]

theorem openTransport_connectionError {s : State} {os : List OpenAnswer} (clk mode bits : Nat)
    (h : s.oracle.opens = .connectionError :: os) :
    openTransport clk mode bits s = (.connectionError, { s with
      oracle := { s.oracle with opens := os }, trace := s.trace ++ [⟨.openPort clk mode bits, .connectionError⟩] }) := by
  simp [openTransport, Oracle.nextOpen_of h, Oracle.takeOpen_of h, State.log]

/-- Settles O10: the geometry passes its check, `Open` is answered ok, and every register is written. -/
theorem connectWritesEveryRegister : Obligations.ConnectWritesEveryRegister := by
  rintro s sel rst bl geom _ os hclosed rfl hw hh hcols hrows hopen
  have hgeom : geometryOk (geom.getD geomDefault) = true := (geometryOk_iff _).2 ⟨hw, hh, hcols, hrows⟩
  rw [exec, execConnect, connectOp, hclosed]
  simp only [if_pos hgeom, openTransport_ok _ _ _ hopen]
  rfl

/-- Settles O11: connect checks the connection, then the geometry, then takes the answer of `Open`. -/
theorem connectFailsOrIsRefused : Obligations.ConnectFailsOrIsRefused := by
  refine ⟨fun s sel rst bl geom hc => ?_, ?_, ?_⟩
  · rw [exec, execConnect, connectOp]
    cases hs : s.conn with
    | closed => exact absurd hs hc
    | opened => rfl
  · rintro s sel rst bl geom _ hclosed rfl hbad
    have hgeom : ¬geometryOk (geom.getD geomDefault) = true := fun hok => hbad ((geometryOk_iff _).1 hok)
    rw [exec, execConnect, connectOp, hclosed]
    simp only [if_neg hgeom]
    rfl
  · rintro s sel rst bl geom _ os hclosed rfl hw hh hcols hrows hopen
    have hgeom : geometryOk (geom.getD geomDefault) = true := (geometryOk_iff _).2 ⟨hw, hh, hcols, hrows⟩
    rw [exec, execConnect, connectOp, hclosed]
    simp only [if_pos hgeom, openTransport_connectionError _ _ _ hopen]
    rw [← hclosed]
    rfl

end Sys2Proof.Safety
end

section
/-! Proofs for 41 R120 to R126: set_window by the answers of the ports, the window and the data phase of display and
display_image, the clip and its pixel stream, and halt. -/

namespace Sys2Proof.Safety

open Sys2Proof.Machine

/-! set_window (41 R120). -/

/-- set_window's script for native bytes: the units of CASET, RASET and RAMWR. -/
def windowSend (o : Opcodes) (a0 b0 a1 b1 : Byte) : List Emission :=
  unitScript none o ⟨.caset, [0, a0, 0, a1], none⟩ ++ unitScript none o ⟨.raset, [0, b0, 0, b1], none⟩ ++
    unitScript none o ⟨.ramwr, [], none⟩

theorem inByteRange_byteInt (b : Byte) : inByteRange (byteInt b) = true := by
  have hlt := b.isLt
  rw [inByteRange_iff, byteInt]
  omega

/-- set_window has a script where, and only where, the four offset coordinates are in the range of a byte. -/
theorem windowScript_eq_none_iff {p : Params} {c : Cfg} {x0 y0 x1 y1 : Int} :
    windowScript p c x0 y0 x1 y1 = none ↔
      ¬(inByteRange (nativeCol c x0) = true ∧ inByteRange (nativeCol c x1) = true ∧
        inByteRange (nativeRow c y0) = true ∧ inByteRange (nativeRow c y1) = true) := by
  unfold windowScript
  split <;> simp [*]

/-- Where the offset coordinates are bytes, the script sends them. -/
theorem windowScript_eq_windowSend {p : Params} {c : Cfg} {x0 y0 x1 y1 : Int} {a0 b0 a1 b1 : Byte}
    (hx0 : nativeCol c x0 = byteInt a0) (hy0 : nativeRow c y0 = byteInt b0)
    (hx1 : nativeCol c x1 = byteInt a1) (hy1 : nativeRow c y1 = byteInt b1) :
    windowScript p c x0 y0 x1 y1 = some (windowSend p.opc a0 b0 a1 b1) := by
  simp only [windowScript, hx0, hy0, hx1, hy1, inByteRange_byteInt, and_self, if_true, addressParams, lo8_byteInt,
    windowSend]

theorem windowSend_events (o : Opcodes) (a0 b0 a1 b1 : Byte) :
    (windowSend o a0 b0 a1 b1).map (fun e => e.event) = windowEvents o a0 b0 a1 b1 := by
  simp [windowSend, unitScript_events, windowEvents, unitEvents, opcodeOf]

/-- The events of the window, written out. -/
theorem windowEvents_eq (o : Opcodes) (a0 b0 a1 b1 : Byte) : windowEvents o a0 b0 a1 b1 =
    [.pin .dc .low, .tx .low [o.caset], .pin .dc .high, .tx .high [0, a0, 0, a1],
      .pin .dc .low, .tx .low [o.raset], .pin .dc .high, .tx .high [0, b0, 0, b1],
      .pin .dc .low, .tx .low [o.ramwr]] := by
  simp [windowEvents, frameEvents, commandEvents, dataEvents_of_one_chunk]

/-- Each transaction of the window is a whole send, so its failure is reported at offset 0. -/
theorem windowSend_error {o : Opcodes} {a0 b0 a1 b1 : Byte} {e : Emission} (he : e ∈ windowSend o a0 b0 a1 b1) :
    e.error = some (.ioError (causeAt e.event 0)) := by
  have hevent : e.event ∈ windowEvents o a0 b0 a1 b1 := by
    rw [← windowSend_events]
    exact List.mem_map_of_mem he
  have hdelay : ¬∃ ms, e.event = .delay ms := by
    rintro ⟨ms, hms⟩
    simp [windowEvents_eq, hms] at hevent
  simp only [windowSend, List.mem_append] at he
  rcases he with (he | he) | he <;> exact (unitScript_error (by simp) e he).resolve_left hdelay

/-- Settles O27: set_window's script, every event granted. -/
theorem setWindowEmitsTheOffsetWindow : Obligations.SetWindowEmitsTheOffsetWindow := by
  intro s x0 y0 x1 y1 a0 b0 a1 b1 hc hx0 hy0 hx1 hy1 hg
  have hscript : scriptOf s.params s.cfg (.setWindow x0 y0 x1 y1) = some (windowSend s.params.opc a0 b0 a1 b1) :=
    windowScript_eq_windowSend hx0 hy0 hx1 hy1
  rw [← windowSend_events] at hg
  rw [exec_of_grants hc hscript nofun hg, windowSend_events, windowEvents_eq]
  rfl

/-- A script, cut at its event `n`. -/
theorem script_split {es : List Emission} {n : Nat} {ev : Event} (h : (es.map (fun e => e.event))[n]? = some ev) :
    ∃ a e b, es = a ++ e :: b ∧ a.map (fun x => x.event) = (es.map (fun x => x.event)).take n ∧ e.event = ev := by
  rw [List.getElem?_map, Option.map_eq_some_iff] at h
  obtain ⟨e, he, hev⟩ := h
  exact ⟨_, e, _, eq_take_append_cons_drop he, List.map_take, hev⟩

/-- Settles O29: set_window's script, cut at the failing event. -/
theorem setWindowStopsAtItsFirstFailure : Obligations.SetWindowStopsAtItsFirstFailure := by
  intro s x0 y0 x1 y1 a0 b0 a1 b1 n ev hc hx0 hy0 hx1 hy1 hn hf
  have hscript : scriptOf s.params s.cfg (.setWindow x0 y0 x1 y1) = some (windowSend s.params.opc a0 b0 a1 b1) :=
    windowScript_eq_windowSend hx0 hy0 hx1 hy1
  rw [← windowSend_events] at hn hf ⊢
  obtain ⟨a, e, b, hcut, ha, rfl⟩ := script_split hn
  have hmem : e ∈ windowSend s.params.opc a0 b0 a1 b1 := by simp [hcut]
  rw [← ha] at hf ⊢
  exact exec_of_failsAt hc (hscript.trans (congrArg some hcut)) (windowSend_error hmem) hf

/-- Settles O28: an offset coordinate outside the range of a byte leaves set_window without a script. -/
theorem setWindowRefusesUnencodableCoordinates : Obligations.SetWindowRefusesUnencodableCoordinates := by
  intro s x0 y0 x1 y1 hc hrange
  have hnone : windowScript s.params s.cfg x0 y0 x1 y1 = none := by
    rw [windowScript_eq_none_iff]
    simp only [inByteRange_iff, nativeCol_eq, nativeRow_eq]
    omega
  rw [exec, execSetWindow, whenConnected_opened _ hc, setWindowOp_refused hnone]
  rfl

/-! A window and the data phase after it (41 R121, R124). -/

theorem lineAfter_dataEvents (bs : List Byte) (l : LineLevel) : lineAfter .dc (dataEvents bs) l = .high :=
  lineAfter_map_tx .dc _ _ _

/-- An operation that is a window and a data phase, every event granted, leaves DC HIGH and returns ok. -/
theorem exec_windowThenData_of_grants {i : Instr} {s : State} {a0 b0 a1 b1 : Byte} {bs : List Byte} (hc : Connected s)
    (hi : i ≠ .initializePanel)
    (h : scriptOf s.params s.cfg i = some (windowSend s.params.opc a0 b0 a1 b1 ++ dataScript none bs))
    (hg : Grants s (windowEvents s.params.opc a0 b0 a1 b1 ++ dataEvents bs)) :
    exec i s = .next { played (windowEvents s.params.opc a0 b0 a1 b1 ++ dataEvents bs) s with
      dc := .high
      results := s.results ++ [.ok] } := by
  have hevents : (windowSend s.params.opc a0 b0 a1 b1 ++ dataScript none bs).map (fun e => e.event) =
      windowEvents s.params.opc a0 b0 a1 b1 ++ dataEvents bs := by
    rw [List.map_append, windowSend_events, dataScript_events]
  have hdc : lineAfter .dc (windowEvents s.params.opc a0 b0 a1 b1 ++ dataEvents bs) s.dc = .high := by
    rw [lineAfter_append, lineAfter_dataEvents]
  rw [← hevents] at hg
  rw [exec_of_grants hc h hi hg, hevents, ← hdc]
  rfl

/-! display (41 R124). -/

/-- The last byte of an area of the native RAM that starts at `a` and is `b` long. -/
theorem byteInt_last {a b : Byte} (hpos : 1 ≤ b.toNat) (hle : a.toNat + b.toNat ≤ 162) :
    byteInt (a + b - 1) = byteInt a + byteInt b - 1 := by
  simp only [byteInt, last_toNat a b hpos hle]
  omega

/-- Under a legal geometry the full window runs from the offsets to the last visible column and row. -/
theorem scriptOf_display {p : Params} {c : Cfg} (raw : List Byte)
    (hgeom : geometryOk ⟨c.w, c.h, c.offL, c.offT⟩ = true) :
    scriptOf p c (.display raw) =
      some (windowSend p.opc c.offL c.offT (c.offL + c.w - 1) (c.offT + c.h - 1) ++ dataScript none raw) := by
  obtain ⟨hw, hh, hcols, hrows⟩ := (geometryOk_iff _).1 hgeom
  dsimp only at hw hh hcols hrows
  have hx1 : nativeCol c (byteInt c.w - 1) = byteInt (c.offL + c.w - 1) := by
    rw [byteInt_last hw (by omega), nativeCol]
    omega
  have hy1 : nativeRow c (byteInt c.h - 1) = byteInt (c.offT + c.h - 1) := by
    rw [byteInt_last hh hrows, nativeRow]
    omega
  rw [scriptOf, windowScript_eq_windowSend (Int.zero_add _) (Int.zero_add _) hx1 hy1, Option.map_some]

/-- Settles O30: display's script, every event granted. -/
theorem displayStreamsRawBytesIntoTheFullWindow : Obligations.DisplayStreamsRawBytesIntoTheFullWindow := by
  rintro s raw _ hc hgeom rfl hg
  exact exec_windowThenData_of_grants hc nofun (scriptOf_display raw hgeom) hg

/-! The clip (41 R122). -/

/-- A clip that is not empty is a rectangle of the visible area. -/
theorem clipOf_inside {c : Cfg} {x y : Int} {img : Image} (h : (clipOf c x y img).empty = false) :
    0 ≤ (clipOf c x y img).cx0 ∧ (clipOf c x y img).cx0 < (clipOf c x y img).cx1 ∧
      (clipOf c x y img).cx1 ≤ c.w.toNat ∧ 0 ≤ (clipOf c x y img).cy0 ∧
      (clipOf c x y img).cy0 < (clipOf c x y img).cy1 ∧ (clipOf c x y img).cy1 ≤ c.h.toNat := by
  rw [clip_nonempty_iff] at h
  have hx : (clipOf c x y img).cx1 ≤ c.w.toNat := Int.min_le_right _ _
  have hy : (clipOf c x y img).cy1 ≤ c.h.toNat := Int.min_le_right _ _
  have hx0 : 0 ≤ (clipOf c x y img).cx0 := Int.le_max_right _ _
  have hy0 : 0 ≤ (clipOf c x y img).cy0 := Int.le_max_right _ _
  omega

/-- Under a legal geometry a visible pixel passes set_window's check (41 R120). -/
theorem inByteRange_of_visible {c : Cfg} {px py : Int} (hgeom : geometryOk ⟨c.w, c.h, c.offL, c.offT⟩ = true)
    (hx0 : 0 ≤ px) (hx1 : px < c.w.toNat) (hy0 : 0 ≤ py) (hy1 : py < c.h.toNat) :
    inByteRange (nativeCol c px) = true ∧ inByteRange (nativeRow c py) = true := by
  obtain ⟨-, -, hcols, hrows⟩ := (geometryOk_iff _).1 hgeom
  dsimp only at hcols hrows
  rw [inByteRange_iff, inByteRange_iff, nativeCol_eq, nativeRow_eq]
  omega

/-- A pixel of the clip lies inside the bounds of the image (20 R44). -/
theorem clipOf_inside_image {c : Cfg} {x y px py : Int} {img : Image} (hx0 : (clipOf c x y img).cx0 ≤ px)
    (hx1 : px < (clipOf c x y img).cx1) (hy0 : (clipOf c x y img).cy0 ≤ py) (hy1 : py < (clipOf c x y img).cy1) :
    img.minX ≤ px - x ∧ px - x < img.maxX ∧ img.minY ≤ py - y ∧ py - y < img.maxY := by
  simp only [clipOf] at hx0 hx1 hy0 hy1
  omega

/-- Settles O31: the corners of a clip that is not empty are visible pixels. -/
theorem clipIsTheVisiblePartOfTheImage : Obligations.ClipIsTheVisiblePartOfTheImage := by
  rintro c x y img _ rfl
  refine ⟨rfl, rfl, rfl, rfl, clip_empty_iff _, fun hne hgeom => ⟨clipOf_inside hne, ?_⟩,
    fun px py => clipOf_inside_image⟩
  obtain ⟨hx0, hx, hx1, hy0, hy, hy1⟩ := clipOf_inside hne
  obtain ⟨hcol0, hrow0⟩ := inByteRange_of_visible hgeom hx0 (by omega) hy0 (by omega)
  obtain ⟨hcol1, hrow1⟩ := inByteRange_of_visible hgeom (px := (clipOf c x y img).cx1 - 1)
    (py := (clipOf c x y img).cy1 - 1) (by omega) (by omega) (by omega) (by omega)
  exact ⟨hcol0, hcol1, hrow0, hrow1⟩

/-! display_image (41 R121). -/

/-- Settles O32: an empty clip's script is empty. -/
theorem displayImageOfAnEmptyClipIsSilent : Obligations.DisplayImageOfAnEmptyClipIsSilent := by
  intro s x y img hc hempty
  have hclip : (clipOf s.cfg x y img).empty = true := (clip_empty_iff _).2 hempty
  have hscript : scriptOf s.params s.cfg (.displayImage x y img) = some [] := if_pos hclip
  rw [exec_of_grants hc hscript nofun ⟨rfl, rfl, rfl⟩, List.map_nil, played_nil]
  rfl

theorem byteInt_ofNat {n : Nat} (h : n < 256) : byteInt (BitVec.ofNat 8 n) = n := by
  rw [byteInt, BitVec.toNat_ofNat, Nat.mod_eq_of_lt h]

/-- The script of a clip of `cw` columns and `ch` rows from visible `(cx0, cy0)` on: the window of its first and last
pixels, then its pixel bytes. -/
theorem scriptOf_displayImage {p : Params} {c : Cfg} {x y : Int} {img : Image} {cx0 cy0 cw ch : Nat}
    (hgeom : geometryOk ⟨c.w, c.h, c.offL, c.offT⟩ = true)
    (hclip : clipOf c x y img = ⟨cx0, cy0, (cx0 + cw : Nat), (cy0 + ch : Nat)⟩) (hcw : 1 ≤ cw) (hch : 1 ≤ ch) :
    scriptOf p c (.displayImage x y img) = some
      (windowSend p.opc (BitVec.ofNat 8 (cx0 + c.offL.toNat)) (BitVec.ofNat 8 (cy0 + c.offT.toNat))
        (BitVec.ofNat 8 (cx0 + cw - 1 + c.offL.toNat)) (BitVec.ofNat 8 (cy0 + ch - 1 + c.offT.toNat)) ++
      dataScript none (imageBytes x y img cx0 cy0 cw ch)) := by
  have hne : (clipOf c x y img).empty = false := by
    rw [clip_nonempty_iff, hclip]
    dsimp only
    omega
  obtain ⟨-, -, hx1, -, -, hy1⟩ := clipOf_inside hne
  obtain ⟨-, -, hcols, hrows⟩ := (geometryOk_iff _).1 hgeom
  rw [hclip] at hx1 hy1 hne
  dsimp only at hx1 hy1 hcols hrows
  have hwindow := windowScript_eq_windowSend (p := p) (c := c) (x0 := cx0) (y0 := cy0)
    (x1 := (cx0 + cw : Nat) - 1) (y1 := (cy0 + ch : Nat) - 1)
    (a0 := BitVec.ofNat 8 (cx0 + c.offL.toNat)) (b0 := BitVec.ofNat 8 (cy0 + c.offT.toNat))
    (a1 := BitVec.ofNat 8 (cx0 + cw - 1 + c.offL.toNat)) (b1 := BitVec.ofNat 8 (cy0 + ch - 1 + c.offT.toNat))
    (by rw [nativeCol_eq, byteInt_ofNat] <;> omega) (by rw [nativeRow_eq, byteInt_ofNat] <;> omega)
    (by rw [nativeCol_eq, byteInt_ofNat] <;> omega) (by rw [nativeRow_eq, byteInt_ofNat] <;> omega)
  have hwidth : (Clip.mk cx0 cy0 (cx0 + cw : Nat) (cy0 + ch : Nat)).cw = cw := by simp only [Clip.cw]; omega
  have hheight : (Clip.mk cx0 cy0 (cx0 + cw : Nat) (cy0 + ch : Nat)).ch = ch := by simp only [Clip.ch]; omega
  simp only [scriptOf, hclip, hne, Bool.false_eq_true, if_false, hwindow, hwidth, hheight, Option.map_some]

/-- Settles O33: display_image's script, every event granted. -/
theorem displayImageStreamsTheClippedPixels : Obligations.DisplayImageStreamsTheClippedPixels := by
  rintro s x y img cx0 cy0 cw ch _ hc hgeom hx0 hx1 hy0 hy1 hcw hch rfl hg
  have hclip : clipOf s.cfg x y img = ⟨cx0, cy0, (cx0 + cw : Nat), (cy0 + ch : Nat)⟩ := by
    rw [hx0, hx1, hy0, hy1]
    rfl
  exact exec_windowThenData_of_grants hc nofun (scriptOf_displayImage hgeom hclip hcw hch) hg

/-! The pixel stream (41 R123). -/

theorem columnBytes_length (x y : Int) (img : Image) (px cy0 : Int) (ch : Nat) :
    (columnBytes x y img px cy0 ch).length = ch * 2 :=
  flatMap_range_length ch 2 _ (fun _ => rfl)

theorem pixelStream_length (x y : Int) (img : Image) (k : Clip) :
    (pixelStream x y img k).length = k.cw * (k.ch * 2) :=
  flatMap_range_length k.cw (k.ch * 2) _ (fun _ => columnBytes_length _ _ _ _ _ _)

/-- Byte `b` of the pixel in column `i` and row `j` of the clip: columns of `ch` pixels, pixels of two bytes. -/
theorem pixelStream_getElem? (x y : Int) (img : Image) {k : Clip} {i j b : Nat} (hi : i < k.cw) (hj : j < k.ch)
    (hb : b < 2) : (pixelStream x y img k)[i * (k.ch * 2) + (j * 2 + b)]? =
      (pixelBytes (imgAt img (k.cx0 + i - x) (k.cy0 + j - y)))[b]? := by
  rw [pixelStream, flatMap_range_get k.cw (k.ch * 2) _ (fun _ => columnBytes_length _ _ _ _ _ _) i _ hi (by omega),
    columnBytes, flatMap_range_get k.ch 2 _ (fun _ => rfl) j b hj hb]

/-- Settles O34: the two bytes of a pixel are those of its packed colour, high byte first. -/
theorem pixelStreamIsColumnMajor : Obligations.PixelStreamIsColumnMajor := by
  intro x y img k
  refine ⟨by rw [pixelStream_length]; ring, ?_⟩
  rintro i j _ hi hj rfl
  have hindex : 2 * (i * k.ch + j) = i * (k.ch * 2) + j * 2 := by ring
  have hhigh := pixelStream_getElem? x y img hi hj (b := 0) (by decide)
  have hlow := pixelStream_getElem? x y img hi hj (b := 1) (by decide)
  rw [pixelBytes, be16_bytes] at hhigh hlow
  rw [hindex]
  exact ⟨hhigh, hlow⟩

/-! halt (41 R126). -/

/-- Without a backlight pin halt is powersave's operation (40 R108). -/
theorem haltOp_of_no_backlight {s : State} (h : s.cfg.hasBl = false) : haltOp s = sleepOp s := by
  rw [haltOp, backlightOp, h]
  rfl

theorem whenConnected_congr {op op' : State → Run} {s : State} (h : op s = op' s) :
    whenConnected op s = whenConnected op' s := by
  unfold whenConnected
  split
  · rfl
  · exact h

/-- Settles O23: the backlight's write is swallowed whatever its answer, and SLPIN's command phase completes. -/
theorem haltDrivesBacklightOffThenSleeps : Obligations.HaltDrivesBacklightOffThenSleeps := by
  refine ⟨fun s bs ds xs a hc hbl hans hdc htx => ?_, fun s hbl => ?_⟩
  · have hoff : backlightOp false s = { s with
        bl := if a = .ok then lineOf (opposite s.params.blOnLevel) else .unknown
        oracle := { s.oracle with bl := bs }
        trace := s.trace ++ [⟨.pin .bl (opposite s.params.blOnLevel), if a = .ok then .ok else .ioError⟩] } := by
      rw [backlightOp, if_pos hbl, setPin_bl_of _ hans]
      rfl
    have hdc' : (backlightOp false s).oracle.dc = .ok :: ds := by rw [hoff]; exact hdc
    have htx' : (backlightOp false s).oracle.tx = .ok :: xs := by rw [hoff]; exact htx
    rw [exec, execHalt, whenConnected_opened _ hc, haltOp, sleepOp,
      finish_sendCommandOp_ok (List.cons_ne_nil _ _) hdc' htx', hoff]
    simp only [List.append_assoc]
    rfl
  · exact congrArg Run.finish (whenConnected_congr (haltOp_of_no_backlight hbl))

end Sys2Proof.Safety
end

section
/-! Proofs for 42 R140 to R143: the packed colour as a number, its three fields, and its bus image. -/

namespace Sys2Proof.Safety

open Sys2Proof.Machine

/-! The packed colour as a number (42 R140, R141). -/

/-- A mask of `n` ones above `k` zeros clears the low `k` bits of a number of `k + n` bits. -/
theorem and_highMask {x k n : Nat} (h : x < 2 ^ (k + n)) : x &&& ((2 ^ n - 1) <<< k) = x >>> k <<< k := by
  have hhigh : x >>> k < 2 ^ n := by
    rw [Nat.shiftRight_eq_div_pow]
    exact Nat.div_lt_of_lt_mul (by rwa [← pow_add])
  apply Nat.eq_of_testBit_eq
  intro i
  rw [← Nat.and_two_pow_sub_one_of_lt_two_pow hhigh, Nat.shiftLeft_and_distrib]
  simp only [Nat.testBit_and, Nat.testBit_shiftLeft, Nat.testBit_shiftRight]
  by_cases hi : k ≤ i <;> simp [hi]

/-- The packer is the formula over the numbers of its channels: no shift loses a bit. -/
theorem packRgb565_toNat_masked (r g b a : Byte) : (packRgb565 r g b a).toNat =
    ((r.toNat &&& 0xF8) <<< 8) ||| ((g.toNat &&& 0xFC) <<< 3) ||| (b.toNat >>> 3) := by
  have hr : r.toNat &&& 0xF8 ≤ 0xF8 := Nat.and_le_right
  have hg : g.toNat &&& 0xFC ≤ 0xFC := Nat.and_le_right
  have hb := b.isLt
  simp only [packRgb565, BitVec.toNat_or, BitVec.toNat_shiftLeft, BitVec.toNat_ushiftRight, BitVec.toNat_setWidth,
    BitVec.toNat_and, BitVec.reduceToNat, Nat.shiftLeft_eq, Nat.reducePow]
  rw [Nat.mod_eq_of_lt (a := r.toNat &&& 0xF8) (by omega), Nat.mod_eq_of_lt (a := g.toNat &&& 0xFC) (by omega),
    Nat.mod_eq_of_lt (a := b.toNat) (by omega), Nat.mod_eq_of_lt (by omega), Nat.mod_eq_of_lt (by omega)]

/-- The packed colour as its fields, each a channel without its dropped low bits. -/
theorem packRgb565_toNat (r g b a : Byte) : (packRgb565 r g b a).toNat =
    (r.toNat >>> 3) <<< 11 ||| (g.toNat >>> 2) <<< 5 ||| b.toNat >>> 3 := by
  have hr : r.toNat &&& 0xF8 = r.toNat >>> 3 <<< 3 := and_highMask (n := 5) r.isLt
  have hg : g.toNat &&& 0xFC = g.toNat >>> 2 <<< 2 := and_highMask (n := 6) g.isLt
  rw [packRgb565_toNat_masked, hr, hg, ← Nat.shiftLeft_add, ← Nat.shiftLeft_add]

/-- Settles O37: the word is the formula's value, and a word is below 0x10000. -/
theorem rgb565ReturnsThePackedColour : Obligations.Rgb565ReturnsThePackedColour := by
  rintro s r g b a _ rfl
  rw [← packRgb565_toNat_masked r g b a, BitVec.ofNat_toNat, BitVec.setWidth_eq]
  exact ⟨rfl, (packRgb565 r g b a).isLt⟩

/-- The top bits of a byte written twice are the byte's own. -/
theorem repeated_shiftRight (x : Byte) (k : Nat) : (x.toNat * 0x101) >>> (8 + k) = x.toNat >>> k := by
  have hx := x.isLt
  have hhigh : (x.toNat * 0x101) >>> 8 = x.toNat := by omega
  rw [Nat.shiftRight_add, hhigh]

/-- Settles O39: a channel's mask and shift keep the same top bits of the byte in either form. -/
theorem wideChannelFormAgrees : Obligations.WideChannelFormAgrees := by
  rintro r g b a _ _ _ rfl rfl rfl
  have hlt : ∀ x : Byte, x.toNat * 0x101 < 2 ^ 16 := fun x => by have := x.isLt; omega
  have hR : r.toNat * 0x101 &&& 0xF800 = r.toNat >>> 3 <<< 11 := by
    rw [← repeated_shiftRight r 3]
    exact and_highMask (n := 5) (hlt r)
  have hG : g.toNat * 0x101 &&& 0xFC00 = g.toNat >>> 2 <<< 10 := by
    rw [← repeated_shiftRight g 2]
    exact and_highMask (n := 6) (hlt g)
  have hB : (b.toNat * 0x101) >>> 11 = b.toNat >>> 3 := repeated_shiftRight b 3
  rw [packRgb565_toNat, hR, hG, hB, Nat.shiftLeft_add _ 5 5, Nat.shiftLeft_shiftRight]

/-! The fields of the packed colour (42 R143). -/

/-- The packed colour is red 7:3, green 7:2 and blue 7:3, one after another. -/
theorem packRgb565_eq_append (r g b a : Byte) :
    packRgb565 r g b a = (r.extractLsb' 3 5 ++ g.extractLsb' 2 6) ++ b.extractLsb' 3 5 := by
  have hr := r.isLt
  have hg := g.isLt
  have hb := b.isLt
  apply BitVec.eq_of_toNat_eq
  rw [packRgb565_toNat, BitVec.toNat_append, BitVec.toNat_append, BitVec.extractLsb'_toNat,
    BitVec.extractLsb'_toNat, BitVec.extractLsb'_toNat, Nat.mod_eq_of_lt (by omega), Nat.mod_eq_of_lt (by omega),
    Nat.mod_eq_of_lt (by omega), Nat.shiftLeft_or_distrib, ← Nat.shiftLeft_add]

theorem packRgb565_red (r g b a : Byte) : (packRgb565 r g b a).extractLsb' 11 5 = r.extractLsb' 3 5 := by
  rw [packRgb565_eq_append, BitVec.extractLsb'_append_eq_of_le (by decide), BitVec.extractLsb'_append_eq_left]

theorem packRgb565_green (r g b a : Byte) : (packRgb565 r g b a).extractLsb' 5 6 = g.extractLsb' 2 6 := by
  rw [packRgb565_eq_append, BitVec.extractLsb'_append_eq_of_le (by decide), BitVec.extractLsb'_append_eq_right]

theorem packRgb565_blue (r g b a : Byte) : (packRgb565 r g b a).extractLsb' 0 5 = b.extractLsb' 3 5 := by
  rw [packRgb565_eq_append, BitVec.extractLsb'_append_eq_right]

/-- Settles O38: the three fields; the five listed values do not depend on alpha, which the packer drops. -/
theorem rgb565FieldLaws : Obligations.Rgb565FieldLaws :=
  ⟨fun r g b a => ⟨packRgb565_red r g b a, packRgb565_green r g b a, packRgb565_blue r g b a⟩,
    fun _ => ⟨rfl, rfl, rfl, rfl, rfl⟩⟩

/-! The bus image of a pixel (42 R142, 30 R66). -/

/-- A field inside a field is a field of the whole. -/
theorem extractLsb'_extractLsb' {w s n t m : Nat} (x : BitVec w) (h : t + m ≤ n) :
    (x.extractLsb' s n).extractLsb' t m = x.extractLsb' (s + t) m := by
  apply BitVec.eq_of_getLsbD_eq
  intro i hi
  simp only [BitVec.getLsbD_extractLsb', hi, decide_true, Bool.true_and, Nat.add_assoc,
    show t + i < n by omega]

/-- The two bytes of a big-endian pair make its word, the first above the second. -/
theorem be16_toNat (v : Word16) : (v.extractLsb' 8 8).toNat * 256 + (v.extractLsb' 0 8).toNat = v.toNat := by
  have hv := v.isLt
  simp only [BitVec.extractLsb'_toNat]
  omega

/-- A part of the packed colour's green field is a part of green 7:2. -/
theorem packRgb565_green_part (r g b a : Byte) {t m : Nat} (h : t + m ≤ 6) :
    (packRgb565 r g b a).extractLsb' (5 + t) m = g.extractLsb' (2 + t) m := by
  rw [← extractLsb'_extractLsb' _ h, packRgb565_green, extractLsb'_extractLsb' _ h]

/-- Settles O40: a part of either byte is a part of the word: red's field, the two parts of green's, blue's. -/
theorem pixelBusImageIsBigEndian : Obligations.PixelBusImageIsBigEndian := by
  intro p
  refine ⟨_, _, rfl, be16_toNat _, ?_, ?_, ?_, ?_⟩ <;> rw [extractLsb'_extractLsb' _ (by decide)]
  · exact packRgb565_red _ _ _ _
  · exact packRgb565_green_part _ _ _ _ (t := 3) (by decide)
  · exact packRgb565_green_part _ _ _ _ (t := 0) (by decide)
  · exact packRgb565_blue _ _ _ _

end Sys2Proof.Safety
end

section
/-! Proofs for 60 R160 to R173: what an operation that returns an error or gets stuck leaves, the place its error names,
and the backlight failure that halt swallows. -/

namespace Sys2Proof.Safety

open Sys2Proof.Machine

/-! An operation that returns an error, or gets stuck, is a run of its script that did. -/

/-- A script's operation is its run, closed by a step that returns nothing: the initialisation sets the sequencer IDLE
there. -/
theorem exec_eq_closed_run {i : Instr} {s : State} {es : List Emission} (hc : Connected s)
    (h : scriptOf s.params s.cfg i = some es) :
    ∃ close : State → State, (∀ u, (close u).results = u.results) ∧
      exec i s = ((runScript es s).andThen (fun u => .done (close u))).finish := by
  by_cases hi : i = .initializePanel
  · subst hi
    rw [exec_initialize_eq_follow hc, Option.some.inj h, follow_eq_runScript]
    exact ⟨fun u => { u with seqStep := .idle }, fun _ => rfl, rfl⟩
  · refine ⟨id, fun _ => rfl, ?_⟩
    rw [exec_eq_run hc h hi]
    cases runScript es s <;> rfl

theorem script_failed_of_error {i : Instr} {s t : State} {es : List Emission} {e : BlockError} (hc : Connected s)
    (h : scriptOf s.params s.cfg i = some es) (ht : exec i s = .next t) (hres : t.results = s.results ++ [.error e]) :
    ∃ u, runScript es s = .failed e u ∧ t = u.raiseError e := by
  obtain ⟨close, hclose, hexec⟩ := exec_eq_closed_run hc h
  have hkeeps := runScript_keeps es s
  rw [hexec] at ht
  cases hr : runScript es s with
  | done u =>
    rw [hr] at ht hkeeps
    cases ht
    rw [State.complete_results, hclose, Keeps.results hkeeps] at hres
    simp at hres
  | failed err u =>
    rw [hr] at ht hkeeps
    cases ht
    rw [State.raiseError_results, Keeps.results hkeeps] at hres
    obtain rfl : err = e := by simpa using hres
    exact ⟨u, rfl, rfl⟩
  | stalled u => rw [hr] at ht; cases ht
  | refused q => rw [hr] at ht; cases ht

/-- An operation that returns an error is a connect whose `Open` failed, or failed in its script (60 R162). -/
theorem exec_error_cases {i : Instr} {s t : State} {e : BlockError} (ht : exec i s = .next t)
    (hres : t.results = s.results ++ [.error e]) :
    ((∃ sel rst bl geom, i = .connect sel rst bl geom) ∧ e = .connectionError ∧
      t = (State.log (.openPort s.params.spiClockHz s.params.spiMode s.params.spiWordBits) .connectionError
        { s with oracle := s.oracle.takeOpen }).raiseError .connectionError) ∨
      ∃ es u, scriptOf s.params s.cfg i = some es ∧ runScript es s = .failed e u ∧ t = u.raiseError e := by
  rcases exec_next_cases ht with ⟨sel, rst, bl, geom, rfl⟩ | ⟨r, g, b, a, -, rfl⟩ | ⟨es, hc, h, -⟩
  · rcases connect_next_cases ht with rfl | ⟨-, rfl⟩
    · obtain rfl : .connectionError = e := by simpa using hres
      exact .inl ⟨⟨sel, rst, bl, geom, rfl⟩, rfl, rfl⟩
    · simp at hres
  · simp at hres
  · exact .inr ⟨es, (script_failed_of_error hc h ht hres).imp fun _ hu => ⟨h, hu⟩⟩

theorem exec_connect_ne_fault {sel : PinId} {rst bl : Option PinId} {geom : Option Geometry} {s : State} {f : Fault} :
    exec (.connect sel rst bl geom) s ≠ .fault f := by
  rw [exec, execConnect]
  rcases connectOp_cases rst.isSome bl.isSome geom s with ⟨q, hop⟩ | hop | hop <;> rw [hop] <;> nofun

/-- An operation that faults stalled in its script (60 R173). -/
theorem exec_fault_cases {i : Instr} {s : State} {f : Fault} (hf : exec i s = .fault f) :
    ∃ es t, scriptOf s.params s.cfg i = some es ∧ runScript es s = .stalled t ∧ f = .stalled t := by
  have hcon : ∀ sel rst bl geom, i ≠ .connect sel rst bl geom := by
    rintro sel rst bl geom rfl
    exact exec_connect_ne_fault hf
  have hcol : ∀ r g b a, i ≠ .rgb565 r g b a := by
    rintro r g b a rfl
    cases hf
  have hc : Connected s := fun hs => by rw [exec_closed hs hcon hcol] at hf; cases hf
  cases h : scriptOf s.params s.cfg i with
  | none =>
    obtain ⟨q, hq⟩ := exec_refused_of_no_script hc h hcol
    rw [hq] at hf
    cases hf
  | some es =>
    obtain ⟨close, -, hexec⟩ := exec_eq_closed_run hc h
    obtain ⟨t, hstalled, rfl⟩ := finish_fault (hexec.symm.trans hf)
    refine ⟨es, t, rfl, ?_, rfl⟩
    cases hr : runScript es s with
    | stalled u => rw [hr] at hstalled; exact hstalled
    | done u => rw [hr] at hstalled; cases hstalled
    | failed err u => rw [hr] at hstalled; cases hstalled
    | refused q => rw [hr] at hstalled; cases hstalled

/-! A transaction that never answers (60 R173). -/

theorem finish_sendCommandOp_stalls {s : State} {bs : List Byte} {ds : List PinAnswer} {xs : List TxAnswer}
    (hbs : bs ≠ []) (hdc : s.oracle.dc = .ok :: ds) (htx : s.oracle.tx = .never :: xs) :
    (sendCommandOp bs s).finish = .fault (.stalled { s with
      dc := .low
      oracle := { s.oracle with dc := ds, tx := xs }
      trace := s.trace ++ [⟨.pin .dc .low, .ok⟩, ⟨.tx .low bs, .never⟩] }) := by
  rw [sendCommandOp, if_neg (by simpa using hbs), selectDc_ok .low hdc, andThen_done, sendTx_never 0 bs (by exact htx)]
  simp [Run.finish, lineOf]

/-- Settles O21: an operation that faults stalled in its script, whose run stalls in a transaction alone and keeps the
results. -/
theorem faultsAreUnansweredTransactions : Obligations.FaultsAreUnansweredTransactions := by
  refine ⟨fun s bs ds xs hc hbs hdc htx => ?_, fun i s f hf => ?_⟩
  · rw [exec_sendCommand _ hc]
    exact finish_sendCommandOp_stalls hbs hdc htx
  · obtain ⟨es, t, h, hr, rfl⟩ := exec_fault_cases hf
    have hkeeps := runScript_keeps es s
    have hleaves := runScript_leaves es (scriptOf_reports h) s
    rw [hr] at hkeeps hleaves
    obtain ⟨xs, tag, bs, htrace⟩ := hleaves
    exact ⟨t, xs, tag, bs, rfl, Keeps.results hkeeps, htrace⟩

/-! The DC line after a run (60 R167). -/

/-- From `s` to `u` the DC line went as the entries appended say. -/
def DcFollows (s u : State) : Prop := ∃ xs, u.trace = s.trace ++ xs ∧ u.dc = dcAfter xs s.dc

theorem DcFollows.refl (s : State) : DcFollows s s := ⟨[], (List.append_nil _).symm, rfl⟩

theorem DcFollows.trans {s t u : State} (h : DcFollows s t) (k : DcFollows t u) : DcFollows s u := by
  obtain ⟨xs, htrace, hdc⟩ := h
  obtain ⟨ys, htrace', hdc'⟩ := k
  refine ⟨xs ++ ys, by rw [htrace', htrace, List.append_assoc], ?_⟩
  rw [hdc', hdc, dcAfter, dcAfter, dcAfter, List.foldl_append]

theorem setPin_dcFollows (p : Pin) (lvl : Level) (s : State) : DcFollows s (setPin p lvl s).2 := by
  cases p with
  | dc => cases h : s.oracle.nextDc <;> simp [DcFollows, setPin, drawPin_dc_eq, h, dcAfter]
  | bl => cases h : s.oracle.nextBl <;> simp [DcFollows, setPin, drawPin_bl_eq, h, dcAfter]

theorem emitOne_dcFollows {e : Emission} {s u : State} (h : runState (emitOne e s) = some u) : DcFollows s u := by
  obtain ⟨st, ev, er⟩ := e
  have hst : DcFollows s (stepOf st s) := by cases st <;> exact .refl s
  cases ev with
  | pin p lvl =>
    have hset := hst.trans (setPin_dcFollows p lvl (stepOf st s))
    simp only [emitOne] at h
    rcases hp : setPin p lvl (stepOf st s) with ⟨a, v⟩
    rw [hp] at h hset
    cases a with
    | ok => cases h; exact hset
    | ioError => cases er <;> cases h <;> exact hset
  | tx tag bs =>
    have hlog : ∀ a, DcFollows s (State.log (.tx tag bs) a { stepOf st s with oracle := (stepOf st s).oracle.takeTx }) :=
      fun a => hst.trans ⟨[_], rfl, rfl⟩
    simp only [emitOne] at h
    cases ha : (stepOf st s).oracle.nextTx with
    | ok | never => rw [ha] at h; cases h; exact hlog _
    | ioError => rw [ha] at h; cases er <;> cases h <;> exact hlog _
  | delay ms => cases h; exact hst.trans ⟨[_], rfl, rfl⟩
  | openPort clk mode bits => cases h; exact hst.trans ⟨[_], rfl, rfl⟩

theorem runScript_dcFollows (es : List Emission) :
    ∀ s u : State, runState (runScript es s) = some u → DcFollows s u := by
  induction es with
  | nil => intro s u h; cases h; exact .refl s
  | cons e rest ih =>
    intro s u h
    have hone : ∀ v, runState (emitOne e s) = some v → DcFollows s v := fun v => emitOne_dcFollows
    rw [runScript] at h
    cases hr : emitOne e s with
    | done v =>
      rw [hr, andThen_done] at h
      exact (hone v (by rw [hr]; rfl)).trans (ih v u h)
    | failed err v => rw [hr] at h hone; exact hone u h
    | stalled v => rw [hr] at h hone; exact hone u h
    | refused q => rw [hr] at h; cases h

/-- Settles O48: a connect that fails leaves its `Open` alone; a run that fails leaves the entries before the failing one
answered ok, and DC as they say. -/
theorem errorsAbortPrecisely : Obligations.ErrorsAbortPrecisely := by
  intro i s t e ht hres
  rcases exec_error_cases ht hres with ⟨-, -, rfl⟩ | ⟨es, u, h, hr, rfl⟩
  · exact ⟨[], _, by rw [List.append_nil]; rfl, .inr rfl, nofun, rfl, rfl, rfl, fun _ h => by cases h⟩
  · have hkeeps := runScript_keeps es s
    have hleaves := runScript_leaves es (scriptOf_reports h) s
    have hdc := runScript_dcFollows es s u (by rw [hr]; rfl)
    rw [hr] at hkeeps hleaves
    have hcfg : u.cfg = s.cfg := Keeps.cfg hkeeps
    obtain ⟨xs, last, htrace, -, hpassed, hanswered, hbad, -, hselect⟩ := hleaves
    obtain ⟨ys, htrace', hdc⟩ := hdc
    obtain rfl : xs ++ [last] = ys := by
      rw [htrace, List.append_assoc] at htrace'
      exact List.append_cancel_left htrace'
    have hanswer : last.answer = .ioError ∨ last.answer = .connectionError := by
      cases ha : last.answer with
      | ok => exact absurd ha hbad
      | never => exact absurd ha hanswered
      | ioError => exact .inl rfl
      | connectionError => exact .inr rfl
    exact ⟨xs, last, htrace, hanswer, fun x hx => (hpassed x hx).2, rfl, hcfg, hdc, hselect⟩

/-! The event that fails, and the error it reports (60 R161). -/

/-- A failing run appends its script's events up to one, and fails with that one's error. -/
theorem runScript_failed_event (es : List Emission) (h : ∀ e ∈ es, Reports e) : ∀ (s t : State) (err : BlockError),
    runScript es s = .failed err t → ∃ n e xs a, es[n]? = some e ∧ e.error = some err ∧
      t.trace = s.trace ++ xs ++ [⟨e.event, a⟩] ∧ eventsIn xs = (es.take n).map (fun x => x.event) := by
  induction es with
  | nil => intro s t err hr; cases hr
  | cons d rest ih =>
    intro s t err hr
    have hone := emitOne_leaves (h d (by simp)) s
    rw [runScript] at hr
    cases hd : emitOne d s with
    | done u =>
      rw [hd] at hone hr
      obtain ⟨b, hu, -⟩ := hone
      obtain ⟨n, e, xs, a, hn, herr, ht, hxs⟩ := ih (fun x hx => h x (by simp [hx])) u t err hr
      exact ⟨n + 1, e, ⟨d.event, b⟩ :: xs, a, hn, herr, by rw [ht, hu]; simp, by simp [← hxs, eventsIn]⟩
    | failed err' u =>
      rw [hd] at hone hr
      cases hr
      obtain ⟨a, ht, -, -, herr, -⟩ := hone
      exact ⟨0, d, [], a, rfl, herr, by rw [ht, List.append_nil], rfl⟩
    | stalled u => rw [hd] at hr; cases hr
    | refused q => rw [hd] at hr; cases hr

/-- An event that stands after these and reports an error is a write of DC or a transaction, and the error names its place
in its send. -/
def ErrorNamesPlace (before : List Event) (e : Emission) : Prop :=
  ∀ err, e.error = some err → ((∃ lvl, e.event = .pin .dc lvl) ∨ ∃ tag bs, e.event = .tx tag bs) ∧
    err = reported e.step (failureCause before e.event)

/-- So does every event of a script, whatever was emitted before it. -/
def ErrorsNamePlaces (es : List Emission) : Prop :=
  ∀ (before : List Event) (n : Nat) (e : Emission), es[n]? = some e →
    ErrorNamesPlace (before ++ (es.take n).map (fun x => x.event)) e

theorem errorsNamePlaces_of_silent {es : List Emission} (h : ∀ e ∈ es, e.error = none) : ErrorsNamePlaces es := by
  intro before n e hn err herr
  rw [h e (List.mem_of_getElem? hn)] at herr
  cases herr

theorem ErrorsNamePlaces.append {a b : List Emission} (ha : ErrorsNamePlaces a) (hb : ErrorsNamePlaces b) :
    ErrorsNamePlaces (a ++ b) := by
  intro before n e hn
  rcases Nat.lt_or_ge n a.length with hlt | hge
  · rw [List.getElem?_append_left hlt] at hn
    rw [List.take_append_of_le_length (Nat.le_of_lt hlt)]
    exact ha before n e hn
  · rw [List.getElem?_append_right hge] at hn
    rw [List.take_append, List.take_of_length_le hge, List.map_append, ← List.append_assoc]
    exact hb _ _ e hn

theorem errorsNamePlaces_flatten {ls : List (List Emission)} (h : ∀ l ∈ ls, ErrorsNamePlaces l) :
    ErrorsNamePlaces ls.flatten := by
  induction ls with
  | nil => exact errorsNamePlaces_of_silent nofun
  | cons l rest ih => exact (h l (by simp)).append (ih fun x hx => h x (by simp [hx]))

/-- Each write of DC begins a send. -/
theorem sentSinceSelect_select (before : List Event) (lvl : Level) (es : List Event) :
    sentSinceSelect (before ++ .pin .dc lvl :: es) = sentSinceSelect es := by
  rw [sentSinceSelect, List.foldl_append]
  rfl

theorem sentSinceSelect_append_tx (es : List Event) (tag : LineLevel) (bs : List Byte) :
    sentSinceSelect (es ++ [.tx tag bs]) = sentSinceSelect es + bs.length := by
  rw [sentSinceSelect, List.foldl_append]
  rfl

/-- The chunks before one that begins inside the payload are whole (20 R46). -/
theorem sentSinceSelect_chunks (bs : List Byte) (n : Nat) (h : n * 4096 ≤ bs.length) :
    sentSinceSelect ((List.range n).map (fun k => .tx .high ((bs.drop (k * 4096)).take 4096))) = n * 4096 := by
  induction n with
  | zero => rfl
  | succ n ih =>
    have hn : n * 4096 ≤ bs.length := Nat.le_trans (Nat.mul_le_mul_right _ n.le_succ) h
    rw [List.range_succ, List.map_append, List.map_singleton, sentSinceSelect_append_tx, ih hn, List.length_take,
      List.length_drop]
    omega

theorem commandScript_errorsNamePlaces (st : Option (Fin 20)) (bs : List Byte) :
    ErrorsNamePlaces (commandScript st bs) := by
  rintro before (_ | _ | n) e hn _ herr
  · cases hn
    cases herr
    exact ⟨.inl ⟨_, rfl⟩, rfl⟩
  · cases hn
    cases herr
    exact ⟨.inr ⟨_, _, rfl⟩, congrArg (fun k => reported st (.tx k)) (sentSinceSelect_select before .low []).symm⟩
  · cases hn

theorem dataScript_errorsNamePlaces (st : Option (Fin 20)) (bs : List Byte) : ErrorsNamePlaces (dataScript st bs) := by
  rintro before (_ | n) e hn err herr
  · cases hn
    cases herr
    exact ⟨.inl ⟨_, rfl⟩, rfl⟩
  · rw [dataScript, List.getElem?_cons_succ, List.getElem?_map, Option.map_eq_some_iff] at hn
    obtain ⟨k, hk, rfl⟩ := hn
    obtain ⟨hlt, rfl⟩ := List.getElem?_eq_some_iff.1 hk
    rw [List.length_range] at hlt
    simp only [List.getElem_range] at herr ⊢
    cases herr
    refine ⟨.inr ⟨_, _, rfl⟩, ?_⟩
    have hbefore : ((dataScript st bs).take (n + 1)).map (fun x => x.event) =
        .pin .dc .high :: (List.range n).map (fun k => .tx .high ((bs.drop (k * 4096)).take 4096)) := by
      rw [List.map_take, dataScript_events, dataEvents, List.take_succ_cons, ← List.map_take, List.take_range,
        Nat.min_eq_left (Nat.le_of_lt hlt)]
    rw [hbefore, failureCause, sentSinceSelect_select, sentSinceSelect_chunks bs n (by omega)]

theorem unitScript_errorsNamePlaces (st : Option (Fin 20)) (o : Opcodes) (u : CmdUnit) :
    ErrorsNamePlaces (unitScript st o u) := by
  refine ((commandScript_errorsNamePlaces st _).append ?_).append (errorsNamePlaces_of_silent (by simp))
  split
  · exact errorsNamePlaces_of_silent nofun
  · exact dataScript_errorsNamePlaces st u.params

theorem windowScript_errorsNamePlaces {p : Params} {c : Cfg} {x0 y0 x1 y1 : Int} {w : List Emission}
    (h : windowScript p c x0 y0 x1 y1 = some w) : ErrorsNamePlaces w := by
  unfold windowScript at h
  split at h
  · cases h
    exact ((unitScript_errorsNamePlaces _ _ _).append (unitScript_errorsNamePlaces _ _ _)).append
      (unitScript_errorsNamePlaces _ _ _)
  · cases h

/-- A window and the data phase after it (41 R121, R124). -/
theorem windowScript_data_errorsNamePlaces {p : Params} {c : Cfg} {x0 y0 x1 y1 : Int} {bs : List Byte}
    {es : List Emission} (h : (windowScript p c x0 y0 x1 y1).map (fun w => w ++ dataScript none bs) = some es) :
    ErrorsNamePlaces es := by
  obtain ⟨w, hw, rfl⟩ := Option.map_eq_some_iff.1 h
  exact (windowScript_errorsNamePlaces hw).append (dataScript_errorsNamePlaces none bs)

theorem initScript_errorsNamePlaces (p : Params) (c : Cfg) : ErrorsNamePlaces (initScript p c) := by
  refine errorsNamePlaces_flatten fun l hl => ?_
  obtain ⟨k, _, rfl⟩ := List.mem_mapIdx.1 hl
  exact unitScript_errorsNamePlaces _ _ _

theorem scriptOf_errorsNamePlaces {p : Params} {c : Cfg} {i : Instr} {es : List Emission}
    (h : scriptOf p c i = some es) : ErrorsNamePlaces es := by
  cases i with
  | initializePanel => rw [← Option.some.inj h]; exact initScript_errorsNamePlaces p c
  | sendCommand bs =>
    simp only [scriptOf] at h
    split at h
    · cases h
    · cases h; exact commandScript_errorsNamePlaces none bs
  | sendData bs => cases h; exact dataScript_errorsNamePlaces none bs
  | sleep | powersave => cases h; exact commandScript_errorsNamePlaces none _
  | setBacklight en => cases h; exact errorsNamePlaces_of_silent (backlightScript_error p c en)
  | setWindow x0 y0 x1 y1 => exact windowScript_errorsNamePlaces h
  | displayImage x y img =>
    simp only [scriptOf] at h
    split at h
    · cases h; exact errorsNamePlaces_of_silent nofun
    · exact windowScript_data_errorsNamePlaces h
  | display raw => exact windowScript_data_errorsNamePlaces h
  | halt =>
    cases h
    exact (errorsNamePlaces_of_silent (backlightScript_error p c false)).append (commandScript_errorsNamePlaces none _)
  | connect | rgb565 => cases h
  | _ => cases h; exact unitScript_errorsNamePlaces none _ _

/-! The unit of the initialisation that an event belongs to (60 R163). -/

/-- A unit writes DC LOW at its first event only (30 R60). -/
theorem unitsBegun_take_unitEvents (o : Opcodes) (u : CmdUnit) (n : Nat) :
    unitsBegun ((unitEvents o u).take (n + 1)) = 1 := by
  have hrest : ∀ ev ∈ (unitEvents o u).tail, ev ≠ .pin .dc .low := by
    simp only [unitEvents, frameEvents, commandEvents, List.cons_append, List.nil_append, List.tail_cons, List.mem_cons,
      List.mem_append, List.mem_map]
    rintro ev (rfl | hdata | ⟨ms, -, rfl⟩)
    · nofun
    · split at hdata
      · cases hdata
      · simp only [dataEvents, List.mem_cons, List.mem_map] at hdata
        rcases hdata with rfl | ⟨k, -, rfl⟩ <;> nofun
    · nofun
  have hcut : (unitEvents o u).take (n + 1) = .pin .dc .low :: (unitEvents o u).tail.take n := rfl
  rw [hcut, unitsBegun, List.countP_cons_of_pos (by rfl),
    List.countP_eq_zero.2 (fun ev hev => by simpa using hrest ev (List.mem_of_mem_take hev))]

theorem unitsBegun_append (a b : List Event) : unitsBegun (a ++ b) = unitsBegun a + unitsBegun b :=
  List.countP_append

/-- In the scripts of units one after another, an event of unit `m` belongs to its step, and with it `m + 1` units have
begun. -/
theorem flatten_unitScript_begun (o : Opcodes) (us : List CmdUnit) :
    ∀ (st : Nat → Option (Fin 20)) (n : Nat) (e : Emission),
      ((us.mapIdx (fun k u => unitScript (st k) o u)).flatten)[n]? = some e →
      ∃ m, m < us.length ∧ e.step = st m ∧ unitsBegun ((us.flatMap (unitEvents o)).take (n + 1)) = m + 1 := by
  induction us with
  | nil => intro st n e hn; cases hn
  | cons u rest ih =>
    intro st n e hn
    have hlen : (unitScript (st 0) o u).length = (unitEvents o u).length := by
      rw [← unitScript_events (st 0), List.length_map]
    rw [List.mapIdx_cons, List.flatten_cons] at hn
    rw [List.flatMap_cons]
    rcases Nat.lt_or_ge n (unitScript (st 0) o u).length with hlt | hge
    · rw [List.getElem?_append_left hlt] at hn
      rw [List.take_append_of_le_length (by omega)]
      exact ⟨0, Nat.zero_lt_succ _, (unitScript_emittedAt _ _ _ e (List.mem_of_getElem? hn)).step,
        unitsBegun_take_unitEvents o u n⟩
    · rw [List.getElem?_append_right hge] at hn
      obtain ⟨m, hm, hstep, hbegun⟩ := ih (fun k => st (k + 1)) _ e hn
      have hunit : unitsBegun ((unitEvents o u).take (n + 1)) = 1 := unitsBegun_take_unitEvents o u n
      refine ⟨m + 1, Nat.succ_lt_succ hm, hstep, ?_⟩
      rw [List.take_append, unitsBegun_append, hunit, ← hlen, Nat.sub_add_comm hge, hbegun, Nat.add_comm]

/-- An event of the initialisation belongs to the step of the last unit begun. -/
theorem initScript_begun {p : Params} {c : Cfg} {n : Nat} {e : Emission} (h : (initScript p c)[n]? = some e) :
    ∃ k : Fin 20, e.step = some k ∧
      unitsBegun (((initScript p c).take (n + 1)).map (fun x => x.event)) = k.val + 1 := by
  have hlen : (initUnits p c).length = 20 := rfl
  rw [initScript] at h
  obtain ⟨m, hm, hstep, hbegun⟩ := flatten_unitScript_begun p.opc (initUnits p c) (fun k => some (Fin.ofNat 20 k)) n e h
  rw [hlen] at hm
  refine ⟨Fin.ofNat 20 m, hstep, ?_⟩
  rw [List.map_take, initScript_events, initEvents, hbegun, Fin.val_ofNat, Nat.mod_eq_of_lt hm]

/-- Settles O55: a connect's error is its `Open`'s; a run's is that of its failing event, which names the event's place, and
whose step is none outside the initialisation. -/
theorem returnedErrorNamesTheFailingEvent : Obligations.ReturnedErrorNamesTheFailingEvent := by
  intro i s t err ht hres
  rcases exec_error_cases ht hres with ⟨hcon, rfl, rfl⟩ | ⟨es, u, h, hr, rfl⟩
  · exact ⟨[], _, by rw [List.append_nil]; rfl, .inl ⟨hcon, rfl, _, _, _, rfl⟩⟩
  · obtain ⟨n, e, xs, a, hn, herr, htrace, hxs⟩ := runScript_failed_event es (scriptOf_reports h) s u err hr
    obtain ⟨hevent, hplace⟩ := scriptOf_errorsNamePlaces h [] n e hn err herr
    rw [List.nil_append, ← hxs] at hplace
    refine ⟨xs, ⟨e.event, a⟩, htrace, .inr ⟨hevent, ?_⟩⟩
    by_cases hi : i = .initializePanel
    · subst hi
      obtain rfl : initScript s.params s.cfg = es := Option.some.inj h
      obtain ⟨k, hstep, hbegun⟩ := initScript_begun hn
      have hentries : eventsIn (xs ++ [⟨e.event, a⟩]) =
          ((initScript s.params s.cfg).take (n + 1)).map (fun x => x.event) := by
        rw [List.take_add_one, hn, List.map_append, ← hxs]
        simp [eventsIn]
      rw [hstep] at hplace
      exact .inr ⟨rfl, k, hplace, by rw [hentries, hbegun]⟩
    · rw [(scriptOf_emittedAt h hi e (List.mem_of_getElem? hn)).step] at hplace
      exact .inl ⟨hi, hplace⟩

/-! halt (60 R164 (b)). -/

/-- Settles O24: the backlight's write is swallowed whatever its answer, and SLPIN's command phase fails at its
transaction. -/
theorem haltReportsOnlyTheSleepFailure : Obligations.HaltReportsOnlyTheSleepFailure := by
  intro s bs ds xs a hc hbl hans hdc htx
  have hoff : backlightOp false s = _ := (if_pos hbl).trans (setPin_bl_of (opposite s.params.blOnLevel) hans)
  rw [exec, execHalt, whenConnected_opened _ hc, haltOp, sleepOp, hoff,
    finish_sendCommandOp_txFails (List.cons_ne_nil _ _) (by exact hdc) (by exact htx)]
  simp only [List.append_assoc]
  rfl

end Sys2Proof.Safety
end

section
/-! Proofs for 70 R180 to R192: waiting and refusing without an instruction, reset as a connect, a window that fails under
display and display_image, and the delays and the bus time of an operation that returned ok. -/

namespace Sys2Proof.Safety

open Sys2Proof.Machine

/-! Step and reset (70 R180). -/

/-- Settles O7: fetch finds nothing on an empty port, and takes the refusal's name from the decoder. -/
theorem stepWaitsOrRefusesWithoutAnInstruction : Obligations.StepWaitsOrRefusesWithoutAnInstruction := by
  refine ⟨fun s hport => ?_, fun s req rest e hport hdecode => step_refused_of_decode_error hport hdecode⟩
  have hfetch : fetch s = .nothing := by simp only [fetch, hport]
  rw [step, hfetch]

/-- Settles O9: connect writes every register, from the state before connect with the default geometry. -/
theorem connectLeavesTheResetState : Obligations.ConnectLeavesTheResetState := fun sel bl =>
  connectWritesEveryRegister _ sel none (some bl) none geomDefault [] rfl rfl (by decide) (by decide) (by decide)
    (by decide) rfl

/-! A window that fails, under an operation that sends more after it (70 R188). -/

/-- Where an event of its window fails, an operation whose script begins with that window ends there. -/
theorem exec_of_window_failsAt {i : Instr} {s : State} {a0 b0 a1 b1 : Byte} {rest : List Emission} {n : Nat} {ev : Event}
    (hc : Connected s) (h : scriptOf s.params s.cfg i = some (windowSend s.params.opc a0 b0 a1 b1 ++ rest))
    (hn : (windowEvents s.params.opc a0 b0 a1 b1)[n]? = some ev)
    (hf : FailsAt s ((windowEvents s.params.opc a0 b0 a1 b1).take n) ev) :
    exec i s = .next { stoppedAt ((windowEvents s.params.opc a0 b0 a1 b1).take n) ev s with
      seqStep := .idle
      results := s.results ++ [.error (.ioError (causeAt ev 0))] } := by
  rw [← windowSend_events] at hn hf ⊢
  obtain ⟨a, e, b, hcut, ha, rfl⟩ := script_split hn
  have hmem : e ∈ windowSend s.params.opc a0 b0 a1 b1 := by simp [hcut]
  have hscript : scriptOf s.params s.cfg i = some (a ++ e :: (b ++ rest)) := by
    rw [h, hcut, List.append_assoc, List.cons_append]
  rw [← ha] at hf ⊢
  exact exec_of_failsAt hc hscript (windowSend_error hmem) hf

/-- Where the offset coordinates are in the range of a byte, set_window's script sends their low bytes. -/
theorem windowScript_of_inByteRange {p : Params} {c : Cfg} {x0 y0 x1 y1 : Int}
    (h : inByteRange (nativeCol c x0) = true ∧ inByteRange (nativeCol c x1) = true ∧
      inByteRange (nativeRow c y0) = true ∧ inByteRange (nativeRow c y1) = true) :
    windowScript p c x0 y0 x1 y1 = some (windowSend p.opc (lo8 (nativeCol c x0)) (lo8 (nativeRow c y0))
      (lo8 (nativeCol c x1)) (lo8 (nativeRow c y1))) :=
  if_pos h

/-- The script of a clip that is not empty: the window of its first and last pixels, then its pixel bytes. -/
theorem scriptOf_displayImage_of_nonempty {p : Params} {c : Cfg} {x y : Int} {img : Image} {k : Clip}
    (hgeom : geometryOk ⟨c.w, c.h, c.offL, c.offT⟩ = true) (hk : k = clipOf c x y img) (hne : k.empty = false) :
    scriptOf p c (.displayImage x y img) = some
      (windowSend p.opc (lo8 (nativeCol c k.cx0)) (lo8 (nativeRow c k.cy0)) (lo8 (nativeCol c (k.cx1 - 1)))
        (lo8 (nativeRow c (k.cy1 - 1))) ++ dataScript none (imageBytes x y img k.cx0 k.cy0 k.cw k.ch)) := by
  obtain ⟨-, -, -, -, -, hvisible, -⟩ := clipIsTheVisiblePartOfTheImage c x y img k hk
  obtain ⟨-, hrange⟩ := hvisible hne hgeom
  subst hk
  simp only [scriptOf, hne, Bool.false_eq_true, if_false, windowScript_of_inByteRange hrange, Option.map_some]

/-- Settles O36: both scripts begin with their window, so its failing event is the last. -/
theorem noPixelFollowsAFailedWindow : Obligations.NoPixelFollowsAFailedWindow := by
  intro s n ev w hc hgeom hn hf
  refine ⟨?_, ?_⟩
  · rintro raw rfl
    exact exec_of_window_failsAt hc (scriptOf_display raw hgeom) hn hf
  · rintro x y img k hk hne rfl
    exact exec_of_window_failsAt hc (scriptOf_displayImage_of_nonempty hgeom hk hne) hn hf

/-! The events an operation appends: a beginning of its script, and the whole of it where it returns ok. -/

/-- From `s` to `t` a beginning of these events was appended to the trace; where the result is ok, all of them. -/
def Emitted (evs : List Event) (s t : State) : Prop :=
  ∃ xs : List Entry, t.trace = s.trace ++ xs ∧ eventsIn xs <+: evs ∧
    (t.results = s.results ++ [.ok] → eventsIn xs = evs)

/-- An operation whose script fails takes its error (60 R166). -/
theorem exec_next_of_failed {i : Instr} {s t u : State} {es : List Emission} {err : BlockError} (hc : Connected s)
    (h : scriptOf s.params s.cfg i = some es) (ht : exec i s = .next t) (hr : runScript es s = .failed err u) :
    t = u.raiseError err := by
  obtain ⟨close, -, hexec⟩ := exec_eq_closed_run hc h
  rw [hexec, hr] at ht
  cases ht
  rfl

theorem script_emitted {i : Instr} {s t : State} {es : List Emission} (hc : Connected s)
    (h : scriptOf s.params s.cfg i = some es) (ht : exec i s = .next t) : Emitted (es.map (fun e => e.event)) s t := by
  have hleaves := runScript_leaves es (scriptOf_reports h) s
  obtain ⟨u, q, r, hu, hend, -⟩ := script_completes hc h ht
  have hresults : u.results = s.results := hu.keeps.results
  rcases hu with hr | ⟨err, hr⟩ <;> rw [hr] at hleaves
  · subst hend
    obtain ⟨xs, htrace, hevents, -⟩ := hleaves
    exact ⟨xs, htrace, hevents ▸ List.prefix_rfl, fun _ => hevents⟩
  · obtain rfl := exec_next_of_failed hc h ht hr
    obtain ⟨xs, last, htrace, ⟨post, hevents⟩, -⟩ := hleaves
    refine ⟨xs ++ [last], htrace.trans (List.append_assoc _ _ _), ⟨post, by simp [hevents, eventsIn]⟩, fun hok => ?_⟩
    rw [State.raiseError_results, hresults] at hok
    simp at hok

/-- An instruction that ends, but for connect and rgb565, has a script, and emitted a beginning of it. -/
theorem exec_emitted {i : Instr} {s t : State} (ht : exec i s = .next t)
    (hcon : ∀ sel rst bl geom, i ≠ .connect sel rst bl geom) (hcol : ∀ r g b a, i ≠ .rgb565 r g b a) :
    ∃ es, scriptOf s.params s.cfg i = some es ∧ Emitted (es.map (fun e => e.event)) s t := by
  rcases exec_next_cases ht with ⟨sel, rst, bl, geom, hi⟩ | ⟨r, g, b, a, hi, -⟩ | ⟨es, hc, h, -⟩
  · exact absurd hi (hcon sel rst bl geom)
  · exact absurd hi (hcol r g b a)
  · exact ⟨es, h, script_emitted hc h ht⟩

/-! The delays of initialize (70 R185). -/

theorem delaysOf_append (a b : List Event) : delaysOf (a ++ b) = delaysOf a ++ delaysOf b := List.filterMap_append

/-- No frame holds a delay, so a unit's delays are its own (30 R62). -/
theorem delaysOf_unitEvents (o : Opcodes) (u : CmdUnit) : delaysOf (unitEvents o u) = u.delay.toList := by
  have hdata : delaysOf (dataEvents u.params) = [] := by simp [delaysOf, dataEvents]
  have hframe : delaysOf (frameEvents (opcodeOf o u.cmd) u.params) = [] := by
    rw [frameEvents, delaysOf_append]
    split
    · rfl
    · exact hdata
  have hdelay : delaysOf (u.delay.toList.map (fun ms => .delay ms)) = u.delay.toList := by cases u.delay <;> rfl
  rw [unitEvents, delaysOf_append, hframe, hdelay, List.nil_append]

theorem delaysOf_flatMap_unitEvents (o : Opcodes) (us : List CmdUnit) :
    delaysOf (us.flatMap (unitEvents o)) = us.flatMap (fun u => u.delay.toList) := by
  induction us with
  | nil => rfl
  | cons u rest ih => rw [List.flatMap_cons, delaysOf_append, delaysOf_unitEvents, ih, List.flatMap_cons]

theorem delaysOf_initEvents (p : Params) (c : Cfg) : delaysOf (initEvents p c) = [150, 500, 100, 100] := by
  rw [initEvents, delaysOf_flatMap_unitEvents]
  rfl

/-- The initialisation begins with the units of SWRESET and SLPOUT and ends with those of NORON and DISPON, each a command
phase and its delay (40 R102). -/
theorem initEvents_eq_settling_ends (p : Params) (c : Cfg) : ∃ middle, initEvents p c =
    [.pin .dc .low, .tx .low [p.opc.swreset], .delay 150, .pin .dc .low, .tx .low [p.opc.slpout], .delay 500] ++ middle ++
    [.pin .dc .low, .tx .low [p.opc.noron], .delay 100, .pin .dc .low, .tx .low [p.opc.dispon], .delay 100] := by
  have hunits : initUnits p c = [⟨.swreset, [], some 150⟩, ⟨.slpout, [], some 500⟩] ++ ((initUnits p c).take 18).drop 2 ++
      [⟨.noron, [], some 100⟩, ⟨.dispon, [], some 100⟩] := rfl
  refine ⟨(((initUnits p c).take 18).drop 2).flatMap (unitEvents p.opc), ?_⟩
  rw [initEvents, hunits, List.flatMap_append, List.flatMap_append]
  rfl

/-- Settles O16: the initialisation emits a beginning of its events, and all of them where it returns ok. -/
theorem initializeKeepsTheFourSettleDelays : Obligations.InitializeKeepsTheFourSettleDelays := by
  intro s t ht
  obtain ⟨es, h, xs, htrace, hprefix, hall⟩ := exec_emitted ht nofun nofun
  have hevents : es.map (fun e => e.event) = initEvents s.params s.cfg := by
    rw [← Option.some.inj h, initScript_events]
  rw [hevents] at hprefix hall
  refine ⟨xs, htrace, ?_, fun hok => ?_⟩
  · rw [← delaysOf_initEvents s.params s.cfg]
    exact hprefix.filterMap _
  · have hdelays := delaysOf_initEvents s.params s.cfg
    rw [hall hok]
    exact ⟨hdelays, congrArg List.sum hdelays, initEvents_eq_settling_ends s.params s.cfg⟩

/-! The bytes of a data phase on the bus (70 R192). -/

theorem commandBytes_append (a b : List Event) : commandBytes (a ++ b) = commandBytes a ++ commandBytes b :=
  List.flatMap_append

theorem dataBytes_append (a b : List Event) : dataBytes (a ++ b) = dataBytes a ++ dataBytes b := List.flatMap_append

/-- A data phase is DC driven HIGH and one transaction for each chunk (40 R106). -/
theorem dataEvents_eq_chunks (bs : List Byte) :
    dataEvents bs = .pin .dc .high :: (chunks bs).map (fun c => .tx .high c) := by
  rw [chunks, List.map_map]
  rfl

theorem commandBytes_dataEvents (bs : List Byte) : commandBytes (dataEvents bs) = [] := by
  simp [dataEvents_eq_chunks, commandBytes]

/-- The chunks put back together are the payload (20 R46). -/
theorem dataBytes_dataEvents (bs : List Byte) : dataBytes (dataEvents bs) = bs := by
  rw [dataEvents_eq_chunks]
  simp [dataBytes, List.flatMap_map, chunks_flatten]

theorem commandBytes_windowEvents (o : Opcodes) (a0 b0 a1 b1 : Byte) :
    commandBytes (windowEvents o a0 b0 a1 b1) = [o.caset, o.raset, o.ramwr] := by
  rw [windowEvents_eq]
  rfl

theorem dataBytes_windowEvents (o : Opcodes) (a0 b0 a1 b1 : Byte) :
    dataBytes (windowEvents o a0 b0 a1 b1) = [0, a0, 0, a1, 0, b0, 0, b1] := by
  rw [windowEvents_eq]
  rfl

/-- At 4 MHz a byte of 8 bits takes 2 microseconds. -/
theorem busNanoseconds_4MHz (evs : List Event) :
    busNanoseconds 4000000 8 evs = 2000 * ((commandBytes evs).length + (dataBytes evs).length) := by
  rw [busNanoseconds, List.length_append]
  omega

/-- A display that has a script sends a window and then its bytes, whatever the geometry (41 R124). -/
theorem scriptOf_display_events {p : Params} {c : Cfg} {raw : List Byte} {es : List Emission}
    (h : scriptOf p c (.display raw) = some es) :
    ∃ a0 b0 a1 b1, es.map (fun e => e.event) = windowEvents p.opc a0 b0 a1 b1 ++ dataEvents raw := by
  obtain ⟨w, hw, rfl⟩ := Option.map_eq_some_iff.1 h
  have hrange := mt windowScript_eq_none_iff.2 (by rw [hw]; nofun)
  rw [windowScript_of_inByteRange (not_not.1 hrange)] at hw
  cases hw
  exact ⟨_, _, _, _, by rw [List.map_append, windowSend_events, dataScript_events]⟩

/-- Settles O51: an operation that returned ok emitted its whole script; its data bytes are the payload, for display after
the window's. -/
theorem dataPhaseBusTime : Obligations.DataPhaseBusTime := by
  refine ⟨fun s t bs ht hok => ?_, fun s t raw ht hok => ?_⟩
  · obtain ⟨es, h, xs, htrace, -, hall⟩ := exec_emitted ht nofun nofun
    refine ⟨xs, htrace, ?_⟩
    rw [hall hok, ← Option.some.inj h, dataScript_events, busNanoseconds_4MHz, commandBytes_dataEvents,
      dataBytes_dataEvents, List.length_nil, Nat.zero_add]
    exact ⟨rfl, rfl, rfl⟩
  · obtain ⟨es, h, xs, htrace, -, hall⟩ := exec_emitted ht nofun nofun
    obtain ⟨a0, b0, a1, b1, hevents⟩ := scriptOf_display_events h
    refine ⟨xs, [0, a0, 0, a1, 0, b0, 0, b1], htrace, ?_⟩
    rw [hall hok, hevents, busNanoseconds_4MHz, commandBytes_append, dataBytes_append, commandBytes_dataEvents,
      dataBytes_dataEvents, commandBytes_windowEvents, dataBytes_windowEvents]
    simp only [List.length_append, List.length_cons, List.length_nil, true_and]
    omega

end Sys2Proof.Safety
end
